-- ==== Sys2Proof/Word.lean ====
section
/-!
DEFINITION. The units of the wire: bytes, and frames as byte sequences (R11, R12).
-/

namespace Sys2Proof

/-- A byte: 8 bits, unsigned (R11). -/
abbrev Byte := BitVec 8

/-- A frame held in a queue: an immutable byte sequence, leftmost byte first on the wire (R12). -/
abbrev Frame := List Byte

end Sys2Proof
end

