-- ==== Sys2Proof/Config.lean ====
section
/-!
DEFINITION. What an implementation fixes: the parameter record of R8 with the constraints of R9, the
environment's possible answers on the channel (R36), and the free values (constants without a body) that
stand for what the spec leaves open.
-/

namespace Sys2Proof

/-- What the environment may answer to `CH.read(1)` (R36, R160): one byte, nothing (a timeout), or a failure. -/
inductive ReadEvent where
  | byte (b : Byte)
  | nothing
  | failure
deriving DecidableEq, Repr, Inhabited

/-- What the environment may answer to the `CH.write` and `CH.flush` of one WR (R36, R190, R191). On a failure
`sent` bytes of the argument (all of it when `sent` is larger) have reached the TX stream: any part, log 13. -/
inductive WrAnswer where
  | ok
  | writeError (sent : Nat)
  | flushError (sent : Nat)
deriving DecidableEq, Repr, Inhabited

/-- The four meanings that the words W0..W3 of a CAN body may have (R59, D18, U2). -/
inductive BodyWord where
  | flagWord
  | arbitrationId
  | timestamp
  | fourth
deriving DecidableEq, Repr, Inhabited

/-- The parameter record of R8. The command bytes marked OPEN there and the parameters of the host software
(U2, U10, U14) are fields like the others: nothing outside `Params.default` gives them a value. -/
structure Params where
  /-- raw command byte of a CAN-message frame; selects the 6-byte header -/
  cmdMessage : Byte
  cmdSync : Byte
  cmdSyncAnswer : Byte
  /-- the generic error command -/
  cmdError : Byte
  cmdMin : Byte
  cmdMax : Byte
  answerBit : Byte
  hlenShort : Nat
  hlenLong : Nat
  /-- capacity of the control queue, in frames -/
  cqDepth : Nat
  /-- capacity of the message queue, in frames -/
  mqDepth : Nat
  /-- control-response wait of the host contract; no rule depends on it -/
  tCtrl : Nat
  bodyPrefix : Nat
  bodyDlcOff : Nat
  accCap : Nat
  cmdDeviceOpen : Byte
  cmdDeviceClose : Byte
  cmdChannelConfig : Byte
  cmdChannelOpen : Byte
  cmdChannelClose : Byte
  cmdSetMode : Byte
  cmdSetFilter : Byte
  cmdDeviceInfo : Byte
  /-- supported rates and the code byte of each (R224, U14) -/
  bitrateTable : List (Nat × Byte)
  /-- mode bytes of normal, listen and loopback (R225, U14) -/
  modeNormal : Byte
  modeListen : Byte
  modeLoopback : Byte
  /-- codes of the filter types 11-bit and 29-bit (R226, U14) -/
  filterType11 : BitVec 32
  filterType29 : BitVec 32
  /-- `flags` of the CHANNEL_CONFIG, SET_MODE and SET_FILTER requests (R224 to R226, U14) -/
  configFlags : Nat
  modeFlags : Nat
  filterFlags : Nat
  /-- the channel bits in the header flags of a sent MESSAGE frame (R250, U10) -/
  channelFlags : Nat
  /-- the bits of the body's flag word that say extended and remote (R250, U10) -/
  extendedMask : BitVec 32
  remoteMask : BitVec 32
  /-- which meaning W0, W1, W2 and W3 have (R59, D18, U2) -/
  word0 : BodyWord
  word1 : BodyWord
  word2 : BodyWord
  word3 : BodyWord
deriving DecidableEq, Repr

/-- The command bytes that R8 marks OPEN. -/
def Params.openCommands (p : Params) : List Byte :=
  [p.cmdDeviceOpen, p.cmdDeviceClose, p.cmdChannelConfig, p.cmdChannelOpen, p.cmdChannelClose,
    p.cmdSetMode, p.cmdSetFilter, p.cmdDeviceInfo]

/-- A value in `CMD_MIN..CMD_MAX` (R8, R88). -/
def Params.inRange (p : Params) (command : Nat) : Bool :=
  p.cmdMin.toNat ≤ command && command ≤ p.cmdMax.toNat

/-- The constraints that R9 puts on a parameter record. R9 does not say that `ANSWER_BIT` has one bit only; that a byte "has
ANSWER_BIT set" when it has any bit in common with the mask is DESIGN CHOICE, log 33. -/
def Params.r9 (p : Params) : Bool :=
  p.inRange p.cmdMessage.toNat && p.inRange p.cmdSyncAnswer.toNat
    && (p.cmdSync &&& p.answerBit != 0) && (p.cmdError &&& p.answerBit != 0)
    && !p.inRange p.cmdSync.toNat && !p.inRange p.cmdError.toNat
    && decide [p.cmdMessage, p.cmdSync, p.cmdSyncAnswer, p.cmdError, 0x00#8].Nodup
    && p.openCommands.all (fun c => p.inRange c.toNat && c != p.cmdMessage && c != p.cmdSyncAnswer)
    && decide p.openCommands.Nodup
    && decide (1 ≤ p.cqDepth) && decide (1 ≤ p.mqDepth)
    && decide (p.bodyDlcOff + 2 ≤ p.bodyPrefix)

/-- The parameter records that the spec's rules are written for: those that satisfy R9 (R333, U17). -/
def Params.ok (p : Params) : Bool :=
  p.r9

/-- The header lengths leave room for the fields at their fixed offsets (R58), the longer header is the MESSAGE frame's,
and `ACC_CAP` is what the table of R8 says it is. No step asks for it: a premise of the statements about whole frames
(log 9). -/
def Params.headersFit (p : Params) : Bool :=
  decide (4 ≤ p.hlenShort) && decide (6 ≤ p.hlenLong) && decide (p.hlenShort < p.hlenLong)
    && decide (p.accCap = p.hlenLong + 65535)

/-- The layout of a CAN body can be read back (R59): the DLC stands after the four words, the words have the four
meanings, and the two flag bits can be told apart. No step asks for it: a premise of the statement about a sent body
(log 9). -/
def Params.bodyFits (p : Params) : Bool :=
  decide (16 ≤ p.bodyDlcOff) && decide [p.word0, p.word1, p.word2, p.word3].Nodup
    && (p.extendedMask != 0) && (p.remoteMask != 0) && (p.extendedMask &&& p.remoteMask == 0)

/-- The defaults of R8. The values of the rows that R8 marks OPEN and of the host-software parameters are
placeholders, DESIGN CHOICE (log 7, log 8): no statement may rest on them. -/
def Params.default : Params where
  cmdMessage := 0x40
  cmdSync := 0xA5
  cmdSyncAnswer := 0x5A
  cmdError := 0xFF
  cmdMin := 0x01
  cmdMax := 0x7F
  answerBit := 0x80
  hlenShort := 4
  hlenLong := 6
  cqDepth := 10
  mqDepth := 10000
  tCtrl := 500
  bodyPrefix := 18
  bodyDlcOff := 16
  accCap := 65541
  cmdDeviceOpen := 0x01
  cmdDeviceClose := 0x04
  cmdChannelConfig := 0x02
  cmdChannelOpen := 0x03
  cmdChannelClose := 0x05
  cmdSetMode := 0x06
  cmdSetFilter := 0x07
  cmdDeviceInfo := 0x08
  bitrateTable := [(500000, 0x05)]
  modeNormal := 0x00
  modeListen := 0x01
  modeLoopback := 0x02
  filterType11 := 0
  filterType29 := 1
  configFlags := 0
  modeFlags := 0
  filterFlags := 0
  channelFlags := 0
  extendedMask := 1
  remoteMask := 2
  word0 := .flagWord
  word1 := .arbitrationId
  word2 := .timestamp
  word3 := .fourth

/-- Free: what `HLEN` and `TOTAL` hold after RST (R39, R313, U5; log 10). -/
opaque Config.freeLength : Nat → Nat

/-- Free: the environment's answer to a read when no turn presents one (R160, U12; log 14). -/
opaque Config.freeRead : Nat → ReadEvent

/-- Free: the environment's answer to a write and flush when none is listed (R191, U6; log 13). -/
opaque Config.freeWrAnswer : Nat → WrAnswer

/-- Free: whether the environment's close succeeds when no answer is listed (R204; log 13). -/
opaque Config.freeCloseOk : Nat → Bool

/-- Free: a word of a sent CAN body whose value no rule gives (R250, U2; log 25). -/
opaque Config.freeWord : Nat → BitVec 32

/-- Free: the `i`-th byte of a sent CAN body's prefix outside the words and the DLC (R250; log 25). -/
opaque Config.freePrefixByte : Nat → Nat → Byte

/-- Free: byte `i` of a buffer that has no byte `i`, where a parameter record makes a rule read it (R13, log 9). -/
opaque Config.absentByte : Nat → Byte

/-- Free: the value `filtered` that recv returns with a frame (R251, U19; log 26). -/
opaque Config.freeFiltered : Nat → Bool

end Sys2Proof
end

