-- ==== Sys2Proof/Machine/Operands.lean ====
section
/-!
DEFINITION. Reading and writing fields of byte buffers: MemRead and MemWrite (R13), byte order (R53, R54), and the
header length and payload length that a frame's bytes imply (R84 to R86).
-/

namespace Sys2Proof.Machine

/-- The `n` low-order bytes of `v`, least significant first (R13, R53). -/
def leBytes : Nat → Nat → List Byte
  | 0, _ => []
  | n + 1, v => BitVec.ofNat 8 (v % 256) :: leBytes n (v / 256)

/-- Byte `i` of a buffer, `B[i]` of R12; where the buffer has no byte `i`, a free value (log 9). -/
def byteAt (buf : List Byte) (i : Nat) : Byte :=
  buf.getD i (Config.absentByte i)

/-- `MemRead(B + off, n)` of R13. -/
def memRead (buf : List Byte) (off : Nat) : Nat → Nat
  | 0 => 0
  | n + 1 => (byteAt buf off).toNat + 256 * memRead buf (off + 1) n

/-- `MemWrite(B + off, n, v)` of R13. -/
def memWrite (buf : List Byte) (off n v : Nat) : List Byte :=
  buf.take off ++ leBytes n v ++ buf.drop (off + n)

/-- The raw command byte is one of the two sync codes (R16, C1). -/
def isSyncCode (p : Params) (b : Byte) : Bool :=
  b == p.cmdSyncAnswer || b == p.cmdSync

/-- `hlen` of R85 from the first byte. -/
def hlenOf (p : Params) (b : Byte) : Nat :=
  if b = p.cmdMessage then p.hlenLong else p.hlenShort

/-- `hlen` of R85. -/
def hlen (p : Params) (h : List Byte) : Nat :=
  hlenOf p (byteAt h 0)

/-- `plen` of R85: the payload length that a whole header declares. -/
def plen (p : Params) (h : List Byte) : Nat :=
  if isSyncCode p (byteAt h 0) then 0
  else if byteAt h 0 = p.cmdMessage then memRead h 4 2
  else memRead h 3 1

/-- The header length field of a frame, as R84 assembles `dataLength`. -/
def lengthField (p : Params) (f : List Byte) : Nat :=
  plen p f

/-- The canonical sync frame that the host sends (R83, R111). -/
def syncFrame (p : Params) : List Byte :=
  [p.cmdSync, 0x00, p.cmdSync, 0x00]

/-- The canonical sync answer (R83, R135). -/
def syncAnswerFrame (p : Params) : List Byte :=
  [p.cmdSyncAnswer, 0x00, p.cmdSyncAnswer, 0x00]

/-- The 4-byte header of format F4 (R81, R112). -/
def headerF4 (command : Nat) (seq : BitVec 8) (flags length : Nat) : List Byte :=
  [BitVec.ofNat 8 command, seq, BitVec.ofNat 8 flags, BitVec.ofNat 8 length]

/-- The 6-byte header of format F6 (R82, R113). -/
def headerF6 (p : Params) (seq : BitVec 8) (flags length : Nat) : List Byte :=
  [p.cmdMessage, seq, BitVec.ofNat 8 (flags % 256), BitVec.ofNat 8 (flags / 256),
    BitVec.ofNat 8 (length % 256), BitVec.ofNat 8 (length / 256)]

/-- "appends `payload` when `length > 0`" (R110, R112 line 4, R113 line 4). -/
def withPayload (header : List Byte) (length : Nat) (payload : List Byte) : List Byte :=
  if length > 0 then header ++ payload else header

end Sys2Proof.Machine
end

