-- ==== Sys2Proof/Syntax.lean ====
section
/-!
DEFINITION. The instructions: one constructor for each of the 53 rows of spec/opcode_table.json, and the forms in
which an instruction is presented to the machine (R90, R92).
-/

namespace Sys2Proof

/-- The CAN modes (R225, R231). -/
inductive Mode where
  | normal
  | listen
  | loopback
deriving DecidableEq, Repr, Inhabited

/-- The argument of setMode: one of the modes, or any other value (R225). -/
inductive ModeArg where
  | mode (m : Mode)
  | other (n : Nat)
deriving DecidableEq, Repr, Inhabited

/-- The type of a filter (R226). -/
inductive FilterKind where
  | std11
  | ext29
deriving DecidableEq, Repr, Inhabited

/-- A filter of setFilter (R226). -/
structure Filter where
  kind : FilterKind
  id : BitVec 32
  mask : BitVec 32
deriving DecidableEq, Repr, Inhabited

/-- The argument of construct: a bitrate or a raw BTR register value, a mode, the filters in order (R228, R229). Without
a mode the configure step sends no mode request, as in the scenario of R316 (log 22). -/
structure BusConfig where
  bitrate : Option Nat
  btr : Option Nat
  mode : Option ModeArg
  filters : List Filter
deriving DecidableEq, Repr, Inhabited

/-- The argument of send (R250). -/
structure CanFrame where
  id : BitVec 32
  extended : Bool
  remote : Bool
  data : List Byte
deriving DecidableEq, Repr, Inhabited

/-- The operations of the engine and of the host contract, one constructor per row of spec/opcode_table.json.
A `timeout` is a duration whose only effect is that a wait may give up (R197, R296). -/
inductive Instr where
  -- RX first-byte classes (R87): the line `rx HH` of R90
  | byteZero
  | byteMessage
  | byteSyncAnswer
  | byteSync
  | byteError
  | byteCtrl (cmd7 : BitVec 7)
  | byteCtrlAck (cmd7 : BitVec 7)
  -- ENC (R110), one row per case of its dispatch
  | encSync (flags length : Nat) (payload : List Byte)
  | encCtrl (command flags length : Nat) (payload : List Byte)
  | encMsg (flags length : Nat) (payload : List Byte)
  | encBadCommand (command flags length : Nat) (payload : List Byte)
  | encBadField (command flags length : Nat) (payload : List Byte)
  | seqClr
  -- DEC (R130), one row per case of its dispatch
  | decEmpty
  | decZeroStart (raw : List Byte)
  | decShort (raw : List Byte)
  | decFs (raw : List Byte)
  | decF4 (raw : List Byte)
  | decF6 (raw : List Byte)
  | decBodyShort (raw : List Byte)
  -- the other host operations (R37)
  | wr (raw : List Byte)
  | popc (timeout : Nat)
  | popm (timeout : Nat)
  | stop
  | status
  | rst
  -- the reader's steps (R160 to R173, R194)
  | rxArm
  | rxStopChk
  | rxIdle
  | rxErr
  | rxSkip0
  | rxFirst (b : Byte)
  | rxHdr (b : Byte)
  | rxLen4 (b : Byte)
  | rxLenSync (b : Byte)
  | rxLen6 (b : Byte)
  | rxPay (b : Byte)
  | rxComplete
  | push
  -- the pseudo-operations of the host contract (R91)
  | xchg (command flags length : Nat) (payload : List Byte)
  | sync
  | deviceOpen
  | deviceClose
  | setBitrate (bps : Nat)
  | setMode (mode : ModeArg)
  | setFilter (index : BitVec 32) (filter : Filter)
  | channelOpen
  | channelClose
  | setBitrateFromRegister (raw : Nat)
  | construct (config : BusConfig)
  | shutdown
  | send (frame : CanFrame)
  | recv (timeout : Nat)
deriving DecidableEq, Repr

/-- How an instruction is presented to the machine (log 2). The rows with an encoding in the table come as bytes:
`rx` is one byte on the channel, `image` is an ENC call written as its frame (R81 to R83). The rows whose `encoding`
is `none` have no bits in the spec: `call` is such a line of the event script (R90), the operation and its arguments. -/
inductive Packet where
  | rx (b : Byte)
  | image (bytes : List Byte)
  | call (i : Instr)
deriving DecidableEq, Repr

/-- One turn of the script: who moves next (R17, log 1). -/
inductive Turn where
  /-- this transaction is presented to the machine -/
  | issue (p : Packet)
  /-- the host operation that is pending under this number goes on (R33 (3), R197, R204) -/
  | resume (ticket : Nat)
deriving DecidableEq, Repr

end Sys2Proof
end

