-- ==== Sys2Proof/WellFormed.lean ====
section
/-!
DEFINITION. The checks on an instruction's operands: that they are the ones its row of the opcode table is selected by.
Conditions on the state (R160, R161) are no part of it.
-/

namespace Sys2Proof

/-- Whether `flags`, `length` and `payload` pass the field checks of R115 for this command. -/
def fieldsFit (p : Params) (command flags length : Nat) (payload : List Byte) : Bool :=
  let limit := if command = p.cmdMessage.toNat then 65535 else 255
  decide (flags ≤ limit) && decide (length ≤ limit) && (decide (length = 0) || decide (payload.length = length))

/-- The first byte selects the 6-byte header. -/
def startsMessage (p : Params) (raw : List Byte) : Bool :=
  raw.head? == some p.cmdMessage

/-- The first byte is a sync code. -/
def startsSync (p : Params) (raw : List Byte) : Bool :=
  raw.head? == some p.cmdSyncAnswer || raw.head? == some p.cmdSync

/-- The header length that the first byte implies (R85). -/
def headerNeed (p : Params) (raw : List Byte) : Nat :=
  if startsMessage p raw then p.hlenLong else p.hlenShort

/-- The first bytes that have a class of their own (R87). -/
def specialBytes (p : Params) : List Byte :=
  [0x00, p.cmdMessage, p.cmdSyncAnswer, p.cmdSync, p.cmdError]

/-- The operands are those that select this row (R87, R88, R110, R130, R161). -/
def Instr.wf (p : Params) : Instr → Bool
  | .byteZero => true
  | .byteMessage => true
  | .byteSyncAnswer => true
  | .byteSync => true
  | .byteError => true
  | .byteCtrl c =>
    let b : Byte := 0#1 ++ c
    !(specialBytes p).contains b
  | .byteCtrlAck c =>
    let b : Byte := 1#1 ++ c
    !(specialBytes p).contains b
  | .encSync _ _ _ => true
  | .encCtrl command flags length payload =>
    command != p.cmdSync.toNat && p.inRange command && command != p.cmdMessage.toNat
      && fieldsFit p command flags length payload
  | .encMsg flags length payload => fieldsFit p p.cmdMessage.toNat flags length payload
  | .encBadCommand command _ _ _ => command != p.cmdSync.toNat && !p.inRange command
  | .encBadField command flags length payload =>
    command != p.cmdSync.toNat && p.inRange command && !fieldsFit p command flags length payload
  | .seqClr => true
  | .decEmpty => true
  | .decZeroStart raw => raw.head? == some 0
  | .decShort raw => raw != [] && raw.head? != some 0 && decide (raw.length < headerNeed p raw)
  | .decFs raw => startsSync p raw && decide (p.hlenShort ≤ raw.length)
  | .decF4 raw =>
    raw != [] && raw.head? != some 0 && !startsMessage p raw && !startsSync p raw
      && decide (p.hlenShort ≤ raw.length)
  | .decF6 raw => startsMessage p raw && decide (p.hlenLong + p.bodyPrefix ≤ raw.length)
  | .decBodyShort raw =>
    startsMessage p raw && decide (p.hlenLong ≤ raw.length)
      && decide (raw.length < p.hlenLong + p.bodyPrefix)
  | .wr _ => true
  | .popc _ => true
  | .popm _ => true
  | .stop => true
  | .status => true
  | .rst => true
  | .rxArm => true
  | .rxStopChk => true
  | .rxIdle => true
  | .rxErr => true
  | .rxSkip0 => true
  | .rxFirst b => b != 0
  | .rxHdr _ => true
  | .rxLen4 _ => true
  | .rxLenSync _ => true
  | .rxLen6 _ => true
  | .rxPay _ => true
  | .rxComplete => true
  | .push => true
  | .xchg _ _ _ _ => true
  | .sync => true
  | .deviceOpen => true
  | .deviceClose => true
  | .setBitrate _ => true
  | .setMode _ => true
  | .setFilter _ _ => true
  | .channelOpen => true
  | .channelClose => true
  | .setBitrateFromRegister _ => true
  | .construct _ => true
  | .shutdown => true
  | .send _ => true
  | .recv _ => true

end Sys2Proof
end

