-- ==== Sys2Proof/Decode.lean ====
section
/-!
DEFINITION. The decoder, total: every packet presents an instruction, since the rows of each dispatch part its arguments
(R87, R110, R130) and a rejected call is a row too; and the encoder, written from the same tables (R81 to R83, R87, R88,
R92).
-/

namespace Sys2Proof

open Sys2Proof.Machine

/-- The first-byte map of R87, rows tried top to bottom. -/
def classOf (p : Params) (b : Byte) : Instr :=
  if b = 0 then .byteZero
  else if b = p.cmdMessage then .byteMessage
  else if b = p.cmdSyncAnswer then .byteSyncAnswer
  else if b = p.cmdSync then .byteSync
  else if b = p.cmdError then .byteError
  else if b.getLsbD 7 then .byteCtrlAck (b.setWidth 7)
  else .byteCtrl (b.setWidth 7)

/-- The ENC row that the arguments of a call select: the cases of R110, tried in its order. -/
def encRow (p : Params) (command flags length : Nat) (payload : List Byte) : Instr :=
  if command = p.cmdSync.toNat then .encSync flags length payload
  else if !p.inRange command then .encBadCommand command flags length payload
  else if !fieldsFit p command flags length payload then .encBadField command flags length payload
  else if command = p.cmdMessage.toNat then .encMsg flags length payload
  else .encCtrl command flags length payload

/-- The DEC row that the argument of a call selects: the cases of R130, tried in its order. -/
def decRow (p : Params) (raw : List Byte) : Instr :=
  if raw = [] then .decEmpty
  else if raw.head? = some 0x00 then .decZeroStart raw
  else if raw.length < headerNeed p raw then .decShort raw
  else if startsSync p raw then .decFs raw
  else if startsMessage p raw then
    (if raw.length < p.hlenLong + p.bodyPrefix then .decBodyShort raw else .decF6 raw)
  else .decF4 raw

/-- The row that a call's own arguments select (R87, R110, R130, R161): an operation presented under the name of another
row of its dispatch is the row that the dispatch comes to. -/
def selectRow (p : Params) (i : Instr) : Instr :=
  match i with
  | .byteCtrl c => classOf p (0#1 ++ c)
  | .byteCtrlAck c => classOf p (1#1 ++ c)
  | .encCtrl command flags length payload => encRow p command flags length payload
  | .encMsg flags length payload => encRow p p.cmdMessage.toNat flags length payload
  | .encBadCommand command flags length payload => encRow p command flags length payload
  | .encBadField command flags length payload => encRow p command flags length payload
  | .decZeroStart raw => decRow p raw
  | .decShort raw => decRow p raw
  | .decFs raw => decRow p raw
  | .decF4 raw => decRow p raw
  | .decF6 raw => decRow p raw
  | .decBodyShort raw => decRow p raw
  | .rxFirst b => if b = 0x00 then .rxSkip0 else .rxFirst b
  | i => i

/-- Byte `i` of an image; a header byte that the image lacks is 0, as the arguments that R110 defaults. -/
def imageByte (bytes : List Byte) (i : Nat) : Byte :=
  bytes.getD i 0x00

/-- The `flags` and `length` arguments in an image's header, and where its payload starts (R58, R81, R82). -/
def imageFields (p : Params) (bytes : List Byte) : Nat × Nat × Nat :=
  let at' i := (imageByte bytes i).toNat
  if imageByte bytes 0 = p.cmdMessage then (at' 2 + 256 * at' 3, at' 4 + 256 * at' 5, 6) else (at' 2, at' 3, 4)

/-- An image, read as the ENC call whose arguments are its header fields and the bytes behind them (R81 to R83, R92 (2)).
Byte 1, the sequence tag, is no argument of ENC and is read over (log 4). The canonical sync frame is the ENC call without
arguments; an image of no frame that the encoder emits is the call all the same, which R110 accepts or rejects (log 2). -/
def decodeImage (p : Params) (bytes : List Byte) : Instr :=
  if bytes = syncFrame p then .encSync 0 0 []
  else
    let (flags, length, start) := imageFields p bytes
    encRow p (imageByte bytes 0).toNat flags length (bytes.drop start)

/-- The instruction that a packet presents. -/
def decode (p : Params) : Packet → Instr
  | .rx b => classOf p b
  | .image bytes => decodeImage p bytes
  | .call i => selectRow p i

/-- The packet that presents an instruction; `seq` is the sequence tag that an image carries (`SEQ_TX` when the engine
itself emits it, R112, R113). ENC calls whose arguments the emitted frame does not show (ignored or rejected ones)
and the rows without an encoding are presented as calls. -/
def encode (p : Params) (seq : BitVec 8) (i : Instr) : Packet :=
  match i with
  | .byteZero => .rx 0x00
  | .byteMessage => .rx p.cmdMessage
  | .byteSyncAnswer => .rx p.cmdSyncAnswer
  | .byteSync => .rx p.cmdSync
  | .byteError => .rx p.cmdError
  | .byteCtrl c => .rx (0#1 ++ c)
  | .byteCtrlAck c => .rx (1#1 ++ c)
  | .encSync flags length payload =>
    if flags = 0 ∧ length = 0 ∧ payload = [] then .image (syncFrame p) else .call i
  | .encCtrl command flags length payload =>
    if length = 0 ∧ payload ≠ [] then .call i
    else .image (withPayload (headerF4 command seq flags length) length payload)
  | .encMsg flags length payload =>
    if length = 0 ∧ payload ≠ [] then .call i
    else .image (withPayload (headerF6 p seq flags length) length payload)
  | i => .call i

/-- The `n` bytes of a number written most significant byte first. -/
def bigEndianBytes : Nat → Nat → List Byte
  | 0, _ => []
  | n + 1, w => BitVec.ofNat 8 (w / 256 ^ n) :: bigEndianBytes n (w % 256 ^ n)

/-- A row's bits as a packet. The table writes a row's bits as one string, byte 0 first, each byte most significant bit
first (R92), and numbers the string's last bit 0: so byte 0 is the most significant byte of `w` (log 3). A row of
8 bits is a byte on the channel; a longer row is an image, followed by as many zero bytes as its header declares. -/
def packetOfWord (p : Params) (nbits w : Nat) : Packet :=
  if nbits = 8 then .rx (BitVec.ofNat 8 w)
  else
    let header := bigEndianBytes (nbits / 8) w
    .image (header ++ List.replicate (if header = syncFrame p then 0 else (imageFields p header).2.1) 0x00)

end Sys2Proof

/-- The instruction that the decoder reads from a row's bits (under the default parameters). -/
def Sys2Proof.decodeTableWord (nbits w : Nat) : Option Sys2Proof.Instr :=
  some (Sys2Proof.decode Sys2Proof.Params.default (Sys2Proof.packetOfWord Sys2Proof.Params.default nbits w))
end

