-- ==== Sys2Proof/Machine/Flags.lean ====
section
/-!
DEFINITION. The four derived per-frame bits (R30), functions of a frame's bytes alone.
-/

namespace Sys2Proof.Machine

/-- The answer bit carries meaning: the raw command byte is neither a sync code nor the generic error command (R134). -/
def answerBitMeaningful (p : Params) (b : Byte) : Bool :=
  !(isSyncCode p b || b == p.cmdError)

/-- `isPositiveAnswer` (R134): bit 7 of the raw command byte where it is meaningful, else 0; under a mask `ANSWER_BIT` of
several bits, that any of them is set (DESIGN CHOICE, log 33). -/
def isPositiveAnswer (p : Params) (b : Byte) : Bool :=
  answerBitMeaningful p b && (b &&& p.answerBit != 0)

/-- The exposed `command` (R134): the answer bit masked off where it is meaningful; of a mask of several bits, all of them
(DESIGN CHOICE, log 33). -/
def exposedCommand (p : Params) (b : Byte) : Byte :=
  if answerBitMeaningful p b then b &&& ~~~p.answerBit else b

/-- `isSyncOk` (R135): the bytes are exactly the canonical sync answer. -/
def isSyncOk (p : Params) (raw : List Byte) : Bool :=
  raw == syncAnswerFrame p

/-- `lenMismatch` (R136): the number of payload bytes present is not the header's length field. -/
def lenMismatch (payload : List Byte) (dataLength : Nat) : Bool :=
  payload.length != dataLength

/-- `isErrorFrame` (R139): the DLC is not the number of data bytes present. -/
def isErrorFrame (dlc : Nat) (data : List Byte) : Bool :=
  dlc != data.length

end Sys2Proof.Machine
end

