-- ==== Sys2Proof/Machine/State.lean ====
section
/-!
DEFINITION. The state of the machine as plain data: the engine (R20), the channel (R36), the host's side (R33 (3), R37,
R231), the trace (R38), the parameter record (R8) and the script of turns (R17, R90); the reasons a step can stop.
-/

namespace Sys2Proof.Machine

open Sys2Proof

/-- The two receive queues (R27, R28). -/
inductive QueueId where
  | control
  | message
deriving DecidableEq, Repr

/-- Every condition that the engine itself raises or records (R271): exactly the causes of that table. The first
eight are errors of host operations; the others are recorded in the state, the trace or a result. -/
inductive Cause where
  | badCommand (command : Nat)
  /-- which of the three tests of R115 failed -/
  | badField (flags length payload : Bool)
  | emptyInput
  | zeroStart
  | short (size need : Nat)
  | bodyShort (size : Nat)
  | ioWrite
  | ioClose
  | readFatal
  | drop (q : QueueId)
  | lenWarn
  | integrityWarn
deriving DecidableEq, Repr

/-- The host-level errors (R233, R279), with `engine c` for an engine error surfaced by a pseudo-operation. -/
inductive HostError where
  | engine (c : Cause)
  | timeout
  | commandMismatch
  | negativeAnswer
  | syncFail
  /-- lists the valid set (R224) -/
  | invalidBitrate (valid : List Nat)
  | invalidMode
  | bitrateAndBtr
  | unimplemented
  | initError (e : HostError)
deriving DecidableEq, Repr

/-- The document's class of an error (R270, R279). -/
inductive ErrorClass where
  | initialization
  | protocol
  /-- a warning: logged, nothing is raised (R277) -/
  | integrity
  | transport
  | unclassed
deriving DecidableEq, Repr

/-- The body of a MESSAGE frame as DEC returns it (R130, R138). -/
structure Body where
  w0 : BitVec 32
  w1 : BitVec 32
  w2 : BitVec 32
  w3 : BitVec 32
  dlc : BitVec 16
  data : List Byte
  isErrorFrame : Bool
deriving DecidableEq, Repr

/-- DEC's record (R130). -/
structure Decoded where
  raw0 : Byte
  command : Byte
  isPositiveAnswer : Bool
  sequence : Byte
  flags : BitVec 16
  dataLength : BitVec 16
  payload : List Byte
  isSyncOk : Bool
  lenMismatch : Bool
  body : Option Body
deriving DecidableEq, Repr

/-- STATUS's snapshot (R32). -/
structure Snapshot where
  run : Bool
  stopReq : Bool
  fatal : Bool
  portOpen : Bool
  seqTx : BitVec 8
  cnt : Nat
  cqLen : Nat
  mqLen : Nat
  dropC : Nat
  dropM : Nat
  lenWarn : Nat
deriving DecidableEq, Repr

/-- What recv returns of a received CAN frame (R251): the frame, its DLC, the integrity flag, and the two words of
the body that are no part of the frame. -/
structure Received where
  frame : CanFrame
  dlc : BitVec 16
  isErrorFrame : Bool
  timestamp : BitVec 32
  fourth : BitVec 32
deriving DecidableEq, Repr

/-- The results that the HOST interface returns (R37, R90). -/
inductive Value where
  | ok
  | bytes (frame : List Byte)
  | frame (f : Frame)
  /-- None: a pop gave up (R197) -/
  | noFrame
  | record (d : Decoded)
  | snapshot (s : Snapshot)
  | received (r : Option Received) (filtered : Bool)
  /-- the operation is pending (R33 (3)) -/
  | pending
  | error (e : HostError)
deriving DecidableEq, Repr

/-- The last result handed over, and the host operation it belongs to (log 29). -/
structure Reply where
  ticket : Nat
  value : Value
deriving DecidableEq, Repr

/-- The phases of a session (R231); `failed` is the session that "is never usable" (log 23). -/
inductive Phase where
  | unsynced
  | synced
  | deviceOpen
  | configured
  | channelOpen
  | running
  | channelClosed
  | portClosed
  | failed
deriving DecidableEq, Repr

/-- The session state that the host software holds (R231). -/
structure Session where
  synchronized : Bool
  deviceOpen : Bool
  channelOpen : Bool
  bitrate : Option Nat
  btr : Option Nat
  mode : Mode
  phase : Phase
deriving DecidableEq, Repr

/-- What a pseudo-operation writes into the session (R222 to R231). -/
inductive SessionUpdate where
  | begin
  | synced
  | deviceOpened
  | deviceClosed
  | bitrate (bps : Nat)
  | mode (m : Mode)
  | configured
  | channelOpened
  | running
  | channelClosed
  | portClosed
  | failed
  /-- the transition from `source` has failed (R231) -/
  | failedFrom (source : Phase)
deriving DecidableEq, Repr

/-- One piece of a host operation in progress. The pieces up to `fail` are host operations, each one atomic step; the
last four are host software's own and run together with the piece before them (log 27). -/
inductive Act where
  | enc (command flags length : Nat) (payload : List Byte)
  | wr
  | pop (q : QueueId) (timeout : Nat)
  /-- R221 steps 4 to 8 -/
  | answer (command : Nat)
  /-- R222 steps 3 (None) to 5 -/
  | syncAnswer
  | seqClr
  /-- both phases of STOP (R203, R204) -/
  | stop
  | rst
  /-- R251 steps 1 (None) to 4 -/
  | received
  | fail (e : HostError)
  | session (u : SessionUpdate)
  /-- the popped frame, or None, is the result (R197) -/
  | deliver
  /-- the operation's result is ok -/
  | succeed
  /-- from here on an error closes the port all the same (R205 (a), R230) -/
  | closing
deriving DecidableEq, Repr

/-- The states of the framer's state machine (R25). -/
inductive FsmState where
  | awaitFirstByte
  | awaitHeader (len : Nat)
  | awaitPayload (total : Nat)
  | complete
deriving DecidableEq, Repr

/-- What the host software does when a piece of the operation fails. -/
inductive Handler where
  /-- the error is the result -/
  | surface
  /-- the operation drives the session's transition from `source`: the error is the result, and a session in that phase is
  never usable (R231) -/
  | transition (source : Phase)
  /-- channelClose: the channel counts as closed all the same (R227) -/
  | closeChannel
  /-- shutdown, line 1: the error is ignored and STOP follows (R230) -/
  | shutdown
  /-- shutdown, line 2: the port counts as closed all the same (R205 (a)) -/
  | closePort
  /-- construct: an initialization error; the session is unusable (R229) -/
  | init
deriving DecidableEq, Repr

/-- A host operation in progress: what is left of it, and what it has obtained so far. -/
structure Task where
  ticket : Nat
  acts : List Act
  handler : Handler
  /-- the frame ENC returned -/
  raw : List Byte
  /-- the frame the last pop returned, or None -/
  got : Option Frame
  /-- the first piece has begun to wait (R197 (b), R203) -/
  waiting : Bool
  value : Value
deriving DecidableEq, Repr

/-- A record of TRACE (R38, R177, R178, R194, R251). -/
inductive TraceRec where
  | rx (f : Frame)
  | tx (raw : List Byte)
  | warning (c : Cause) (f : Frame)
deriving DecidableEq, Repr

/-- The engine's state: exactly the elements of the table of R20. -/
structure Engine where
  acc : List Byte
  cnt : Nat
  hlen : Nat
  total : Nat
  seqTx : BitVec 8
  cq : List Frame
  mq : List Frame
  run : Bool
  stopReq : Bool
  fatal : Bool
  portOpen : Bool
  dropC : Nat
  dropM : Nat
  lenWarn : Nat
  inflight : Bool
deriving DecidableEq, Repr

/-- The channel: the two streams so far (R36, R50) and the environment's coming answers (log 13). -/
structure Channel where
  txStream : List Byte
  rxStream : List Byte
  wrAnswers : List WrAnswer
  closeAnswers : List Bool
deriving DecidableEq, Repr

/-- The host's side: operations in progress, the session, the last result (R33 (3), R37, R231). -/
structure HostSide where
  tasks : List Task
  session : Session
  reply : Option Reply
  nextTicket : Nat
deriving DecidableEq, Repr

/-- The machine. -/
structure State where
  /-- the parameter record, an argument of the model (R8, R34 (1)) -/
  par : Params
  eng : Engine
  ch : Channel
  host : HostSide
  /-- TRACE, written only (R38) -/
  trace : List TraceRec
  /-- the frame between lines 1 and 5 of RX.COMPLETE (R173, log 18) -/
  detached : Option Frame
  /-- the turns to come (log 1) -/
  script : List Turn
  /-- the next free value (log 12) -/
  fresh : Nat
deriving DecidableEq, Repr

/-- Why the machine stops with a fault. -/
inductive Fault where
  /-- Raised by `step`: the parameter record breaks R9, so the spec defines nothing (R333, U17). Safe: no claim about such a
  record can be proved from it. -/
  | badParameters
deriving DecidableEq, Repr

/-- Why a step is refused. -/
inductive Refusal where
  /-- Raised by an arm of `exec` for an instruction that has no meaning yet. Safe. -/
  | notModelled (mnemonic : String)
deriving DecidableEq, Repr

/-- A session that has not begun (R231; the mode is DESIGN CHOICE, log 23). -/
def Session.fresh : Session where
  synchronized := false
  deviceOpen := false
  channelOpen := false
  bitrate := none
  btr := none
  mode := .normal
  phase := .unsynced

/-- The engine after reset (R39). `HLEN` and `TOTAL` are unspecified there: DESIGN CHOICE, log 10. -/
def Engine.reset : Engine where
  acc := []
  cnt := 0
  hlen := 0
  total := 0
  seqTx := 0
  cq := []
  mq := []
  run := true
  stopReq := false
  fatal := false
  portOpen := true
  dropC := 0
  dropM := 0
  lenWarn := 0
  inflight := false

/-- The machine right after reset (R39, R310), with the defaults of R8 and no turn to come (log 1, log 7, log 12). -/
def State.reset : State where
  par := Params.default
  eng := Engine.reset
  ch := { txStream := [], rxStream := [], wrAnswers := [], closeAnswers := [] }
  host := { tasks := [], session := Session.fresh, reply := none, nextTicket := 0 }
  trace := []
  detached := none
  script := []
  fresh := 0

end Sys2Proof.Machine
end

