-- ==== Sys2Proof/Machine/Ops.lean ====
section
/-!
DEFINITION. The named operations over the state: results and errors of host operations, the channel's transactions, the
queues and the multiplexer, reset.
-/

namespace Sys2Proof.Machine

open Sys2Proof

/-- What a meaning answers. -/
abbrev Result := Host.Outcome State Fault Refusal

/-! ### Results and errors -/

/-- The result `v` is handed to the host thread whose operation has this number (R37). -/
def giveResult (ticket : Nat) (v : Value) (s : State) : State :=
  { s with host.reply := some { ticket := ticket, value := v } }

/-- Raising an error (R13, R284): the error is the operation's result and control is its caller's. Nothing else is
saved or written: there is no cause register, no mode and no vector. There is no return from it (R285). -/
def raiseError (ticket : Nat) (e : HostError) (s : State) : State :=
  giveResult ticket (.error e) s

/-- A host operation that completes in the step that issues it: it takes the next number. -/
def nextTicket (s : State) : State :=
  { s with host.nextTicket := s.host.nextTicket + 1 }

/-- Such an operation returns `v`. -/
def hostReturn (v : Value) (s : State) : State :=
  giveResult s.host.nextTicket v (nextTicket s)

/-- Such an operation raises an engine error. -/
def hostRaise (c : Cause) (s : State) : State :=
  raiseError s.host.nextTicket (.engine c) (nextTicket s)

/-- The document's class of a condition of the engine (R270 to R277): EncodeError is classed nowhere (R273), a drop is
counted and no error (R276), and the two length mismatches are integrity warnings. Log 31. -/
def causeClass : Cause → ErrorClass
  | .badCommand _ => .unclassed
  | .badField _ _ _ => .unclassed
  | .emptyInput => .protocol
  | .zeroStart => .protocol
  | .short _ _ => .protocol
  | .bodyShort _ => .protocol
  | .ioWrite => .transport
  | .ioClose => .transport
  | .readFatal => .transport
  | .drop _ => .unclassed
  | .lenWarn => .integrity
  | .integrityWarn => .integrity

/-- The class of a host-level error (R279). -/
def errorClass : HostError → ErrorClass
  | .engine c => causeClass c
  | .timeout => .protocol
  | .commandMismatch => .protocol
  | .negativeAnswer => .protocol
  | .syncFail => .initialization
  | .invalidBitrate _ => .initialization
  | .invalidMode => .initialization
  | .bitrateAndBtr => .initialization
  | .unimplemented => .unclassed
  | .initError _ => .initialization

/-! ### The trace -/

/-- One record is appended to TRACE (R38). -/
def emit (r : TraceRec) (s : State) : State :=
  { s with trace := s.trace ++ [r] }

/-! ### The channel's transactions (R36) -/

/-- The environment's answer to the next write and flush: the next listed one, else a free value (log 13). -/
def nextWrAnswer (s : State) : WrAnswer :=
  match s.ch.wrAnswers with
  | a :: _ => a
  | [] => Config.freeWrAnswer s.fresh

/-- That answer is used up. -/
def dropWrAnswer (s : State) : State :=
  match s.ch.wrAnswers with
  | _ :: rest => { s with ch.wrAnswers := rest }
  | [] => { s with fresh := s.fresh + 1 }

/-- Bytes reach the TX stream, in order and contiguous (R36, R57 (4)). -/
def transmit (bytes : List Byte) (s : State) : State :=
  { s with ch.txStream := s.ch.txStream ++ bytes }

/-- WR (R190, R191): the error if there is one, and the state afterwards. -/
def writeFlush (raw : List Byte) (s : State) : Option Cause × State :=
  if s.eng.portOpen then
    match nextWrAnswer s with
    | .ok => (none, emit (.tx raw) (transmit raw (dropWrAnswer s)))
    | .writeError n => (some .ioWrite, transmit (raw.take n) (dropWrAnswer s))
    | .flushError n => (some .ioWrite, transmit (raw.take n) (dropWrAnswer s))
  else (some .ioWrite, s)

/-- Whether the environment's next close succeeds: as listed, else a free value (log 13). -/
def nextCloseOk (s : State) : Bool :=
  match s.ch.closeAnswers with
  | a :: _ => a
  | [] => Config.freeCloseOk s.fresh

/-- That answer is used up. -/
def dropCloseAnswer (s : State) : State :=
  match s.ch.closeAnswers with
  | _ :: rest => { s with ch.closeAnswers := rest }
  | [] => { s with fresh := s.fresh + 1 }

/-- STOP phase 2 once `RUN = 0` (R204, R205 (a), (c)): `PORT_OPEN` is cleared before the close is attempted. -/
def closePort (s : State) : Option Cause × State :=
  if s.eng.portOpen then
    (if nextCloseOk s then none else some .ioClose,
      dropCloseAnswer { s with eng.portOpen := false })
  else (none, s)

/-! ### The queues and the multiplexer -/

/-- PUSH (R193 to R196): routed by the raw first byte; when the queue is full the arriving frame is lost and counted. -/
def pushFrame (f : Frame) (s : State) : State :=
  if byteAt f 0 = s.par.cmdMessage then
    if s.eng.mq.length < s.par.mqDepth then { s with eng.mq := s.eng.mq ++ [f] }
    else emit (.warning (.drop .message) f) { s with eng.dropM := s.eng.dropM + 1 }
  else
    if s.eng.cq.length < s.par.cqDepth then { s with eng.cq := s.eng.cq ++ [f] }
    else emit (.warning (.drop .control) f) { s with eng.dropC := s.eng.dropC + 1 }

/-- PUSH of the frame that RX.COMPLETE has detached (R173 line 5). -/
def pushDetached (s : State) : State :=
  match s.detached with
  | some f => pushFrame f { s with detached := none }
  | none => s

/-- The frames of a queue, head first. -/
def queueOf (q : QueueId) (s : State) : List Frame :=
  match q with
  | .control => s.eng.cq
  | .message => s.eng.mq

/-- A queue's frames are replaced. -/
def setQueue (q : QueueId) (frames : List Frame) (s : State) : State :=
  match q with
  | .control => { s with eng.cq := frames }
  | .message => { s with eng.mq := frames }

/-- The head of a queue and the state without it (R197 (a), (b1)); none when the queue is empty. -/
def popQueue (q : QueueId) (s : State) : Option (Frame × State) :=
  match queueOf q s with
  | f :: rest => some (f, setQueue q rest s)
  | [] => none

/-! ### The sequence counter, the status view, reset -/

/-- SEQCLR (R116). -/
def clearSeq (s : State) : State :=
  { s with eng.seqTx := 0 }

/-- STATUS's snapshot (R32). -/
def snapshot (s : State) : Snapshot where
  run := s.eng.run
  stopReq := s.eng.stopReq
  fatal := s.eng.fatal
  portOpen := s.eng.portOpen
  seqTx := s.eng.seqTx
  cnt := s.eng.cnt
  cqLen := s.eng.cq.length
  mqLen := s.eng.mq.length
  dropC := s.eng.dropC
  dropM := s.eng.dropM
  lenWarn := s.eng.lenWarn

/-- RST (R310): the engine as R39 has it, `HLEN` and `TOTAL` free (log 10). The streams (R312), the host's side and the
environment's coming answers stay (log 17). -/
def resetEngine (s : State) : State :=
  { s with
    eng :=
      { acc := [], cnt := 0, hlen := Config.freeLength s.fresh, total := Config.freeLength (s.fresh + 1),
        seqTx := 0, cq := [], mq := [], run := true, stopReq := false, fatal := false, portOpen := true,
        dropC := 0, dropM := 0, lenWarn := 0, inflight := false }
    detached := none
    fresh := s.fresh + 2 }

end Sys2Proof.Machine
end

