-- ==== Sys2Proof/Machine/Codec.lean ====
section
/-!
DEFINITION. The frame codec: ENC (R110 to R118), SEQCLR (R116) and DEC (R130 to R143), and the meanings of their rows.
-/

namespace Sys2Proof.Machine

open Sys2Proof

/-! ### ENC -/

/-- The limit of `flags` and `length` (R115). -/
def fieldLimit (p : Params) (command : Nat) : Nat :=
  if command = p.cmdMessage.toNat then 65535 else 255

/-- EncodeError(BadField) with the tests that failed, or none (R115). -/
def fieldError (p : Params) (command flags length : Nat) (payload : List Byte) : Option Cause :=
  let badFlags := decide (flags > fieldLimit p command)
  let badLength := decide (length > fieldLimit p command)
  let badPayload := decide (length > 0) && decide (payload.length ≠ length)
  if badFlags || badLength || badPayload then some (.badField badFlags badLength badPayload) else none

/-- ENC.SYNC: the frame and the next `SEQ_TX` (R111). -/
def encSyncRow (p : Params) : List Byte × BitVec 8 :=
  (syncFrame p, 0)

/-- ENC.CTRL: the frame and the next `SEQ_TX` (R112). -/
def encCtrlRow (seq : BitVec 8) (command flags length : Nat) (payload : List Byte) : List Byte × BitVec 8 :=
  (withPayload (headerF4 command seq flags length) length payload, seq + 1)

/-- ENC.MSG: the frame and the next `SEQ_TX` (R113). -/
def encMsgRow (p : Params) (seq : BitVec 8) (flags length : Nat) (payload : List Byte) : List Byte × BitVec 8 :=
  (withPayload (headerF6 p seq flags length) length payload, seq + 1)

/-- ENC's dispatch (R110), the cases tried in its order. -/
def encodeFrame (p : Params) (seq : BitVec 8) (command flags length : Nat) (payload : List Byte) :
    Except Cause (List Byte × BitVec 8) :=
  if command = p.cmdSync.toNat then .ok (encSyncRow p)
  else if !p.inRange command then .error (.badCommand command)
  else
    match fieldError p command flags length payload with
    | some c => .error c
    | none =>
      if command = p.cmdMessage.toNat then .ok (encMsgRow p seq flags length payload)
      else .ok (encCtrlRow seq command flags length payload)

/-- A host thread's ENC call (R110): the frame is returned and `SEQ_TX` written, or an error raised and nothing written
(R114, R115, R273). -/
def hostEnc (command flags length : Nat) (payload : List Byte) (s : State) : State :=
  match encodeFrame s.par s.eng.seqTx command flags length payload with
  | .ok (bytes, seq) => hostReturn (.bytes bytes) { s with eng.seqTx := seq }
  | .error c => hostRaise c s

/-- ENC.SYNC (R111). -/
def execEncSync (flags length : Nat) (payload : List Byte) (s : State) : Result :=
  .next (hostEnc s.par.cmdSync.toNat flags length payload s)

/-- ENC.CTRL (R112). -/
def execEncCtrl (command flags length : Nat) (payload : List Byte) (s : State) : Result :=
  .next (hostEnc command flags length payload s)

/-- ENC.MSG (R113). -/
def execEncMsg (flags length : Nat) (payload : List Byte) (s : State) : Result :=
  .next (hostEnc s.par.cmdMessage.toNat flags length payload s)

/-- ENC.BADCOMMAND: the ENC call that R114 rejects. -/
def execEncBadCommand (command flags length : Nat) (payload : List Byte) (s : State) : Result :=
  .next (hostEnc command flags length payload s)

/-- ENC.BADFIELD: the ENC call that R115 rejects. -/
def execEncBadField (command flags length : Nat) (payload : List Byte) (s : State) : Result :=
  .next (hostEnc command flags length payload s)

/-- SEQCLR (R116). -/
def execSeqClr (s : State) : Result :=
  .next (hostReturn .ok (clearSeq s))

/-! ### DEC -/

/-- `DecodeBody` (R138), with the integrity flag of R139. -/
def decodeBody (p : Params) (payload : List Byte) : Body :=
  let dlc := memRead payload p.bodyDlcOff 2
  let data := payload.drop p.bodyPrefix
  { w0 := BitVec.ofNat 32 (memRead payload 0 4)
    w1 := BitVec.ofNat 32 (memRead payload 4 4)
    w2 := BitVec.ofNat 32 (memRead payload 8 4)
    w3 := BitVec.ofNat 32 (memRead payload 12 4)
    dlc := BitVec.ofNat 16 dlc
    data := data
    isErrorFrame := isErrorFrame dlc data }

/-- DEC.FS (R132). -/
def decFsRow (p : Params) (raw : List Byte) : Decoded :=
  let payload := raw.drop p.hlenShort
  { raw0 := byteAt raw 0
    command := exposedCommand p (byteAt raw 0)
    isPositiveAnswer := isPositiveAnswer p (byteAt raw 0)
    sequence := byteAt raw 1
    flags := BitVec.ofNat 16 (memRead raw 2 1)
    dataLength := 0
    payload := payload
    isSyncOk := isSyncOk p raw
    lenMismatch := lenMismatch payload 0
    body := none }

/-- DEC.F4 (R133). -/
def decF4Row (p : Params) (raw : List Byte) : Decoded :=
  let payload := raw.drop p.hlenShort
  let dataLength := memRead raw 3 1
  { raw0 := byteAt raw 0
    command := exposedCommand p (byteAt raw 0)
    isPositiveAnswer := isPositiveAnswer p (byteAt raw 0)
    sequence := byteAt raw 1
    flags := BitVec.ofNat 16 (memRead raw 2 1)
    dataLength := BitVec.ofNat 16 dataLength
    payload := payload
    isSyncOk := false
    lenMismatch := lenMismatch payload dataLength
    body := none }

/-- DEC.F6 (R137), or ParseError(BodyShort) when the payload cannot hold a body's prefix (R140). -/
def decF6Row (p : Params) (raw : List Byte) : Except Cause Decoded :=
  let payload := raw.drop p.hlenLong
  let dataLength := memRead raw 4 2
  if payload.length < p.bodyPrefix then .error (.bodyShort payload.length)
  else
    .ok
      { raw0 := byteAt raw 0
        command := p.cmdMessage
        isPositiveAnswer := false
        sequence := byteAt raw 1
        flags := BitVec.ofNat 16 (memRead raw 2 2)
        dataLength := BitVec.ofNat 16 dataLength
        payload := payload
        isSyncOk := false
        lenMismatch := lenMismatch payload dataLength
        body := some (decodeBody p payload) }

/-- DEC's dispatch (R130, R131), the cases tried in its order. A function of the bytes alone. -/
def decodeFrame (p : Params) (raw : List Byte) : Except Cause Decoded :=
  if raw.length = 0 then .error .emptyInput
  else if byteAt raw 0 = 0x00 then .error .zeroStart
  else if raw.length < hlen p raw then .error (.short raw.length (hlen p raw))
  else if isSyncCode p (byteAt raw 0) then .ok (decFsRow p raw)
  else if byteAt raw 0 = p.cmdMessage then decF6Row p raw
  else .ok (decF4Row p raw)

/-- A host thread's DEC call: the record or the ParseError is its result; no engine state is read or written (R130, R272). -/
def hostDec (raw : List Byte) (s : State) : State :=
  match decodeFrame s.par raw with
  | .ok d => hostReturn (.record d) s
  | .error c => hostRaise c s

/-- DEC.EMPTY (R131). -/
def execDecEmpty (s : State) : Result :=
  .next (hostDec [] s)

/-- DEC.ZEROSTART (R131). -/
def execDecZeroStart (raw : List Byte) (s : State) : Result :=
  .next (hostDec raw s)

/-- DEC.SHORT (R131). -/
def execDecShort (raw : List Byte) (s : State) : Result :=
  .next (hostDec raw s)

/-- DEC.FS (R132). -/
def execDecFs (raw : List Byte) (s : State) : Result :=
  .next (hostDec raw s)

/-- DEC.F4 (R133). -/
def execDecF4 (raw : List Byte) (s : State) : Result :=
  .next (hostDec raw s)

/-- DEC.F6 (R137). -/
def execDecF6 (raw : List Byte) (s : State) : Result :=
  .next (hostDec raw s)

/-- DEC.BODYSHORT (R140). -/
def execDecBodyShort (raw : List Byte) (s : State) : Result :=
  .next (hostDec raw s)

end Sys2Proof.Machine
end

