-- ==== Sys2Proof/Machine/Tasks.lean ====
section
/-!
DEFINITION. Host operations in progress: what each piece of one does, how an operation begins, waits, goes on, ends and
fails (R33 (3), R197, R203, R204, R220 to R233).
-/

namespace Sys2Proof.Machine

open Sys2Proof

/-! ### The session -/

/-- The phase moves forward only from the one that R231's table names. -/
def stepPhase (source target : Phase) (now : Phase) : Phase :=
  if now = source then target else now

/-- What a pseudo-operation writes into the session (R222 to R231). -/
def updateSession (u : SessionUpdate) (x : Session) : Session :=
  match u with
  | .begin =>
    { synchronized := false, deviceOpen := false, channelOpen := false, bitrate := none, btr := none,
      mode := .normal, phase := .unsynced }
  | .synced => { x with synchronized := true, phase := stepPhase .unsynced .synced x.phase }
  | .deviceOpened => { x with deviceOpen := true, phase := stepPhase .synced .deviceOpen x.phase }
  | .deviceClosed => { x with deviceOpen := false }
  | .bitrate bps => { x with bitrate := some bps, btr := none }
  | .mode m => { x with mode := m }
  | .configured => { x with phase := stepPhase .deviceOpen .configured x.phase }
  | .channelOpened => { x with channelOpen := true, phase := stepPhase .configured .channelOpen x.phase }
  | .running => { x with phase := stepPhase .channelOpen .running x.phase }
  | .channelClosed =>
    { x with
      channelOpen := false
      phase := stepPhase .channelOpen .channelClosed (stepPhase .running .channelClosed x.phase) }
  | .portClosed => { x with phase := stepPhase .channelClosed .portClosed x.phase }
  | .failed => { x with phase := .failed }
  | .failedFrom source => { x with phase := stepPhase source .failed x.phase }

/-- The session after such a write. -/
def writeSession (u : SessionUpdate) (s : State) : State :=
  { s with host.session := updateSession u s.host.session }

/-! ### The list of operations in progress -/

/-- The pending operations other than this one. -/
def otherTasks (ticket : Nat) (tasks : List Task) : List Task :=
  tasks.filter (fun t => t.ticket != ticket)

/-- The operation stays pending. -/
def park (t : Task) (s : State) : State :=
  giveResult t.ticket .pending { s with host.tasks := otherTasks t.ticket s.host.tasks ++ [t] }

/-- The operation leaves the list of pending ones. -/
def retire (t : Task) (s : State) : State :=
  { s with host.tasks := otherTasks t.ticket s.host.tasks }

/-- The operation ends with its value as result. -/
def finish (t : Task) (s : State) : State :=
  giveResult t.ticket t.value (retire t s)

/-- The operation ends with an error as result. -/
def failTask (e : HostError) (t : Task) (s : State) : State :=
  raiseError t.ticket e (retire t s)

/-! ### One piece of an operation -/

/-- How one piece of a host operation ends. -/
inductive ActOut where
  | done (t : Task) (s : State)
  | wait (t : Task) (s : State)
  | fail (e : HostError) (s : State)

/-- ENC inside an operation (R221 line 1). -/
def actEnc (command flags length : Nat) (payload : List Byte) (t : Task) (s : State) : ActOut :=
  match encodeFrame s.par s.eng.seqTx command flags length payload with
  | .ok (bytes, seq) => .done { t with raw := bytes } { s with eng.seqTx := seq }
  | .error c => .fail (.engine c) s

/-- WR inside an operation (R221 line 2). -/
def actWr (t : Task) (s : State) : ActOut :=
  match writeFlush t.raw s with
  | (none, s') => .done t s'
  | (some c, s') => .fail (.engine c) s'

/-- POP (R197): the head at once; on an empty queue the operation waits, and when it goes on it takes the head if a push
has happened and else gives up. -/
def actPop (q : QueueId) (t : Task) (s : State) : ActOut :=
  match popQueue q s with
  | some (f, s') => .done { t with got := some f } s'
  | none => if t.waiting then .done { t with got := none } s else .wait { t with waiting := true } s

/-- The answer to a request, taken from the head of `CQ` (R221 lines 4 to 8). -/
def actAnswer (command : Nat) (t : Task) (s : State) : ActOut :=
  match t.got with
  | none => .fail .timeout s
  | some f =>
    match decodeFrame s.par f with
    | .error c => .fail (.engine c) s
    | .ok d =>
      if d.command.toNat ≠ command then .fail .commandMismatch s
      else if d.isPositiveAnswer then .done { t with value := .record d } s
      else .fail .negativeAnswer s

/-- The answer to the sync frame (R222 lines 3 to 5). -/
def actSyncAnswer (t : Task) (s : State) : ActOut :=
  match t.got with
  | none => .fail .timeout s
  | some f =>
    match decodeFrame s.par f with
    | .error c => .fail (.engine c) s
    | .ok d => if d.command = s.par.cmdSyncAnswer ∧ d.isSyncOk then .done t s else .fail .syncFail s

/-- STOP (R203, R204): phase 1 when the operation begins; phase 2 as soon as `RUN = 0`, else the operation waits. -/
def actStop (t : Task) (s : State) : ActOut :=
  let s1 := if t.waiting then s else { s with eng.stopReq := true }
  if s1.eng.run then .wait { t with waiting := true } s1
  else
    match closePort s1 with
    | (none, s2) => .done { t with value := .ok } s2
    | (some c, s2) => .fail (.engine c) s2

/-- The word of a body that has this meaning (R59, D18). -/
def wordOf (p : Params) (m : BodyWord) (b : Body) : BitVec 32 :=
  if p.word0 = m then b.w0
  else if p.word1 = m then b.w1
  else if p.word2 = m then b.w2
  else b.w3

/-- The CAN frame built from a body (R251 line 4), the words read by the layout that the parameters give (U2, U10). -/
def receivedOf (p : Params) (b : Body) : Received :=
  { frame :=
      { id := wordOf p .arbitrationId b
        extended := wordOf p .flagWord b &&& p.extendedMask != 0
        remote := wordOf p .flagWord b &&& p.remoteMask != 0
        data := b.data }
    dlc := b.dlc
    isErrorFrame := b.isErrorFrame
    timestamp := wordOf p .timestamp b
    fourth := wordOf p .fourth b }

/-- recv's second half (R251): None with `filtered` false; else DEC, the integrity warning, and the CAN frame with a free
`filtered` (log 26). -/
def actReceived (t : Task) (s : State) : ActOut :=
  match t.got with
  | none => .done { t with value := .received none false } s
  | some f =>
    match decodeFrame s.par f with
    | .error c => .fail (.engine c) s
    | .ok d =>
      match d.body with
      | none => .done { t with value := .received none (Config.freeFiltered s.fresh) } { s with fresh := s.fresh + 1 }
      | some b =>
        let s1 := if b.isErrorFrame then emit (.warning .integrityWarn f) s else s
        .done { t with value := .received (some (receivedOf s.par b)) (Config.freeFiltered s.fresh) }
          { s1 with fresh := s1.fresh + 1 }

/-- What the popped frame makes of the result (R197, R198, R199). -/
def popValue : Option Frame → Value
  | some f => .frame f
  | none => .noFrame

/-- One piece of a host operation. -/
def runAct (a : Act) (t : Task) (s : State) : ActOut :=
  match a with
  | .enc command flags length payload => actEnc command flags length payload t s
  | .wr => actWr t s
  | .pop q _ => actPop q t s
  | .answer command => actAnswer command t s
  | .syncAnswer => actSyncAnswer t s
  | .seqClr => .done t (clearSeq s)
  | .stop => actStop t s
  | .rst => .done t (resetEngine s)
  | .received => actReceived t s
  | .fail e => .fail e s
  | .session u => .done t (writeSession u s)
  | .deliver => .done { t with value := popValue t.got } s
  | .succeed => .done { t with value := .ok } s
  | .closing => .done { t with handler := .closePort } s

/-- The host software's own pieces run together with the one before them (log 27). -/
def runLocals : List Act → Task → State → Task × State
  | .session u :: rest, t, s => runLocals rest t (writeSession u s)
  | .deliver :: rest, t, s => runLocals rest { t with value := popValue t.got } s
  | .succeed :: rest, t, s => runLocals rest { t with value := .ok } s
  | .closing :: rest, t, s => runLocals rest { t with handler := .closePort } s
  | acts, t, s => ({ t with acts := acts, waiting := false }, s)

/-- A piece is done: the operation ends or stays pending with what is left. -/
def goOn (rest : List Act) (t : Task) (s : State) : State :=
  match runLocals rest t s with
  | (t', s') => if t'.acts = [] then finish t' s' else park t' s'

/-- A piece has failed: what the host software does (R205 (a), R227, R229, R230, R231). An operation that drives a transition
of the session and fails in that transition's source phase leaves the session never usable, on its own as in a construct
(R231); the error is still its caller's, who may issue the operation again (R221). What fails in another phase is no failed
transition (DESIGN CHOICE, log 23). -/
def handleError (e : HostError) (t : Task) (s : State) : State :=
  match t.handler with
  | .surface => failTask e t s
  | .transition source => failTask e t (writeSession (.failedFrom source) s)
  | .closeChannel => failTask e t (writeSession .channelClosed s)
  | .shutdown =>
    park { t with acts := [.stop, .session .portClosed], handler := .closePort, waiting := false }
      (writeSession .channelClosed s)
  | .closePort => failTask e t (writeSession .portClosed s)
  | .init => failTask (.initError e) t (writeSession .failed s)

/-- A host operation takes its next piece. -/
def advance (t : Task) (s : State) : State :=
  match t.acts with
  | [] => finish t s
  | a :: rest =>
    match runAct a t s with
    | .done t' s' => goOn rest t' s'
    | .wait t' s' => park t' s'
    | .fail e s' => handleError e t s'

/-- A host operation begins, and takes its first piece in the same step. -/
def beginTask (acts : List Act) (handler : Handler) (s : State) : State :=
  advance
    { ticket := s.host.nextTicket, acts := acts, handler := handler, raw := [], got := none, waiting := false, value := .ok }
    (nextTicket s)

/-- The host operation that is pending under this number goes on; when there is none, nothing happens. -/
def resumeTask (ticket : Nat) (s : State) : State :=
  match s.host.tasks.find? (fun t => t.ticket == ticket) with
  | some t => advance t s
  | none => s

end Sys2Proof.Machine
end

