-- ==== Sys2Proof/Machine/Control.lean ====
section
/-!
DEFINITION. The control pseudo-operations (R220 to R230): the sequence of pieces each expands into, and the meanings of
their rows.
-/

namespace Sys2Proof.Machine

open Sys2Proof

/-- XCHG (R221). -/
def xchgActs (p : Params) (command flags length : Nat) (payload : List Byte) : List Act :=
  [.enc command flags length payload, .wr, .pop .control p.tCtrl, .answer command]

/-- sync() (R222). -/
def syncActs (p : Params) : List Act :=
  [.enc p.cmdSync.toNat 0 0 [], .wr, .pop .control p.tCtrl, .syncAnswer, .seqClr, .session .synced]

/-- deviceOpen() (R223, D37). -/
def deviceOpenActs (p : Params) : List Act :=
  xchgActs p p.cmdDeviceOpen.toNat 0 0 [] ++ [.session .deviceOpened]

/-- deviceClose() (R223, D37). -/
def deviceCloseActs (p : Params) : List Act :=
  xchgActs p p.cmdDeviceClose.toNat 0 0 [] ++ [.session .deviceClosed]

/-- setBitrate(bps) (R224): a rate that is not in the table is an error that lists the valid set, and nothing is sent. -/
def setBitrateActs (p : Params) (bps : Nat) : List Act :=
  match p.bitrateTable.lookup bps with
  | some code => xchgActs p p.cmdChannelConfig.toNat p.configFlags 1 [code] ++ [.session (.bitrate bps)]
  | none => [.fail (.invalidBitrate (p.bitrateTable.map Prod.fst))]

/-- The byte of a mode (R225, U14). -/
def modeByte (p : Params) : Mode → Byte
  | .normal => p.modeNormal
  | .listen => p.modeListen
  | .loopback => p.modeLoopback

/-- setMode(mode) (R225): any other value is an error, and nothing is sent. -/
def setModeActs (p : Params) : ModeArg → List Act
  | .mode m => xchgActs p p.cmdSetMode.toNat p.modeFlags 1 [modeByte p m] ++ [.session (.mode m)]
  | .other _ => [.fail .invalidMode]

/-- The code of a filter type (R226, U14). -/
def filterCode (p : Params) : FilterKind → BitVec 32
  | .std11 => p.filterType11
  | .ext29 => p.filterType29

/-- The filter payload: index, type, id, mask, four 32-bit little-endian fields (R59, R226). -/
def filterPayload (p : Params) (index : BitVec 32) (f : Filter) : List Byte :=
  leBytes 4 index.toNat ++ leBytes 4 (filterCode p f.kind).toNat ++ leBytes 4 f.id.toNat ++ leBytes 4 f.mask.toNat

/-- setFilter(index, filter) (R226). -/
def setFilterActs (p : Params) (index : BitVec 32) (f : Filter) : List Act :=
  xchgActs p p.cmdSetFilter.toNat p.filterFlags 16 (filterPayload p index f)

/-- The caller-supplied filters in order, indices from `i` on (R226, R229). -/
def filtersActs (p : Params) : Nat → List Filter → List Act
  | _, [] => []
  | i, f :: rest => setFilterActs p (BitVec.ofNat 32 i) f ++ filtersActs p (i + 1) rest

/-- channelOpen() (R227, D37). -/
def channelOpenActs (p : Params) : List Act :=
  xchgActs p p.cmdChannelOpen.toNat 0 0 [] ++ [.session .channelOpened]

/-- channelClose() (R227, D37). -/
def channelCloseActs (p : Params) : List Act :=
  xchgActs p p.cmdChannelClose.toNat 0 0 [] ++ [.session .channelClosed]

/-- The bitrate part of the configure step (R229 line 3, log 22). -/
def rateActs (p : Params) (c : BusConfig) : List Act :=
  match c.bitrate, c.btr with
  | some bps, _ => setBitrateActs p bps
  | none, some _ => [.fail .unimplemented]
  | none, none => [.fail (.invalidBitrate (p.bitrateTable.map Prod.fst))]

/-- The mode part of the configure step (R229 line 3): with no mode given, no request is sent (R316, log 22). -/
def modeActs (p : Params) (c : BusConfig) : List Act :=
  match c.mode with
  | some m => setModeActs p m
  | none => []

/-- construct(config) (R228, R229): both a bitrate and a BTR register is an error before anything happens. -/
def constructActs (p : Params) (c : BusConfig) : List Act :=
  if c.bitrate.isSome && c.btr.isSome then [.fail .bitrateAndBtr]
  else
    [.rst, .session .begin] ++ syncActs p ++ deviceOpenActs p ++ rateActs p c ++ modeActs p c
      ++ filtersActs p 0 c.filters ++ [.session .configured] ++ channelOpenActs p ++ [.session .running, .succeed]

/-- shutdown() (R230): channelClose at best effort, then STOP. -/
def shutdownActs (p : Params) : List Act :=
  channelCloseActs p ++ [.closing, .stop, .session .portClosed]

/-- XCHG (R221). -/
def execXchg (command flags length : Nat) (payload : List Byte) (s : State) : Result :=
  .next (beginTask (xchgActs s.par command flags length payload) .surface s)

/-- sync (R222); it drives the transition from Unsynced (R231). -/
def execSync (s : State) : Result :=
  .next (beginTask (syncActs s.par) (.transition .unsynced) s)

/-- deviceOpen (R223); it drives the transition from Synced (R231). -/
def execDeviceOpen (s : State) : Result :=
  .next (beginTask (deviceOpenActs s.par) (.transition .synced) s)

/-- deviceClose (R223). -/
def execDeviceClose (s : State) : Result :=
  .next (beginTask (deviceCloseActs s.par) .surface s)

/-- setBitrate (R224); on its own it is the configure step, which drives the transition from DeviceOpen (R231, log 23). -/
def execSetBitrate (bps : Nat) (s : State) : Result :=
  .next (beginTask (setBitrateActs s.par bps ++ [.session .configured]) (.transition .deviceOpen) s)

/-- setMode (R225), a part of the configure step: its failure fails the step (R231, log 23). -/
def execSetMode (mode : ModeArg) (s : State) : Result :=
  .next (beginTask (setModeActs s.par mode) (.transition .deviceOpen) s)

/-- setFilter (R226), a part of the configure step: its failure fails the step (R231, log 23). -/
def execSetFilter (index : BitVec 32) (filter : Filter) (s : State) : Result :=
  .next (beginTask (setFilterActs s.par index filter) (.transition .deviceOpen) s)

/-- channelOpen (R227); it drives the transition from Configured (R231). -/
def execChannelOpen (s : State) : Result :=
  .next (beginTask (channelOpenActs s.par) (.transition .configured) s)

/-- channelClose (R227). -/
def execChannelClose (s : State) : Result :=
  .next (beginTask (channelCloseActs s.par) .closeChannel s)

/-- setBitrateFromRegister (R228): always fails, and sends nothing; it stands for setBitrate in the configure step (R229 line
3), which it fails (R231, log 23). -/
def execSetBitrateFromRegister (_raw : Nat) (s : State) : Result :=
  .next (beginTask [.fail .unimplemented] (.transition .deviceOpen) s)

/-- construct (R229). -/
def execConstruct (config : BusConfig) (s : State) : Result :=
  .next (beginTask (constructActs s.par config) .init s)

/-- shutdown (R230). -/
def execShutdown (s : State) : Result :=
  .next (beginTask (shutdownActs s.par) .shutdown s)

end Sys2Proof.Machine
end

