-- ==== Sys2Proof/Machine/Framer.lean ====
section
/-!
DEFINITION. The RX framer: the reader's micro-steps, the dispatch on a received byte and frame completion (R160 to R179),
and the meanings of the first-byte classes and of the reader's rows.
-/

namespace Sys2Proof.Machine

open Sys2Proof

/-! ### Steps that consume no byte -/

/-- RX.ARM: a one-byte read is now in flight (R160). -/
def arm (s : State) : State :=
  { s with eng.inflight := true }

/-- RX.STOPCHK (R162). -/
def stopChk (s : State) : State :=
  { s with eng.run := false }

/-- RX.IDLE (R163): `ACC` and `CNT` stay. -/
def idle (s : State) : State :=
  { s with eng.inflight := false }

/-- RX.ERR (R164). -/
def readError (s : State) : State :=
  { s with eng.run := false, eng.fatal := true, eng.inflight := false }

/-! ### Completion -/

/-- RX.COMPLETE lines 1 and 2 (R173). -/
def detach (s : State) : State :=
  { s with detached := some (s.eng.acc.take s.eng.cnt), eng.acc := [], eng.cnt := 0 }

/-- RX.COMPLETE line 3: the length-mismatch warning (R177). -/
def lengthCheck (f : Frame) (s : State) : State :=
  if isSyncCode s.par (byteAt f 0) then s
  else if lengthField s.par f = f.length - hlen s.par f then s
  else emit (.warning .lenWarn f) { s with eng.lenWarn := s.eng.lenWarn + 1 }

/-- RX.COMPLETE lines 3 to 5 for the frame just detached (R173). -/
def announce (s : State) : State :=
  match s.detached with
  | some f => pushDetached (emit (.rx f) (lengthCheck f s))
  | none => s

/-- RX.COMPLETE (R173), one atomic step with the byte that causes it. -/
def completeFrame (s : State) : State :=
  announce (detach s)

/-- RX.COMPLETE where the expected total is reached (R168, R170, R172). -/
def completeIfWhole (s : State) : State :=
  if s.eng.cnt = s.eng.total then completeFrame s else s

/-! ### Steps that consume a byte -/

/-- The read in flight has returned `b`: it is consumed from the RX stream (R51, R160). -/
def takeByte (b : Byte) (s : State) : State :=
  { s with eng.inflight := false, ch.rxStream := s.ch.rxStream ++ [b] }

/-- `ACC[CNT] <- b; CNT <- CNT + 1`. -/
def appendByte (b : Byte) (s : State) : State :=
  { s with eng.acc := s.eng.acc ++ [b], eng.cnt := s.eng.cnt + 1 }

/-- RX.SKIP0 (R165): the byte is discarded. -/
def skip0 (s : State) : State :=
  s

/-- RX.FIRST (R166). -/
def first (b : Byte) (s : State) : State :=
  { s with eng.acc := [b], eng.cnt := 1, eng.hlen := hlenOf s.par b, eng.total := hlenOf s.par b }

/-- RX.HDR (R167). -/
def hdr (b : Byte) (s : State) : State :=
  appendByte b s

/-- RX.LEN4 (R168): the payload length is the one that the header in `ACC` declares (R171). -/
def len4 (b : Byte) (s : State) : State :=
  completeIfWhole { appendByte b s with eng.total := s.par.hlenShort + plen s.par (s.eng.acc ++ [b]) }

/-- RX.LENSYNC (R169): the fourth byte is no length. -/
def lenSync (b : Byte) (s : State) : State :=
  completeFrame { appendByte b s with eng.total := s.par.hlenShort }

/-- RX.LEN6 (R170): likewise (R171). -/
def len6 (b : Byte) (s : State) : State :=
  completeIfWhole { appendByte b s with eng.total := s.par.hlenLong + plen s.par (s.eng.acc ++ [b]) }

/-- RX.PAY (R172). -/
def pay (b : Byte) (s : State) : State :=
  completeIfWhole (appendByte b s)

/-- The condition of RX.HDR (R161). -/
def atHdr (s : State) : Bool :=
  decide (1 ≤ s.eng.cnt) && decide (s.eng.cnt + 1 < s.eng.hlen)

/-- The condition of RX.LEN4 (R161). -/
def atLen4 (s : State) : Bool :=
  decide (1 ≤ s.eng.cnt) && decide (s.eng.cnt + 1 = s.eng.hlen) && decide (s.eng.hlen = s.par.hlenShort)
    && !isSyncCode s.par (byteAt s.eng.acc 0)

/-- The condition of RX.LENSYNC (R161). -/
def atLenSync (s : State) : Bool :=
  decide (1 ≤ s.eng.cnt) && decide (s.eng.cnt + 1 = s.eng.hlen) && decide (s.eng.hlen = s.par.hlenShort)
    && isSyncCode s.par (byteAt s.eng.acc 0)

/-- The condition of RX.LEN6 (R161). Under a record whose two header lengths are equal the two rows above it come first
(log 9). -/
def atLen6 (s : State) : Bool :=
  decide (1 ≤ s.eng.cnt) && decide (s.eng.cnt + 1 = s.eng.hlen) && decide (s.eng.hlen = s.par.hlenLong)
    && decide (s.eng.hlen ≠ s.par.hlenShort)

/-- The condition of RX.PAY (R161, R172). -/
def atPay (s : State) : Bool :=
  decide (1 ≤ s.eng.cnt) && decide (s.eng.hlen ≤ s.eng.cnt) && decide (s.eng.cnt < s.eng.total)

/-- BYTE(b), the dispatch of R161, its rows tried top to bottom. -/
def byteStep (b : Byte) (s : State) : State :=
  if s.eng.cnt = 0 then (if b = 0x00 then skip0 s else first b s)
  else if s.eng.cnt + 1 < s.eng.hlen then hdr b s
  else if s.eng.cnt + 1 = s.eng.hlen then
    if s.eng.hlen = s.par.hlenShort then
      (if isSyncCode s.par (byteAt s.eng.acc 0) then lenSync b s else len4 b s)
    else len6 b s
  else pay b s

/-- BYTE(b) as the one function of R174, its lines in order. -/
def byteWhole (b : Byte) (s : State) : State :=
  if s.eng.cnt = 0 ∧ b = 0x00 then s
  else
    let s1 := appendByte b s
    let s2 := if s1.eng.cnt = 1 then { s1 with eng.hlen := hlenOf s.par b, eng.total := hlenOf s.par b } else s1
    let s3 := if s2.eng.cnt = s2.eng.hlen then { s2 with eng.total := s2.eng.hlen + plen s2.par s2.eng.acc } else s2
    if s3.eng.hlen ≤ s3.eng.cnt ∧ s3.eng.cnt = s3.eng.total then completeFrame s3 else s3

/-- The state of R25, a function of `CNT`, `HLEN` and `TOTAL`. -/
def fsmState (s : State) : FsmState :=
  if s.eng.cnt = 0 then .awaitFirstByte
  else if s.eng.cnt < s.eng.hlen then .awaitHeader s.eng.hlen
  else if s.eng.cnt < s.eng.total then .awaitPayload s.eng.total
  else .complete

/-! ### The loop -/

/-- Micro-step 2: the environment has answered the read in flight (R160). -/
def readEvent (ev : ReadEvent) (s : State) : State :=
  match ev with
  | .byte b => byteStep b (takeByte b s)
  | .nothing => idle s
  | .failure => readError s

/-- Micro-step 2 is enabled (R160). -/
def reading (s : State) : Bool :=
  s.eng.run && s.eng.inflight

/-- Micro-step 1 is enabled (R160). -/
def atTop (s : State) : Bool :=
  s.eng.run && !s.eng.inflight

/-- The line `rx HH` of R90: the channel offers this byte to the reader. A read in flight returns it; at the top of
the loop the reader first sees a stop request (and then reads nothing) or begins a read; a stopped reader takes no
step and the byte is not read (log 5). -/
def offerByte (b : Byte) (s : State) : State :=
  if reading s then readEvent (.byte b) s
  else if atTop s then (if s.eng.stopReq then stopChk s else readEvent (.byte b) (arm s))
  else s

/-- The reader's next micro-step with the environment's answer left open (R160, log 14): what the machine does when
the script is empty. A stopped reader takes no step. -/
def readerTurn (s : State) : State :=
  if reading s then readEvent (Config.freeRead s.fresh) { s with fresh := s.fresh + 1 }
  else if atTop s then (if s.eng.stopReq then stopChk s else arm s)
  else s

/-- A step of the reader that is not enabled is not taken: nothing changes (R160, R161, log 6). -/
def whenEnabled (enabled : Bool) (t s : State) : Result :=
  .next (if enabled then t else s)

/-! ### First-byte classes -/

/-- ZERO (R165, R89 item 1): the byte 0x00 is offered. -/
def execByteZero (s : State) : Result :=
  .next (offerByte 0x00 s)

/-- MESSAGE (R87, R170). -/
def execByteMessage (s : State) : Result :=
  .next (offerByte s.par.cmdMessage s)

/-- SYNC_ANSWER (R87, R169). -/
def execByteSyncAnswer (s : State) : Result :=
  .next (offerByte s.par.cmdSyncAnswer s)

/-- SYNC (R87, R169). -/
def execByteSync (s : State) : Result :=
  .next (offerByte s.par.cmdSync s)

/-- ERROR (R87, R168). -/
def execByteError (s : State) : Result :=
  .next (offerByte s.par.cmdError s)

/-- CTRL (R87, R168): bit 7 is 0, the other bits are `cmd7`. -/
def execByteCtrl (cmd7 : BitVec 7) (s : State) : Result :=
  .next (offerByte (0#1 ++ cmd7) s)

/-- CTRL_ACK (R87, R168): bit 7 is 1, the other bits are `cmd7`. -/
def execByteCtrlAck (cmd7 : BitVec 7) (s : State) : Result :=
  .next (offerByte (1#1 ++ cmd7) s)

/-! ### The reader's rows -/

/-- RX.ARM (R160): at the top of an iteration without a stop request. -/
def execRxArm (s : State) : Result :=
  whenEnabled (atTop s && !s.eng.stopReq) (arm s) s

/-- RX.STOPCHK (R162): at the top of an iteration with a stop request. -/
def execRxStopChk (s : State) : Result :=
  whenEnabled (atTop s && s.eng.stopReq) (stopChk s) s

/-- RX.IDLE (R163). -/
def execRxIdle (s : State) : Result :=
  whenEnabled (reading s) (idle s) s

/-- RX.ERR (R164). -/
def execRxErr (s : State) : Result :=
  whenEnabled (reading s) (readError s) s

/-- RX.SKIP0 (R165). -/
def execRxSkip0 (s : State) : Result :=
  whenEnabled (reading s && decide (s.eng.cnt = 0)) (skip0 (takeByte 0x00 s)) s

/-- RX.FIRST (R166). -/
def execRxFirst (b : Byte) (s : State) : Result :=
  whenEnabled (reading s && decide (s.eng.cnt = 0) && (b != 0x00)) (first b (takeByte b s)) s

/-- RX.HDR (R167). -/
def execRxHdr (b : Byte) (s : State) : Result :=
  whenEnabled (reading s && atHdr s) (hdr b (takeByte b s)) s

/-- RX.LEN4 (R168). -/
def execRxLen4 (b : Byte) (s : State) : Result :=
  whenEnabled (reading s && atLen4 s) (len4 b (takeByte b s)) s

/-- RX.LENSYNC (R169). -/
def execRxLenSync (b : Byte) (s : State) : Result :=
  whenEnabled (reading s && atLenSync s) (lenSync b (takeByte b s)) s

/-- RX.LEN6 (R170). -/
def execRxLen6 (b : Byte) (s : State) : Result :=
  whenEnabled (reading s && atLen6 s) (len6 b (takeByte b s)) s

/-- RX.PAY (R172). -/
def execRxPay (b : Byte) (s : State) : Result :=
  whenEnabled (reading s && atPay s) (pay b (takeByte b s)) s

/-- The FSM state `Complete` (R25), transient: no step of the reader ends in it. -/
def atComplete (s : State) : Bool :=
  s.eng.run && decide (1 ≤ s.eng.cnt) && decide (s.eng.hlen ≤ s.eng.cnt) && decide (s.eng.cnt = s.eng.total)

/-- RX.COMPLETE (R173) from the state `Complete` (log 18). -/
def execRxComplete (s : State) : Result :=
  whenEnabled (atComplete s) (completeFrame s) s

/-- PUSH (R194) of a frame that RX.COMPLETE has detached and not yet pushed (log 18). -/
def execPush (s : State) : Result :=
  whenEnabled s.detached.isSome (pushDetached s) s

end Sys2Proof.Machine
end

