-- ==== Sys2Proof/Machine/MessagePath.lean ====
section
/-!
DEFINITION. The message pseudo-operations send and recv (R250 to R252).
-/

namespace Sys2Proof.Machine

open Sys2Proof

/-- The flag word of a sent body (R250, U10). -/
def flagWordOf (p : Params) (f : CanFrame) : BitVec 32 :=
  (if f.extended then p.extendedMask else 0) ||| (if f.remote then p.remoteMask else 0)

/-- A word of a sent body by its meaning. The spec gives no value for the timestamp and the fourth word: free (log 25). -/
def sentWord (p : Params) (f : CanFrame) (fresh : Nat) : BodyWord → BitVec 32
  | .flagWord => flagWordOf p f
  | .arbitrationId => f.id
  | .timestamp => Config.freeWord fresh
  | .fourth => Config.freeWord (fresh + 1)

/-- A sent body's prefix before anything is written to it: free bytes (log 25). -/
def blankPrefix (p : Params) (fresh : Nat) : List Byte :=
  (List.range p.bodyPrefix).map (Config.freePrefixByte fresh)

/-- The `BODY_PREFIX` bytes before the data: W0..W3 and then the DLC (R59, R250 line 1); what a layout would put behind the
prefix is cut off (log 9). -/
def bodyPrefixOf (p : Params) (f : CanFrame) (fresh : Nat) : List Byte :=
  let w m := (sentWord p f fresh m).toNat
  let b0 := memWrite (blankPrefix p fresh) 0 4 (w p.word0)
  let b1 := memWrite b0 4 4 (w p.word1)
  let b2 := memWrite b1 8 4 (w p.word2)
  let b3 := memWrite b2 12 4 (w p.word3)
  memWrite (b3.take p.bodyPrefix) p.bodyDlcOff 2 f.data.length

/-- The body of a sent MESSAGE frame (R250 line 1). -/
def sentBody (p : Params) (f : CanFrame) (fresh : Nat) : List Byte :=
  bodyPrefixOf p f fresh ++ f.data

/-- send(canFrame) (R250): ENC of the body, WR, and nothing is awaited. -/
def sendActs (p : Params) (f : CanFrame) (fresh : Nat) : List Act :=
  [.enc p.cmdMessage.toNat p.channelFlags (p.bodyPrefix + f.data.length) (sentBody p f fresh), .wr]

/-- send (R250). The free values it may use are used up (log 25). -/
def execSend (frame : CanFrame) (s : State) : Result :=
  .next (beginTask (sendActs s.par frame s.fresh) .surface { s with fresh := s.fresh + 2 })

/-- recv (R251). -/
def execRecv (timeout : Nat) (s : State) : Result :=
  .next (beginTask [.pop .message timeout, .received] .surface s)

end Sys2Proof.Machine
end

