-- ==== Sys2Proof/Machine/Transport.lean ====
section
/-!
DEFINITION. The meanings of the transport's host operations: WR, POPC, POPM, STOP, STATUS (R190 to R205, R32), and RST (R310).
-/

namespace Sys2Proof.Machine

open Sys2Proof

/-- WR (R190 to R192). -/
def execWr (raw : List Byte) (s : State) : Result :=
  match writeFlush raw s with
  | (none, s') => .next (hostReturn .ok s')
  | (some c, s') => .next (hostRaise c s')

/-- POPC (R198). -/
def execPopc (timeout : Nat) (s : State) : Result :=
  .next (beginTask [.pop .control timeout, .deliver] .surface s)

/-- POPM (R199). -/
def execPopm (timeout : Nat) (s : State) : Result :=
  .next (beginTask [.pop .message timeout, .deliver] .surface s)

/-- STOP (R203 to R205); a session whose channel is closed goes to PortClosed (R231), also when the close of the port
fails (R205 (a)). -/
def execStop (s : State) : Result :=
  .next (beginTask [.stop, .session .portClosed] .closePort s)

/-- STATUS (R32). -/
def execStatus (s : State) : Result :=
  .next (hostReturn (.snapshot (snapshot s)) s)

/-- RST (R310, R311). -/
def execRst (s : State) : Result :=
  .next (hostReturn .ok (resetEngine s))

end Sys2Proof.Machine
end

