-- ==== Sys2Proof/Machine/Dispatch.lean ====
section
/-!
DEFINITION. The meaning of every instruction: one arm per constructor of Instr, in the opcode table's order.
-/

namespace Sys2Proof.Machine

open Sys2Proof

def exec (i : Instr) (s : State) : Host.Outcome State Fault Refusal :=
  match i with
  | .byteZero => Sys2Proof.Machine.execByteZero s
  | .byteMessage => Sys2Proof.Machine.execByteMessage s
  | .byteSyncAnswer => Sys2Proof.Machine.execByteSyncAnswer s
  | .byteSync => Sys2Proof.Machine.execByteSync s
  | .byteError => Sys2Proof.Machine.execByteError s
  | .byteCtrl cmd7 => Sys2Proof.Machine.execByteCtrl cmd7 s
  | .byteCtrlAck cmd7 => Sys2Proof.Machine.execByteCtrlAck cmd7 s
  | .encSync flags length payload => Sys2Proof.Machine.execEncSync flags length payload s
  | .encCtrl command flags length payload => Sys2Proof.Machine.execEncCtrl command flags length payload s
  | .encMsg flags length payload => Sys2Proof.Machine.execEncMsg flags length payload s
  | .encBadCommand command flags length payload => Sys2Proof.Machine.execEncBadCommand command flags length payload s
  | .encBadField command flags length payload => Sys2Proof.Machine.execEncBadField command flags length payload s
  | .seqClr => Sys2Proof.Machine.execSeqClr s
  | .decEmpty => Sys2Proof.Machine.execDecEmpty s
  | .decZeroStart raw => Sys2Proof.Machine.execDecZeroStart raw s
  | .decShort raw => Sys2Proof.Machine.execDecShort raw s
  | .decFs raw => Sys2Proof.Machine.execDecFs raw s
  | .decF4 raw => Sys2Proof.Machine.execDecF4 raw s
  | .decF6 raw => Sys2Proof.Machine.execDecF6 raw s
  | .decBodyShort raw => Sys2Proof.Machine.execDecBodyShort raw s
  | .wr raw => Sys2Proof.Machine.execWr raw s
  | .popc timeout => Sys2Proof.Machine.execPopc timeout s
  | .popm timeout => Sys2Proof.Machine.execPopm timeout s
  | .stop => Sys2Proof.Machine.execStop s
  | .status => Sys2Proof.Machine.execStatus s
  | .rst => Sys2Proof.Machine.execRst s
  | .rxArm => Sys2Proof.Machine.execRxArm s
  | .rxStopChk => Sys2Proof.Machine.execRxStopChk s
  | .rxIdle => Sys2Proof.Machine.execRxIdle s
  | .rxErr => Sys2Proof.Machine.execRxErr s
  | .rxSkip0 => Sys2Proof.Machine.execRxSkip0 s
  | .rxFirst b => Sys2Proof.Machine.execRxFirst b s
  | .rxHdr b => Sys2Proof.Machine.execRxHdr b s
  | .rxLen4 b => Sys2Proof.Machine.execRxLen4 b s
  | .rxLenSync b => Sys2Proof.Machine.execRxLenSync b s
  | .rxLen6 b => Sys2Proof.Machine.execRxLen6 b s
  | .rxPay b => Sys2Proof.Machine.execRxPay b s
  | .rxComplete => Sys2Proof.Machine.execRxComplete s
  | .push => Sys2Proof.Machine.execPush s
  | .xchg command flags length payload => Sys2Proof.Machine.execXchg command flags length payload s
  | .sync => Sys2Proof.Machine.execSync s
  | .deviceOpen => Sys2Proof.Machine.execDeviceOpen s
  | .deviceClose => Sys2Proof.Machine.execDeviceClose s
  | .setBitrate bps => Sys2Proof.Machine.execSetBitrate bps s
  | .setMode mode => Sys2Proof.Machine.execSetMode mode s
  | .setFilter index filter => Sys2Proof.Machine.execSetFilter index filter s
  | .channelOpen => Sys2Proof.Machine.execChannelOpen s
  | .channelClose => Sys2Proof.Machine.execChannelClose s
  | .setBitrateFromRegister raw => Sys2Proof.Machine.execSetBitrateFromRegister raw s
  | .construct config => Sys2Proof.Machine.execConstruct config s
  | .shutdown => Sys2Proof.Machine.execShutdown s
  | .send frame => Sys2Proof.Machine.execSend frame s
  | .recv timeout => Sys2Proof.Machine.execRecv timeout s

end Sys2Proof.Machine
end

