-- ==== Sys2Proof/Machine/Fetch.lean ====
section
/-!
DEFINITION. Which turn is next (R17, log 1): taken from the script; with no turn left the reader moves.
-/

namespace Sys2Proof.Machine

open Sys2Proof

/-- What the machine does next. -/
inductive Fetched where
  /-- the reader's own micro-step -/
  | reader
  /-- a pending host operation goes on -/
  | resume (ticket : Nat)
  /-- a packet is presented -/
  | packet (p : Packet)
deriving DecidableEq, Repr

/-- The next turn. -/
def fetchTurn (s : State) : Fetched :=
  match s.script with
  | [] => .reader
  | .resume ticket :: _ => .resume ticket
  | .issue p :: _ => .packet p

/-- The turn is used up. -/
def dropTurn (s : State) : State :=
  { s with script := s.script.tail }

/-- A turn is put before the others. -/
def presentTurn (t : Turn) (s : State) : State :=
  { s with script := t :: s.script }

/-- The step is taken under a parameter record that R9 allows, and is a fault under any other (R333, U17, log 9). -/
def checked (p : Params) (r : Result) : Result :=
  if p.ok then r else .fault .badParameters

end Sys2Proof.Machine
end

