-- ==== Sys2Proof/Machine/Step.lean ====
section
/-!
DEFINITION. One step of the machine (R10, R17).
-/

namespace Sys2Proof.Machine

open Sys2Proof

/-- A presented packet is decoded and its instruction run. -/
def runPacket (p : Packet) (s : State) : Host.Outcome State Fault Refusal :=
  exec (decode s.par p) (dropTurn s)

/-- One step: the next turn is taken; a packet is decoded and its instruction run. A parameter record outside R9 is a fault
(R333, U17). -/
def step (s : State) : Host.Outcome State Fault Refusal :=
  match fetchTurn s with
  | .reader => checked s.par (.next (readerTurn s))
  | .resume ticket => checked s.par (.next (resumeTask ticket (dropTurn s)))
  | .packet p => checked s.par (runPacket p s)

/-- The state whose next turn presents the row's bits (log 1, log 3). -/
def State.withFetchWord (s : State) (nbits w : Nat) : State :=
  presentTurn (.issue (packetOfWord s.par nbits w)) s

end Sys2Proof.Machine
end

