-- ==== Sys2Proof/Safety.lean ====
section
/-!
DEFINITION. What claims are stated in terms of: the invariants of R40, the framer as a function of the stream (R179), and
what the arrival of a whole frame leaves (R173, R194), written on the engine's state alone.
-/

namespace Sys2Proof.Safety

open Sys2Proof Sys2Proof.Machine

/-! ### The invariants of R40 -/

/-- (I6) for `CQ`: a whole control frame. -/
def ControlFrame (p : Params) (f : Frame) : Prop :=
  byteAt f 0 ≠ 0x00 ∧ byteAt f 0 ≠ p.cmdMessage ∧ p.hlenShort ≤ f.length ∧ f.length ≤ p.hlenShort + 255
    ∧ f.length = p.hlenShort + plen p f

/-- (I6) for `MQ`: a whole MESSAGE frame. -/
def MessageFrame (p : Params) (f : Frame) : Prop :=
  byteAt f 0 = p.cmdMessage ∧ f.length = p.hlenLong + memRead f 4 2

/-- The invariants (I1) to (I7) of R40 on the engine, with the legal combinations of R29 and R160. -/
structure EngineInv (p : Params) (e : Engine) : Prop where
  /-- (I1) -/
  count : e.acc.length = e.cnt
  bound : e.cnt ≤ p.accCap
  /-- (I2) -/
  start : 1 ≤ e.cnt → byteAt e.acc 0 ≠ 0x00 ∧ e.hlen = hlen p e.acc
  /-- (I3) -/
  header : 1 ≤ e.cnt → e.cnt < e.hlen → e.total = e.hlen
  /-- (I4) -/
  payload : 1 ≤ e.cnt → e.hlen ≤ e.cnt → e.total = e.hlen + plen p e.acc ∧ e.cnt < e.total
  /-- (I5) -/
  cqBound : e.cq.length ≤ p.cqDepth
  mqBound : e.mq.length ≤ p.mqDepth
  /-- (I6) -/
  cqFrames : ∀ f ∈ e.cq, ControlFrame p f
  mqFrames : ∀ f ∈ e.mq, MessageFrame p f
  /-- (I7) -/
  noLenWarn : e.lenWarn = 0
  /-- R29, R204: a closed port means a stopped reader -/
  closedStopped : e.portOpen = false → e.run = false
  /-- R29: a dead reader is stopped -/
  fatalStopped : e.fatal = true → e.run = false
  /-- R160, R204: only a running reader has a read in flight -/
  inflightRuns : e.inflight = true → e.run = true

/-- The machine's invariant between steps: R40, and no frame between detach and push (R173). -/
structure Inv (s : State) : Prop where
  engine : EngineInv s.par s.eng
  noDetached : s.detached = none

/-- Every pending host operation has a number of its own, given out before the next one. -/
def TicketsFresh (s : State) : Prop :=
  (s.host.tasks.map (·.ticket)).Nodup ∧ ∀ t ∈ s.host.tasks, t.ticket < s.host.nextTicket

/-- No pending host operation has still to begin a new session: a construct does so in its first step (log 27). -/
def SessionsBegun (s : State) : Prop :=
  ∀ t ∈ s.host.tasks, Act.session .begin ∉ t.acts

/-! ### The framer as a function of the stream (R179) -/

/-- `Delimit` of R179, with at least as much fuel as there are bytes. -/
def delimitFuel (p : Params) : Nat → List Byte → List Frame × List Byte
  | 0, s => ([], s)
  | n + 1, s =>
    if s = [] then ([], [])
    else if byteAt s 0 = 0x00 then delimitFuel p n s.tail
    else if s.length < hlen p s then ([], s)
    else if s.length < hlen p s + plen p s then ([], s)
    else
      match delimitFuel p n (s.drop (hlen p s + plen p s)) with
      | (fs, r) => (s.take (hlen p s + plen p s) :: fs, r)

/-- `Delimit(s)` of R179: the frames completed and the residue. -/
def delimit (p : Params) (s : List Byte) : List Frame × List Byte :=
  delimitFuel p s.length s

/-! ### The arrival of a whole frame (R173, R194) -/

/-- What the queues and drop counters become when a whole frame arrives. -/
def arrive (p : Params) (f : Frame) (e : Engine) : Engine :=
  if byteAt f 0 = p.cmdMessage then
    if e.mq.length < p.mqDepth then { e with mq := e.mq ++ [f] } else { e with dropM := e.dropM + 1 }
  else
    if e.cq.length < p.cqDepth then { e with cq := e.cq ++ [f] } else { e with dropC := e.dropC + 1 }

/-- What the arrival adds to the trace: the frame, and the drop if its queue is full (R178, R194). -/
def arrivalTrace (p : Params) (f : Frame) (e : Engine) : List TraceRec :=
  .rx f ::
    (if byteAt f 0 = p.cmdMessage then
      if e.mq.length < p.mqDepth then [] else [.warning (.drop .message) f]
    else
      if e.cq.length < p.cqDepth then [] else [.warning (.drop .control) f])

/-- The frames of a list arrive one after the other. -/
def arriveAll (p : Params) : List Frame → Engine → Engine
  | [], e => e
  | f :: fs, e => arriveAll p fs (arrive p f e)

/-- The state after byte `b` has been read and buffered, nothing completed (R166 to R172): the read is over, the byte is
consumed, the accumulator is `acc` and its length the count. -/
def buffered (b : Byte) (acc : List Byte) (hlen total : Nat) (s : State) : State :=
  { s with
    eng.acc := acc, eng.cnt := acc.length, eng.hlen := hlen, eng.total := total, eng.inflight := false
    ch.rxStream := s.ch.rxStream ++ [b] }

/-- The state after byte `b` has completed the frame `f` (R173): accumulator and count reset, `HLEN` as it was and
`TOTAL` stale, the frame arrived, everything else as it was. -/
def completed (b : Byte) (f : Frame) (total : Nat) (s : State) : State :=
  { s with
    eng := arrive s.par f { s.eng with acc := [], cnt := 0, total := total, inflight := false }
    ch.rxStream := s.ch.rxStream ++ [b]
    trace := s.trace ++ arrivalTrace s.par f s.eng
    detached := none }

/-- The frame in `ACC` starts with a sync code (R16). -/
abbrev SyncStarted (s : State) : Prop :=
  byteAt s.eng.acc 0 = s.par.cmdSync ∨ byteAt s.eng.acc 0 = s.par.cmdSyncAnswer

/-! ### The host's side -/

/-- A host operation that is done at once returns `v`. -/
def returned (v : Value) (s : State) : State :=
  { s with
    host.reply := some { ticket := s.host.nextTicket, value := v }
    host.nextTicket := s.host.nextTicket + 1 }

/-- A host operation that has begun is pending with what is left of it. -/
def pendingWith (acts : List Act) (handler : Handler) (raw : List Byte) (waiting : Bool) (s : State) : State :=
  { s with
    host.tasks :=
      s.host.tasks.filter (fun t => t.ticket != s.host.nextTicket) ++
        [{ ticket := s.host.nextTicket, acts := acts, handler := handler, raw := raw, got := none,
           waiting := waiting, value := .ok }]
    host.reply := some { ticket := s.host.nextTicket, value := .pending }
    host.nextTicket := s.host.nextTicket + 1 }

/-- The first step of a request: a control frame with the next sequence tag is encoded, and what follows is pending
(R221 line 1, R112). -/
def requested (command flags length : Nat) (payload : List Byte) (rest : List Act) (handler : Handler)
    (s : State) : State :=
  pendingWith rest handler (withPayload (headerF4 command s.eng.seqTx flags length) length payload) false
    { s with eng.seqTx := s.eng.seqTx + 1 }

/-- Instructions run one after the other, each from where the one before it ended. -/
def execAll : List Instr → State → Host.Outcome State Fault Refusal
  | [], s => .next s
  | i :: rest, s =>
    match exec i s with
    | .next t => execAll rest t
    | .fault r => .fault r
    | .refused r => .refused r

/-- An ENC call that the encoder accepts and that is no sync. -/
def acceptedTagged : Instr → Bool
  | .encCtrl _ _ _ _ => true
  | .encMsg _ _ _ => true
  | _ => false

/-- An ENC call that is no sync, accepted or rejected. -/
def taggedOrRejected : Instr → Bool
  | .encCtrl _ _ _ _ => true
  | .encMsg _ _ _ => true
  | .encBadCommand _ _ _ _ => true
  | .encBadField _ _ _ _ => true
  | _ => false

/-- The session's phase after the port has been closed: PortClosed if the channel was closed, else as it was (R231). -/
def portPhase (now : Phase) : Phase :=
  if now = .channelClosed then .portClosed else now

/-- The session's phase after the channel has been closed: ChannelClosed from ChannelOpen or Running, else as it was
(R231). -/
def closedPhase (now : Phase) : Phase :=
  if now = .channelOpen ∨ now = .running then .channelClosed else now

/-- The session's phase after an operation that drives the transition from `source` has failed: from that phase the session is
never usable, else it is as it was (R231). -/
def failedPhase (source now : Phase) : Phase :=
  if now = source then .failed else now

/-- A pending host operation has ended with this result, and nothing else has changed. -/
def ended (t : Task) (v : Value) (s : State) : State :=
  { s with
    host.tasks := s.host.tasks.erase t
    host.reply := some { ticket := t.ticket, value := v } }

/-- A pending host operation has become another of the same number, and nothing else has changed. -/
def continued (t t' : Task) (s : State) : State :=
  { s with
    host.tasks := s.host.tasks.erase t ++ [t']
    host.reply := some { ticket := t.ticket, value := .pending } }

/-- A pending host operation has done a piece and has become `now`, with these pieces left: the host software's own pieces
at their front run at once (log 27); then it has ended with its value as result, or is pending with what remains. -/
def proceeds (t : Task) : Task → List Act → State → State
  | now, [], s => ended t now.value s
  | now, .session u :: rest, s => proceeds t now rest { s with host.session := updateSession u s.host.session }
  | now, .deliver :: rest, s => proceeds t { now with value := popValue now.got } rest s
  | now, .succeed :: rest, s => proceeds t { now with value := .ok } rest s
  | now, .closing :: rest, s => proceeds t { now with handler := .closePort } rest s
  | now, rest, s => continued t { now with acts := rest, waiting := false } s

/-- A piece of a pending host operation has failed (R205 (a), R221, R227, R229, R230): the error is the result, and where the
operation is one that leaves the channel or the port closed all the same, or the session unusable, so is the session; a
shutdown goes on to its STOP. The phases outside R231's table are log 23's and log 30's. -/
def failed (e : HostError) (t : Task) (s : State) : State :=
  match t.handler with
  | .surface => ended t (.error e) s
  | .transition source =>
    ended t (.error e) { s with host.session.phase := failedPhase source s.host.session.phase }
  | .closeChannel =>
    ended t (.error e)
      { s with host.session.channelOpen := false, host.session.phase := closedPhase s.host.session.phase }
  | .shutdown =>
    continued t { t with acts := [.stop, .session .portClosed], handler := .closePort, waiting := false }
      { s with host.session.channelOpen := false, host.session.phase := closedPhase s.host.session.phase }
  | .closePort => ended t (.error e) { s with host.session.phase := portPhase s.host.session.phase }
  | .init => ended t (.error (.initError e)) { s with host.session.phase := .failed }

/-- The pieces of one exchange (R221). -/
def exchange (p : Params) (command : Byte) (flags length : Nat) (payload : List Byte) : List Act :=
  [.enc command.toNat flags length payload, .wr, .pop .control p.tCtrl, .answer command.toNat]

/-- A construction's rate (R224, R228, R229 line 3): the exchange of a supported rate; an unsupported one, or none at all, is
InvalidBitrate, and a BTR register alone is not implemented (log 22). -/
def ratePieces (p : Params) (bitrate btr : Option Nat) : List Act :=
  match bitrate, btr with
  | some bps, _ =>
    match p.bitrateTable.lookup bps with
    | some code => exchange p p.cmdChannelConfig p.configFlags 1 [code] ++ [.session (.bitrate bps)]
    | none => [.fail (.invalidBitrate (p.bitrateTable.map Prod.fst))]
  | none, some _ => [.fail .unimplemented]
  | none, none => [.fail (.invalidBitrate (p.bitrateTable.map Prod.fst))]

/-- A construction's mode (R225, R229 line 3), if one is given (R316, log 22). -/
def modePieces (p : Params) : Option ModeArg → List Act
  | none => []
  | some (.mode m) =>
    exchange p p.cmdSetMode p.modeFlags 1
        [match m with | .normal => p.modeNormal | .listen => p.modeListen | .loopback => p.modeLoopback]
      ++ [.session (.mode m)]
  | some (.other _) => [.fail .invalidMode]

/-- A construction's filters (R226, R229 line 3): one exchange for each, in the caller's order, numbered from 0; its payload
is the number, the type's code, the id and the mask, four bytes each with the low byte first. -/
def filterPieces (p : Params) (filters : List Filter) : List Act :=
  filters.zipIdx.flatMap fun x =>
    exchange p p.cmdSetFilter p.filterFlags 16
      (leBytes 4 x.2
        ++ leBytes 4 (match x.1.kind with | .std11 => p.filterType11 | .ext29 => p.filterType29).toNat
        ++ leBytes 4 x.1.id.toNat ++ leBytes 4 x.1.mask.toNat)

/-- Nothing has changed beside the engine, the operations in progress, the last result and the free-value counter. -/
def SameBeside (s t : State) : Prop :=
  t.par = s.par ∧ t.ch = s.ch ∧ t.trace = s.trace ∧ t.detached = s.detached ∧ t.script = s.script
    ∧ t.host.session = s.host.session

/-- The next turn is a reset, or a construction, which begins with one (R229 line 0): it presents the instruction, or it
resumes an operation whose next piece is RST. No other event resets the engine (R311). -/
def ResetTurn (s : State) : Prop :=
  match fetchTurn s with
  | .reader => False
  | .resume ticket => ∃ t ∈ s.host.tasks, t.ticket = ticket ∧ t.acts.head? = some .rst
  | .packet p => decode s.par p = .rst ∨ ∃ c, decode s.par p = .construct c

/-- The framer's registers, its counters and bits, and what it has read of the RX stream are as they were. -/
def FramerUntouched (s t : State) : Prop :=
  t.eng.acc = s.eng.acc ∧ t.eng.cnt = s.eng.cnt ∧ t.eng.hlen = s.eng.hlen ∧ t.eng.total = s.eng.total
    ∧ t.eng.dropC = s.eng.dropC ∧ t.eng.dropM = s.eng.dropM ∧ t.eng.lenWarn = s.eng.lenWarn ∧ t.eng.run = s.eng.run
    ∧ t.eng.fatal = s.eng.fatal ∧ t.eng.inflight = s.eng.inflight ∧ t.ch.rxStream = s.ch.rxStream

/-- RST has taken place: the engine is as R39 has it, whatever `HLEN` and `TOTAL` hold. -/
def JustReset (e : Engine) : Prop :=
  e = { Engine.reset with hlen := e.hlen, total := e.total }

end Sys2Proof.Safety
end

