-- ==== Sys2Proof/Certificates/Slice0/Obligations.lean ====
section
/-!
DEFINITION. The statements for the provers. Where a statement speaks of a value or a behaviour that the model chose, its
docstring names the log entry.
-/

section

open Sys2Proof Sys2Proof.Machine Sys2Proof.Safety

/-! ### Presenting an instruction -/

/-- Decoding the packet that encodes a well-formed instruction gives the instruction back, whatever sequence tag the image
carries (R81 to R83, R87, R92; that rows without bits are calls is the model's choice, log 2). -/
def Obligations.DecodeReversesEncode : Prop :=
  ∀ (p : Params) (seq : BitVec 8) (i : Instr),
    p.ok = true → i.wf p = true → decode p (encode p seq i) = i

/-- Whatever is presented decodes to an instruction with the arguments that select its row (R87, R110, R130): that no packet is
refused, so that an image which no ENC call emits is read as the ENC call whose arguments it shows, its missing bytes as 0, is
the model's choice (log 2). An image that is a frame as the encoder emits it (the canonical sync frame, or a whole F4 or F6
frame of a request command) is what its instruction encodes to with the image's own byte 1 as tag: no other bit of such an
image is read over (R81 to R83; log 4). -/
def Obligations.EncodeReversesImageDecode : Prop :=
  ∀ p : Params, p.ok = true →
    (∀ packet : Packet, (decode p packet).wf p = true)
      ∧ (∀ bytes : List Byte,
          (bytes = [p.cmdSync, 0x00, p.cmdSync, 0x00]
            ∨ (p.inRange (byteAt bytes 0).toNat = true
              ∧ if byteAt bytes 0 = p.cmdMessage
                then 6 ≤ bytes.length ∧ bytes.length = 6 + ((byteAt bytes 4).toNat + 256 * (byteAt bytes 5).toNat)
                else 4 ≤ bytes.length ∧ bytes.length = 4 + (byteAt bytes 3).toNat)) →
          encode p (byteAt bytes 1) (decode p (.image bytes)) = .image bytes)

/-- Every byte value has a first-byte class, and the class encodes to that byte: R87's rows part the 256 values. -/
def Obligations.FirstByteMapIsTotal : Prop :=
  ∀ (p : Params) (seq : BitVec 8) (b : Byte),
    p.ok = true → (classOf p b).wf p = true ∧ encode p seq (classOf p b) = .rx b

/-- A presented packet is decoded and run, with its turn used up and nothing else done around it; a row's bits put at the
next turn are so run from the state as it was. A turn that resumes a pending host operation makes it go on, and with no turn
left the reader takes its own micro-step. The turns are the model's form of the interleaving of R17 (log 1, log 3). -/
def Obligations.StepRunsTheDecodedInstruction : Prop :=
  ∀ (s : State) (i : Instr), s.par.ok = true →
    (∀ (p : Packet) (rest : List Turn), s.script = .issue p :: rest → decode s.par p = i →
        step s = exec i { s with script := rest })
      ∧ (∀ nbits w : Nat, decode s.par (packetOfWord s.par nbits w) = i →
          step (s.withFetchWord nbits w) = exec i s)
      ∧ (∀ (ticket : Nat) (rest : List Turn), s.script = .resume ticket :: rest →
          step s = .next (resumeTask ticket { s with script := rest }))
      ∧ (s.script = [] → step s = .next (readerTurn s))

/-- A step answers a next state under every parameter record that R9 allows, whatever is presented and whatever the state:
no condition of R271 stops the machine. Under any other record, for which the spec defines nothing (R333), every step is the
fault of U17 (log 9). -/
def Obligations.OnlyBadInputStops : Prop :=
  ∀ s : State,
    (s.par.ok = true → ∃ t, step s = .next t)
      ∧ (s.par.ok = false → step s = .fault .badParameters)

/-- A few words of the table, written out bit by bit, decode to their rows (R92). In the words of 32 and 48 bits the bits are
numbered as the table's fields number them and the payload is as many zero bytes as the length field declares (log 3: the
`[0]` of the call with length 1); the sequence tag in byte 1 is read over (log 4). -/
def Obligations.SampleWordsDecode : Prop :=
  decodeTableWord 8 0b00000000 = some .byteZero
    ∧ decodeTableWord 8 0b01000000 = some .byteMessage
    ∧ decodeTableWord 8 0b11000000 = some (.byteCtrlAck 0b1000000)
    ∧ decodeTableWord 32 0b10100101000000001010010100000000 = some (.encSync 0 0 [])
    ∧ decodeTableWord 32 0b00000010000001110000001100000001 = some (.encCtrl 2 3 1 [0])
    ∧ decodeTableWord 48 0b010000000000011100000010000000010000000000000000 = some (.encMsg 258 0 [])

/-! ### ENC and SEQCLR -/

/-- ENC.SYNC (R111): whatever the arguments, the fixed frame; `SEQ_TX` becomes 0; nothing else changes. -/
def Obligations.EncSyncReturnsTheSyncFrame : Prop :=
  ∀ (s : State) (flags length : Nat) (payload : List Byte),
    exec (.encSync flags length payload) s =
      .next (returned (.bytes [s.par.cmdSync, 0x00, s.par.cmdSync, 0x00]) { s with eng.seqTx := 0 })

/-- ENC.CTRL (R112): the F4 frame with `SEQ_TX` as its tag; `SEQ_TX` advances modulo 256; nothing else changes. -/
def Obligations.EncCtrlReturnsTheF4Frame : Prop :=
  ∀ (s : State) (command flags length : Nat) (payload : List Byte),
    s.par.ok = true → s.par.inRange command = true → command ≠ s.par.cmdMessage.toNat →
    flags ≤ 255 → length ≤ 255 → (length > 0 → payload.length = length) →
      exec (.encCtrl command flags length payload) s =
        .next
          (returned
            (.bytes
              ([BitVec.ofNat 8 command, s.eng.seqTx, BitVec.ofNat 8 flags, BitVec.ofNat 8 length]
                ++ if length > 0 then payload else []))
            { s with eng.seqTx := BitVec.ofNat 8 ((s.eng.seqTx.toNat + 1) % 256) })

/-- ENC.MSG (R113): the F6 frame, both 16-bit fields low byte first; `SEQ_TX` advances modulo 256. -/
def Obligations.EncMsgReturnsTheF6Frame : Prop :=
  ∀ (s : State) (flags length : Nat) (payload : List Byte),
    s.par.ok = true → flags ≤ 65535 → length ≤ 65535 → (length > 0 → payload.length = length) →
      exec (.encMsg flags length payload) s =
        .next
          (returned
            (.bytes
              ([s.par.cmdMessage, s.eng.seqTx, BitVec.ofNat 8 (flags % 256), BitVec.ofNat 8 (flags / 256),
                  BitVec.ofNat 8 (length % 256), BitVec.ofNat 8 (length / 256)]
                ++ if length > 0 then payload else []))
            { s with eng.seqTx := BitVec.ofNat 8 ((s.eng.seqTx.toNat + 1) % 256) })

/-- EncodeError(BadCommand) (R114) with the offending command, and EncodeError(BadField) (R115) with the tests that failed
(log 21): the error is the result and nothing is written. -/
def Obligations.EncRejectsWithoutWriting : Prop :=
  ∀ (s : State) (command flags length : Nat) (payload : List Byte), s.par.ok = true →
    (command ≠ s.par.cmdSync.toNat → (command < s.par.cmdMin.toNat ∨ s.par.cmdMax.toNat < command) →
        exec (.encBadCommand command flags length payload) s =
          .next (returned (.error (.engine (.badCommand command))) s))
      ∧ (∀ limit : Nat, s.par.inRange command = true →
          limit = (if command = s.par.cmdMessage.toNat then 65535 else 255) →
          (flags > limit ∨ length > limit ∨ (length > 0 ∧ payload.length ≠ length)) →
          exec (.encBadField command flags length payload) s =
            .next
              (returned
                (.error (.engine (.badField (decide (flags > limit)) (decide (length > limit))
                  (decide (length > 0 ∧ payload.length ≠ length))))) s))

/-- After any list of ENC calls other than syncs, of which `n` were accepted, the next accepted call's frame carries
`(s0 + n) mod 256` as its byte 1, and `SEQ_TX` is one more; rejected calls do not count (R117). -/
def Obligations.SequenceTagsAreConsecutive : Prop :=
  ∀ (s : State) (calls : List Instr) (i : Instr),
    s.par.ok = true → (∀ j ∈ calls, taggedOrRejected j = true ∧ j.wf s.par = true) →
    acceptedTagged i = true → i.wf s.par = true →
      ∃ t u bytes,
        execAll calls s = .next t ∧ exec i t = .next u
          ∧ u.host.reply = some { ticket := t.host.nextTicket, value := .bytes bytes }
          ∧ (byteAt bytes 1).toNat = (s.eng.seqTx.toNat + calls.countP acceptedTagged) % 256
          ∧ u.eng.seqTx.toNat = (s.eng.seqTx.toNat + calls.countP acceptedTagged + 1) % 256

/-- The image that the table gives for an accepted ENC call, with `SEQ_TX` as tag, is the frame that the call returns
(R92 (2)). -/
def Obligations.ImageIsTheFrameReturned : Prop :=
  ∀ (s : State) (i : Instr) (bytes : List Byte),
    s.par.ok = true → i.wf s.par = true → encode s.par s.eng.seqTx i = .image bytes →
      ∃ t, exec i s = .next t ∧ t.host.reply = some { ticket := s.host.nextTicket, value := .bytes bytes }

/-- SEQCLR (R116) writes 0 to `SEQ_TX` and nothing else; STATUS (R32) returns the snapshot and changes nothing. -/
def Obligations.SeqClrAndStatus : Prop :=
  ∀ s : State,
    exec .seqClr s = .next (returned .ok { s with eng.seqTx := 0 })
      ∧ exec .status s =
        .next
          (returned
            (.snapshot
              { run := s.eng.run, stopReq := s.eng.stopReq, fatal := s.eng.fatal, portOpen := s.eng.portOpen,
                seqTx := s.eng.seqTx, cnt := s.eng.cnt, cqLen := s.eng.cq.length, mqLen := s.eng.mq.length,
                dropC := s.eng.dropC, dropM := s.eng.dropM, lenWarn := s.eng.lenWarn }) s)

/-! ### DEC -/

/-- The parse errors, tested in the order Empty, ZeroStart, Short, and BodyShort last (R131, R140); nothing is written. -/
def Obligations.DecRejectsInOrder : Prop :=
  ∀ (s : State) (raw : List Byte), s.par.ok = true →
    exec .decEmpty s = .next (returned (.error (.engine .emptyInput)) s)
      ∧ exec (.decZeroStart (0x00 :: raw)) s = .next (returned (.error (.engine .zeroStart)) s)
      ∧ (∀ b : Byte, b ≠ 0x00 →
          raw.length + 1 < (if b = s.par.cmdMessage then s.par.hlenLong else s.par.hlenShort) →
          exec (.decShort (b :: raw)) s =
            .next
              (returned
                (.error (.engine (.short (raw.length + 1)
                  (if b = s.par.cmdMessage then s.par.hlenLong else s.par.hlenShort)))) s))
      ∧ (s.par.hlenLong ≤ raw.length + 1 → raw.length + 1 < s.par.hlenLong + s.par.bodyPrefix →
          exec (.decBodyShort (s.par.cmdMessage :: raw)) s =
            .next (returned (.error (.engine (.bodyShort (raw.length + 1 - s.par.hlenLong)))) s))

/-- DEC.FS (R132): nothing masked, no length field, `isSyncOk` only for the canonical answer. -/
def Obligations.DecFsRecord : Prop :=
  ∀ (s : State) (raw : List Byte),
    s.par.ok = true → 1 ≤ raw.length → s.par.hlenShort ≤ raw.length →
    (byteAt raw 0 = s.par.cmdSync ∨ byteAt raw 0 = s.par.cmdSyncAnswer) →
      exec (.decFs raw) s =
        .next
          (returned
            (.record
              { raw0 := byteAt raw 0, command := byteAt raw 0, isPositiveAnswer := false, sequence := byteAt raw 1,
                flags := (byteAt raw 2).setWidth 16, dataLength := 0, payload := raw.drop s.par.hlenShort,
                isSyncOk := decide (raw = [s.par.cmdSyncAnswer, 0x00, s.par.cmdSyncAnswer, 0x00]),
                lenMismatch := decide (raw.length - s.par.hlenShort ≠ 0), body := none }) s)

/-- DEC.F4 (R133): answer bit extracted and masked off, except from the generic error command. Where the rule writes bit 7
and 0x7F the statement has `ANSWER_BIT` and its complement, which they are at the value that R8 gives it (log 9); that a mask of
several bits counts as set when any of them is, is the model's choice (log 33). -/
def Obligations.DecF4Record : Prop :=
  ∀ (s : State) (raw : List Byte),
    s.par.ok = true → 1 ≤ raw.length → s.par.hlenShort ≤ raw.length → byteAt raw 0 ≠ 0x00 →
    byteAt raw 0 ≠ s.par.cmdMessage → byteAt raw 0 ≠ s.par.cmdSync → byteAt raw 0 ≠ s.par.cmdSyncAnswer →
      exec (.decF4 raw) s =
        .next
          (returned
            (.record
              { raw0 := byteAt raw 0
                command := if byteAt raw 0 = s.par.cmdError then byteAt raw 0 else byteAt raw 0 &&& ~~~s.par.answerBit
                isPositiveAnswer := decide (byteAt raw 0 ≠ s.par.cmdError ∧ byteAt raw 0 &&& s.par.answerBit ≠ 0)
                sequence := byteAt raw 1, flags := (byteAt raw 2).setWidth 16, dataLength := (byteAt raw 3).setWidth 16
                payload := raw.drop s.par.hlenShort, isSyncOk := false
                lenMismatch := decide (raw.length - s.par.hlenShort ≠ (byteAt raw 3).toNat), body := none }) s)

/-- DEC.F6 (R137) with its body (R138) and integrity flag (R139), every field little-endian. -/
def Obligations.DecF6Record : Prop :=
  ∀ (s : State) (raw payload : List Byte),
    s.par.ok = true → byteAt raw 0 = s.par.cmdMessage → payload = raw.drop s.par.hlenLong →
    s.par.bodyPrefix ≤ payload.length →
      exec (.decF6 raw) s =
        .next
          (returned
            (.record
              { raw0 := s.par.cmdMessage, command := s.par.cmdMessage, isPositiveAnswer := false
                sequence := byteAt raw 1, flags := byteAt raw 3 ++ byteAt raw 2
                dataLength := byteAt raw 5 ++ byteAt raw 4, payload := payload, isSyncOk := false
                lenMismatch := decide (payload.length ≠ (byteAt raw 4).toNat + 256 * (byteAt raw 5).toNat)
                body :=
                  some
                    { w0 := byteAt payload 3 ++ byteAt payload 2 ++ byteAt payload 1 ++ byteAt payload 0
                      w1 := byteAt payload 7 ++ byteAt payload 6 ++ byteAt payload 5 ++ byteAt payload 4
                      w2 := byteAt payload 11 ++ byteAt payload 10 ++ byteAt payload 9 ++ byteAt payload 8
                      w3 := byteAt payload 15 ++ byteAt payload 14 ++ byteAt payload 13 ++ byteAt payload 12
                      dlc := byteAt payload (s.par.bodyDlcOff + 1) ++ byteAt payload s.par.bodyDlcOff
                      data := payload.drop s.par.bodyPrefix
                      isErrorFrame :=
                        decide
                          ((byteAt payload s.par.bodyDlcOff).toNat + 256 * (byteAt payload (s.par.bodyDlcOff + 1)).toNat
                            ≠ payload.length - s.par.bodyPrefix) } }) s)

/-- DEC of the frame that an accepted ENC.CTRL call returns gives its arguments back, and so it is for an accepted ENC.MSG
call whose payload can hold a body (R142). The command is a request's: no sync answer, not 0x00, without any answer bit (log 33);
the headers have the drawn lengths 4 and 6 that ENC emits (R112, R113). -/
def Obligations.DecReversesEnc : Prop :=
  ∀ (p : Params) (seq seq' : BitVec 8) (command flags length : Nat) (payload bytes : List Byte),
    p.ok = true → p.hlenShort = 4 → p.hlenLong = 6 → command ≠ p.cmdSyncAnswer.toNat → command ≠ p.cmdSync.toNat →
    command ≠ 0 → (command ≠ p.cmdMessage.toNat → BitVec.ofNat 8 command &&& p.answerBit = 0) →
    (command = p.cmdMessage.toNat → p.bodyPrefix ≤ length) →
    encodeFrame p seq command flags length payload = .ok (bytes, seq') →
      ∃ d, decodeFrame p bytes = .ok d
        ∧ d.command.toNat = command ∧ d.isPositiveAnswer = false ∧ d.sequence = seq ∧ d.flags.toNat = flags
        ∧ d.dataLength.toNat = length ∧ d.payload = (if length > 0 then payload else []) ∧ d.lenMismatch = false
        ∧ (d.body.isSome = true ↔ command = p.cmdMessage.toNat)

/-- DEC of a whole frame, such as the queues hold (R40 (I6)): a control frame never fails, a MESSAGE frame fails only with
BodyShort and exactly when its length field is below `BODY_PREFIX`; the lengths agree (R143, R136). -/
def Obligations.QueuedFramesDecode : Prop :=
  ∀ (p : Params) (f : Frame), p.ok = true → f ≠ [] →
    (ControlFrame p f → ∃ d, decodeFrame p f = .ok d ∧ d.lenMismatch = false)
      ∧ (MessageFrame p f →
          if memRead f 4 2 < p.bodyPrefix then decodeFrame p f = .error (.bodyShort (memRead f 4 2))
          else ∃ d, decodeFrame p f = .ok d ∧ d.lenMismatch = false)

/-! ### The reader -/

/-- With a read in flight, a first-byte class row is the byte's step of R161 (for each class and each condition); at the
top of the loop the reader first sees a stop request, else begins the read; stopped, it reads nothing (log 5). -/
def Obligations.ByteRowsOfferTheirByte : Prop :=
  ∀ (s : State) (b : Byte), EngineInv s.par s.eng → s.par.ok = true →
    (s.eng.run = true → s.eng.inflight = true →
        exec (classOf s.par b) s =
          exec
            (if s.eng.cnt = 0 then if b = 0x00 then .rxSkip0 else .rxFirst b
             else if s.eng.cnt + 1 < s.eng.hlen then .rxHdr b
             else if s.eng.hlen ≤ s.eng.cnt then .rxPay b
             else if s.eng.hlen ≠ s.par.hlenShort then .rxLen6 b
             else if byteAt s.eng.acc 0 = s.par.cmdSync ∨ byteAt s.eng.acc 0 = s.par.cmdSyncAnswer then .rxLenSync b
             else .rxLen4 b) s)
      ∧ (s.eng.run = true → s.eng.inflight = false → s.eng.stopReq = false →
          exec (classOf s.par b) s = exec (classOf s.par b) { s with eng.inflight := true })
      ∧ (s.eng.run = true → s.eng.inflight = false → s.eng.stopReq = true →
          exec (classOf s.par b) s = .next { s with eng.run := false })
      ∧ (s.eng.run = false → exec (classOf s.par b) s = .next s)

/-- The seven first-byte rows at an empty accumulator with a read in flight: ZERO is skipped, every other byte starts a
frame with the header length that its raw value selects (R87, R165, R166). -/
def Obligations.FirstByteRowsStartFrames : Prop :=
  ∀ (s : State) (c : BitVec 7),
    s.par.ok = true → s.eng.run = true → s.eng.inflight = true → s.eng.cnt = 0 →
      exec .byteZero s = .next { s with eng.inflight := false, ch.rxStream := s.ch.rxStream ++ [0x00] }
        ∧ exec .byteMessage s =
          .next (buffered s.par.cmdMessage [s.par.cmdMessage] s.par.hlenLong s.par.hlenLong s)
        ∧ exec .byteSyncAnswer s =
          .next (buffered s.par.cmdSyncAnswer [s.par.cmdSyncAnswer] s.par.hlenShort s.par.hlenShort s)
        ∧ exec .byteSync s = .next (buffered s.par.cmdSync [s.par.cmdSync] s.par.hlenShort s.par.hlenShort s)
        ∧ exec .byteError s = .next (buffered s.par.cmdError [s.par.cmdError] s.par.hlenShort s.par.hlenShort s)
        ∧ (c ≠ 0 → (0#1 ++ c : Byte) ≠ s.par.cmdMessage →
            exec (.byteCtrl c) s = .next (buffered (0#1 ++ c) [0#1 ++ c] s.par.hlenShort s.par.hlenShort s))
        ∧ ((1#1 ++ c : Byte) ≠ s.par.cmdMessage →
            exec (.byteCtrlAck c) s = .next (buffered (1#1 ++ c) [1#1 ++ c] s.par.hlenShort s.par.hlenShort s))

/-- The reader's steps that consume no byte: RX.ARM and RX.STOPCHK at the top of an iteration (R160, R162), RX.IDLE and
RX.ERR with a read in flight (R163, R164). Only the bits named are written: the partial frame and the queues stay. -/
def Obligations.StepsThatConsumeNoByte : Prop :=
  ∀ s : State, s.eng.run = true →
    (s.eng.inflight = false → s.eng.stopReq = false → exec .rxArm s = .next { s with eng.inflight := true })
      ∧ (s.eng.inflight = false → s.eng.stopReq = true → exec .rxStopChk s = .next { s with eng.run := false })
      ∧ (s.eng.inflight = true → exec .rxIdle s = .next { s with eng.inflight := false })
      ∧ (s.eng.inflight = true →
          exec .rxErr s = .next { s with eng.run := false, eng.fatal := true, eng.inflight := false })

/-- At an empty accumulator: RX.SKIP0 consumes the byte 0x00 and changes nothing else (R165); RX.FIRST starts a frame with
any other byte and fixes `HLEN`, the long header exactly for the raw MESSAGE command (R166; its 6 and 4 are `HLEN_LONG` and
`HLEN_SHORT` as R8 has them, log 9). -/
def Obligations.FirstByteIsSkippedOrFixesTheHeader : Prop :=
  ∀ s : State, s.par.ok = true → s.eng.run = true → s.eng.inflight = true → s.eng.cnt = 0 →
    exec .rxSkip0 s = .next { s with eng.inflight := false, ch.rxStream := s.ch.rxStream ++ [0x00] }
      ∧ (∀ b : Byte, b ≠ 0x00 →
          exec (.rxFirst b) s =
            .next
              (buffered b [b] (if b = s.par.cmdMessage then s.par.hlenLong else s.par.hlenShort)
                (if b = s.par.cmdMessage then s.par.hlenLong else s.par.hlenShort) s))

/-- RX.HDR (R167): the byte is buffered; `HLEN` and `TOTAL` stay. -/
def Obligations.RxHdrBuffers : Prop :=
  ∀ (s : State) (b : Byte),
    s.eng.run = true → s.eng.inflight = true → s.eng.acc.length = s.eng.cnt → 1 ≤ s.eng.cnt →
    s.eng.cnt + 1 < s.eng.hlen →
      exec (.rxHdr b) s = .next (buffered b (s.eng.acc ++ [b]) s.eng.hlen s.eng.total s)

/-- RX.LEN4 (R168): byte 3 of the header (the byte just read, when the short header has its four bytes) is the payload
length; 0 completes the frame at once. The rule's 4 is `HLEN_SHORT` as R8 has it (log 9). -/
def Obligations.RxLen4ReadsTheLength : Prop :=
  ∀ (s : State) (b : Byte) (f : Frame),
    s.par.ok = true → s.eng.run = true → s.eng.inflight = true → s.eng.acc.length = s.eng.cnt → 1 ≤ s.eng.cnt →
    s.eng.cnt + 1 = s.eng.hlen → s.eng.hlen = s.par.hlenShort → byteAt s.eng.acc 0 ≠ s.par.cmdMessage →
    byteAt s.eng.acc 0 ≠ s.par.cmdSync → byteAt s.eng.acc 0 ≠ s.par.cmdSyncAnswer → f = s.eng.acc ++ [b] →
      exec (.rxLen4 b) s =
          .next
            (if byteAt f 3 = 0x00 then completed b f s.par.hlenShort s
             else buffered b f s.par.hlenShort (s.par.hlenShort + (byteAt f 3).toNat) s)
        ∧ (s.par.hlenShort = 4 → byteAt f 3 = b)

/-- RX.LENSYNC (R169): the last header byte of a sync-coded frame is no length; the frame completes whatever it is. The
rule's 4 is `HLEN_SHORT` as R8 has it (log 9). -/
def Obligations.RxLenSyncCompletes : Prop :=
  ∀ (s : State) (b : Byte),
    s.par.ok = true → s.eng.run = true → s.eng.inflight = true → s.eng.acc.length = s.eng.cnt → 1 ≤ s.eng.cnt →
    s.eng.cnt + 1 = s.eng.hlen → s.eng.hlen = s.par.hlenShort →
    (byteAt s.eng.acc 0 = s.par.cmdSync ∨ byteAt s.eng.acc 0 = s.par.cmdSyncAnswer) →
      exec (.rxLenSync b) s = .next (completed b (s.eng.acc ++ [b]) s.par.hlenShort s)

/-- RX.LEN6 (R170): bytes 4 and 5 of the header (5 is the byte just read, when the long header has its six bytes) are the
payload length, low byte first; 0 completes the frame at once. The rule's 6 is `HLEN_LONG` as R8 has it (log 9). -/
def Obligations.RxLen6ReadsTheLength : Prop :=
  ∀ (s : State) (b : Byte) (f : Frame) (length : Nat),
    s.par.ok = true → s.eng.run = true → s.eng.inflight = true → s.eng.acc.length = s.eng.cnt → 1 ≤ s.eng.cnt →
    s.eng.cnt + 1 = s.eng.hlen → s.eng.hlen = s.par.hlenLong → s.par.hlenLong ≠ s.par.hlenShort →
    byteAt s.eng.acc 0 = s.par.cmdMessage → f = s.eng.acc ++ [b] →
    length = (byteAt f 4).toNat + 256 * (byteAt f 5).toNat →
      exec (.rxLen6 b) s =
          .next
            (if length = 0 then completed b f s.par.hlenLong s
             else buffered b f s.par.hlenLong (s.par.hlenLong + length) s)
        ∧ (s.par.hlenLong = 6 → byteAt f 5 = b)

/-- RX.PAY (R172): the byte is buffered, and completes the frame when the expected total is reached. -/
def Obligations.RxPayBuffersOrCompletes : Prop :=
  ∀ (s : State) (b : Byte),
    s.par.ok = true → s.par.headersFit = true → EngineInv s.par s.eng → s.eng.run = true → s.eng.inflight = true →
    1 ≤ s.eng.cnt → s.eng.hlen ≤ s.eng.cnt →
      exec (.rxPay b) s =
        .next
          (if s.eng.cnt + 1 = s.eng.total then completed b (s.eng.acc ++ [b]) s.eng.total s
           else buffered b (s.eng.acc ++ [b]) s.eng.hlen s.eng.total s)

/-- RX.COMPLETE from the state Complete of R25 with a whole frame in `ACC` (R173), and PUSH of a detached frame (R194):
the frame joins the tail of the queue that its raw first byte selects, or is lost and counted (log 18). -/
def Obligations.CompletionDeliversTheFrame : Prop :=
  ∀ (s : State) (f : Frame), s.par.ok = true →
    (s.eng.run = true → s.eng.acc = f → s.eng.cnt = f.length → s.eng.total = f.length → 1 ≤ s.eng.cnt →
        s.eng.hlen = hlen s.par f → f.length = hlen s.par f + plen s.par f →
        exec .rxComplete s =
          .next
            { s with
              eng := arrive s.par f { s.eng with acc := [], cnt := 0 }
              trace := s.trace ++ arrivalTrace s.par f s.eng
              detached := none })
      ∧ (s.detached = some f →
          exec .push s =
            .next
              { s with
                eng := arrive s.par f s.eng
                trace := s.trace ++ (arrivalTrace s.par f s.eng).tail
                detached := none })

/-- With the invariant, exactly one row of R161 is selected by a received byte, and with a read in flight the other rows
leave the state as it is (that a step which is not enabled changes nothing is the model's reading, log 6). -/
def Obligations.ExactlyOneRowIsEnabled : Prop :=
  ∀ (s : State) (b : Byte), s.par.ok = true → s.par.headersFit = true → EngineInv s.par s.eng →
    [decide (s.eng.cnt = 0 ∧ b = 0x00), decide (s.eng.cnt = 0 ∧ b ≠ 0x00),
        decide (1 ≤ s.eng.cnt ∧ s.eng.cnt + 1 < s.eng.hlen),
        decide (1 ≤ s.eng.cnt ∧ s.eng.cnt + 1 = s.eng.hlen ∧ s.eng.hlen = s.par.hlenShort ∧ ¬SyncStarted s),
        decide (1 ≤ s.eng.cnt ∧ s.eng.cnt + 1 = s.eng.hlen ∧ s.eng.hlen = s.par.hlenShort ∧ SyncStarted s),
        decide (1 ≤ s.eng.cnt ∧ s.eng.cnt + 1 = s.eng.hlen ∧ s.eng.hlen = s.par.hlenLong),
        decide (1 ≤ s.eng.cnt ∧ s.eng.hlen ≤ s.eng.cnt ∧ s.eng.cnt < s.eng.total)].count true = 1
      ∧ (s.eng.cnt ≠ 0 → exec .rxSkip0 s = .next s ∧ exec (.rxFirst b) s = .next s)
      ∧ (¬(1 ≤ s.eng.cnt ∧ s.eng.cnt + 1 < s.eng.hlen) → exec (.rxHdr b) s = .next s)
      ∧ (¬(s.eng.cnt + 1 = s.eng.hlen ∧ s.eng.hlen = s.par.hlenShort ∧ ¬SyncStarted s) →
          exec (.rxLen4 b) s = .next s)
      ∧ (¬(s.eng.cnt + 1 = s.eng.hlen ∧ s.eng.hlen = s.par.hlenShort ∧ SyncStarted s) →
          exec (.rxLenSync b) s = .next s)
      ∧ (¬(s.eng.cnt + 1 = s.eng.hlen ∧ s.eng.hlen = s.par.hlenLong) → exec (.rxLen6 b) s = .next s)
      ∧ (¬(1 ≤ s.eng.cnt ∧ s.eng.hlen ≤ s.eng.cnt ∧ s.eng.cnt < s.eng.total) → exec (.rxPay b) s = .next s)

/-- The dispatch of R161 and the one function of R174 are the same function wherever the invariant holds. -/
def Obligations.DispatchEqualsWholeFunction : Prop :=
  ∀ (s : State) (b : Byte),
    s.par.ok = true → s.par.headersFit = true → EngineInv s.par s.eng → s.detached = none →
    byteStep b s = byteWhole b s

/-- Running the script `rx s` byte by byte from an empty accumulator completes exactly the frames of `Delimit(s)` and
leaves its residue in the accumulator; every frame arrives in order at its queue or is counted as dropped (R179). That each
byte takes one step, RX.ARM and the byte together, is the model's choice (log 5), and so is the script (log 1). -/
def Obligations.FramerComputesDelimit : Prop :=
  ∀ (s : State) (stream : List Byte) (rest : List Turn),
    s.par.ok = true → s.par.headersFit = true → s.eng.run = true → s.eng.stopReq = false → s.eng.cnt = 0 →
    s.eng.acc = [] → s.detached = none →
    s.script = stream.map (fun b => .issue (.rx b)) ++ rest →
      ∃ t, Host.Core.run Sys2Proof.core stream.length s = .next t
        ∧ t.script = rest
        ∧ t.eng.acc = (delimit s.par stream).2
        ∧ t.eng.cnt = (delimit s.par stream).2.length
        ∧ t.eng.cq = (arriveAll s.par (delimit s.par stream).1 s.eng).cq
        ∧ t.eng.mq = (arriveAll s.par (delimit s.par stream).1 s.eng).mq
        ∧ t.eng.dropC = (arriveAll s.par (delimit s.par stream).1 s.eng).dropC
        ∧ t.eng.dropM = (arriveAll s.par (delimit s.par stream).1 s.eng).dropM
        ∧ t.eng.lenWarn = s.eng.lenWarn
        ∧ t.ch.rxStream = s.ch.rxStream ++ stream
        ∧ t.host = s.host ∧ t.eng.seqTx = s.eng.seqTx ∧ t.eng.run = true

/-- A stopped reader takes no step: none of its rows, no offered byte and no turn of its own changes anything (R160). -/
def Obligations.StoppedReaderTakesNoStep : Prop :=
  ∀ (s : State) (i : Instr) (b : Byte),
    s.eng.run = false →
    (i = .rxArm ∨ i = .rxStopChk ∨ i = .rxIdle ∨ i = .rxErr ∨ i = .rxSkip0 ∨ i = .rxFirst b ∨ i = .rxHdr b ∨ i = .rxLen4 b
      ∨ i = .rxLenSync b ∨ i = .rxLen6 b ∨ i = .rxPay b ∨ i = .rxComplete ∨ i = classOf s.par b) →
      exec i s = .next s ∧ (s.script = [] → s.par.ok = true → step s = .next s)

/-- Once a stop is requested, the top of the loop is where the reader ends: its own turn there clears `RUN` and does nothing
else, an offered byte does the same and is not read, and no step of any agent from there consumes a byte (R162). What an
offered byte does there is the model's reading of the script line `rx` (log 5). -/
def Obligations.StopRequestEndsReading : Prop :=
  ∀ s t : State, s.eng.stopReq = true → s.eng.run = true → s.eng.inflight = false → s.par.ok = true →
    (s.script = [] → step s = .next { s with eng.run := false })
      ∧ (∀ b : Byte, exec (classOf s.par b) s = .next { s with eng.run := false })
      ∧ (step s = .next t → t.ch.rxStream = s.ch.rxStream)

/-! ### The transport -/

/-- WR (R190 to R192), whatever the bytes: on success all of them go out in order and nothing else changes but the trace
and the used-up answer; on a closed port nothing goes out and the channel is not asked; after a failed write or flush the
TX stream has grown by some first part of `raw`, the part that the environment chose; with no answer listed it is one of
these outcomes, and which is free (log 13). -/
def Obligations.WrOutcomes : Prop :=
  ∀ (s : State) (raw : List Byte) (answers : List WrAnswer),
    (s.eng.portOpen = true → s.ch.wrAnswers = .ok :: answers →
        exec (.wr raw) s =
          .next
            (returned .ok
              { s with ch.txStream := s.ch.txStream ++ raw, ch.wrAnswers := answers, trace := s.trace ++ [.tx raw] }))
      ∧ (s.eng.portOpen = false → exec (.wr raw) s = .next (returned (.error (.engine .ioWrite)) s))
      ∧ (∀ n : Nat, s.eng.portOpen = true →
          (s.ch.wrAnswers = .writeError n :: answers ∨ s.ch.wrAnswers = .flushError n :: answers) →
          exec (.wr raw) s =
            .next
              (returned (.error (.engine .ioWrite))
                { s with ch.txStream := s.ch.txStream ++ raw.take n, ch.wrAnswers := answers }))
      ∧ (s.eng.portOpen = true → s.ch.wrAnswers = [] →
          exec (.wr raw) s =
              .next
                (returned .ok
                  { s with ch.txStream := s.ch.txStream ++ raw, trace := s.trace ++ [.tx raw], fresh := s.fresh + 1 })
            ∨ ∃ n : Nat,
                exec (.wr raw) s =
                  .next
                    (returned (.error (.engine .ioWrite))
                      { s with ch.txStream := s.ch.txStream ++ raw.take n, fresh := s.fresh + 1 }))

/-- POPC and POPM on a non-empty queue return and remove its head at once (R197 (a), R198, R199). -/
def Obligations.PopTakesTheHead : Prop :=
  ∀ (s : State) (timeout : Nat) (f : Frame) (rest : List Frame), TicketsFresh s →
    (s.eng.cq = f :: rest →
        exec (.popc timeout) s = .next (returned (.frame f) { s with eng.cq := rest }))
      ∧ (s.eng.mq = f :: rest →
          exec (.popm timeout) s = .next (returned (.frame f) { s with eng.mq := rest }))

/-- A pop on an empty queue is pending. Whatever has happened in between, when it goes on it returns the head if there is
one, and None only if there is none; its number is then no longer pending (R197 (b); when it goes on, the script says,
log 15). -/
def Obligations.PopWaitsForAFrameOrGivesUp : Prop :=
  ∀ (s u : State) (timeout : Nat) (t : Task),
    (s.eng.cq = [] → exec (.popc timeout) s = .next (pendingWith [.pop .control timeout, .deliver] .surface [] true s))
      ∧ (s.eng.mq = [] → exec (.popm timeout) s = .next (pendingWith [.pop .message timeout, .deliver] .surface [] true s))
      ∧ (TicketsFresh u → t ∈ u.host.tasks → t.waiting = true → t.acts = [.pop .control timeout, .deliver] →
          (resumeTask t.ticket u).host.reply =
              some { ticket := t.ticket, value := match u.eng.cq with | f :: _ => .frame f | [] => .noFrame }
            ∧ (resumeTask t.ticket u).eng = { u.eng with cq := u.eng.cq.tail }
            ∧ (resumeTask t.ticket u).host.tasks = u.host.tasks.erase t)
      ∧ (TicketsFresh u → t ∈ u.host.tasks → t.waiting = true → t.acts = [.pop .message timeout, .deliver] →
          (resumeTask t.ticket u).host.reply =
              some { ticket := t.ticket, value := match u.eng.mq with | f :: _ => .frame f | [] => .noFrame }
            ∧ (resumeTask t.ticket u).eng = { u.eng with mq := u.eng.mq.tail }
            ∧ (resumeTask t.ticket u).host.tasks = u.host.tasks.erase t)

/-- STOP (R203, R204, R205): phase 1 writes `STOP_REQ` and waits while `RUN = 1`; with `RUN = 0` phase 2 runs at once
(log 16): an open port is closed whether or not the close succeeds, a closed one is left, and nothing else changes but the
session's phase, which goes from ChannelClosed to PortClosed (R231; that it does so also when the close fails, and stays in
every other phase, is the model's choice, log 23). The listed answers of the close are the model's form of the environment's choice (log 13). -/
def Obligations.StopPhases : Prop :=
  ∀ (s : State) (answers : List Bool), TicketsFresh s →
    (s.eng.run = true →
        exec .stop s =
          .next (pendingWith [.stop, .session .portClosed] .closePort [] true { s with eng.stopReq := true }))
      ∧ (s.eng.run = false → s.eng.portOpen = false →
          exec .stop s =
            .next
              (returned .ok { s with eng.stopReq := true, host.session.phase := portPhase s.host.session.phase }))
      ∧ (s.eng.run = false → s.eng.portOpen = true → s.ch.closeAnswers = true :: answers →
          exec .stop s =
            .next
              (returned .ok
                { s with
                  eng.stopReq := true, eng.portOpen := false, ch.closeAnswers := answers
                  host.session.phase := portPhase s.host.session.phase }))
      ∧ (s.eng.run = false → s.eng.portOpen = true → s.ch.closeAnswers = false :: answers →
          exec .stop s =
            .next
              (returned (.error (.engine .ioClose))
                { s with
                  eng.stopReq := true, eng.portOpen := false, ch.closeAnswers := answers
                  host.session.phase := portPhase s.host.session.phase }))
      ∧ (s.eng.run = false → s.eng.portOpen = true → s.ch.closeAnswers = [] →
          ∃ v, (v = .ok ∨ v = .error (.engine .ioClose))
            ∧ exec .stop s =
              .next
                (returned v
                  { s with
                    eng.stopReq := true, eng.portOpen := false, fresh := s.fresh + 1
                    host.session.phase := portPhase s.host.session.phase }))

/-- A STOP in progress, a host thread's own or the one that a shutdown comes to: when it goes on it requests the stop if it
has not yet, and stays pending while the reader runs, with nothing else changed in the engine; once the reader has stopped
it closes the port, whether or not the close succeeds, and is no longer pending (R203, R204, R205 (a), R62, R230). The
session's phase goes from ChannelClosed to PortClosed (R231; also when the close fails, and from no other phase: the model's
choice, log 23). -/
def Obligations.StopJoinsBeforeClosing : Prop :=
  ∀ (s : State) (t : Task),
    TicketsFresh s → t ∈ s.host.tasks → t.acts = [.stop, .session .portClosed] → t.handler = .closePort →
      (s.eng.run = true →
          resumeTask t.ticket s =
            continued t { t with waiting := true } { s with eng.stopReq := s.eng.stopReq || !t.waiting })
        ∧ (s.eng.run = false →
            (resumeTask t.ticket s).eng =
                { s.eng with stopReq := s.eng.stopReq || !t.waiting, portOpen := false }
              ∧ (resumeTask t.ticket s).ch.txStream = s.ch.txStream
              ∧ (resumeTask t.ticket s).host.tasks = s.host.tasks.erase t
              ∧ (resumeTask t.ticket s).host.session =
                { s.host.session with phase := portPhase s.host.session.phase }
              ∧ ∃ v, (resumeTask t.ticket s).host.reply = some { ticket := t.ticket, value := v }
                  ∧ (v = .ok ∨ (v = .error (.engine .ioClose) ∧ s.eng.portOpen = true)))

/-- RST (R310) with the reader stopped and nothing pending (R311): every element of R39 has its reset value (`HLEN` and
`TOTAL` any), and the streams, the host's pending operations and the parameters stay.
That it leaves the host's side is the model's choice (log 17). -/
def Obligations.RstResetsTheEngine : Prop :=
  ∀ s : State, s.eng.run = false → s.host.tasks = [] →
    ∃ t, exec .rst s = .next t ∧ JustReset t.eng ∧ t.ch = s.ch ∧ t.par = s.par ∧ t.script = s.script
      ∧ t.trace = s.trace ∧ t.detached = none ∧ t.host.session = s.host.session ∧ t.host.tasks = []
      ∧ t.host.reply = some { ticket := s.host.nextTicket, value := .ok }

/-! ### The host contract -/

/-- A request begins with ENC of its frame and is pending before its WR: XCHG (which ends with the EncodeError if there is
one, R221 line 1), deviceOpen, deviceClose, channelOpen, channelClose and shutdown, each with its own command and with
what is left of it; deviceOpen and channelOpen as what drives the session's transitions from Synced and Configured (R231).
The flags and payloads of the requests without one are decision D37 of the spec.
Pieces and numbers of pending operations are the model's (log 27, log 28, log 29). -/
def Obligations.RequestsBeginWithTheirFrame : Prop :=
  ∀ s : State, s.par.ok = true →
    (∀ (command flags length : Nat) (payload bytes : List Byte) (seq : BitVec 8),
        encodeFrame s.par s.eng.seqTx command flags length payload = .ok (bytes, seq) →
        exec (.xchg command flags length payload) s =
          .next
            (pendingWith [.wr, .pop .control s.par.tCtrl, .answer command] .surface bytes false
              { s with eng.seqTx := seq }))
      ∧ (∀ (command flags length : Nat) (payload : List Byte) (c : Cause), TicketsFresh s →
          encodeFrame s.par s.eng.seqTx command flags length payload = .error c →
          exec (.xchg command flags length payload) s = .next (returned (.error (.engine c)) s))
      ∧ exec .deviceOpen s =
        .next
          (requested s.par.cmdDeviceOpen.toNat 0 0 []
            [.wr, .pop .control s.par.tCtrl, .answer s.par.cmdDeviceOpen.toNat, .session .deviceOpened]
            (.transition .synced) s)
      ∧ exec .deviceClose s =
        .next
          (requested s.par.cmdDeviceClose.toNat 0 0 []
            [.wr, .pop .control s.par.tCtrl, .answer s.par.cmdDeviceClose.toNat, .session .deviceClosed] .surface s)
      ∧ exec .channelOpen s =
        .next
          (requested s.par.cmdChannelOpen.toNat 0 0 []
            [.wr, .pop .control s.par.tCtrl, .answer s.par.cmdChannelOpen.toNat, .session .channelOpened]
            (.transition .configured) s)
      ∧ exec .channelClose s =
        .next
          (requested s.par.cmdChannelClose.toNat 0 0 []
            [.wr, .pop .control s.par.tCtrl, .answer s.par.cmdChannelClose.toNat, .session .channelClosed] .closeChannel s)
      ∧ exec .shutdown s =
        .next
          (requested s.par.cmdChannelClose.toNat 0 0 []
            [.wr, .pop .control s.par.tCtrl, .answer s.par.cmdChannelClose.toNat, .session .channelClosed, .closing,
              .stop, .session .portClosed] .shutdown s)

/-- setBitrate with a supported rate, setMode with a mode and setFilter begin with one frame each: its command, one byte
or the four 32-bit little-endian fields index, type, id, mask as payload (R224, R225, R226). Each is a part of the configure
step, which drives the session's transition from DeviceOpen (R231).
What each request leaves pending is the model's choice of pieces (log 27), and so is which of them alone completes, and which
fails, the session's configure step (log 23). -/
def Obligations.ConfigurationRequestsCarryTheirPayload : Prop :=
  ∀ s : State, s.par.ok = true →
    (∀ (bps : Nat) (code : Byte), s.par.bitrateTable.lookup bps = some code → s.par.configFlags ≤ 255 →
        exec (.setBitrate bps) s =
          .next
            (requested s.par.cmdChannelConfig.toNat s.par.configFlags 1 [code]
              [.wr, .pop .control s.par.tCtrl, .answer s.par.cmdChannelConfig.toNat, .session (.bitrate bps),
                .session .configured] (.transition .deviceOpen) s))
      ∧ (∀ (m : Mode) (code : Byte), s.par.modeFlags ≤ 255 →
          code = (match m with | .normal => s.par.modeNormal | .listen => s.par.modeListen | .loopback => s.par.modeLoopback) →
          exec (.setMode (.mode m)) s =
            .next
              (requested s.par.cmdSetMode.toNat s.par.modeFlags 1 [code]
                [.wr, .pop .control s.par.tCtrl, .answer s.par.cmdSetMode.toNat, .session (.mode m)]
                (.transition .deviceOpen) s))
      ∧ (∀ (index : BitVec 32) (f : Filter) (payload : List Byte), s.par.filterFlags ≤ 255 → payload.length = 16 →
          memRead payload 0 4 = index.toNat →
          memRead payload 4 4 = (match f.kind with | .std11 => s.par.filterType11 | .ext29 => s.par.filterType29).toNat →
          memRead payload 8 4 = f.id.toNat → memRead payload 12 4 = f.mask.toNat →
          exec (.setFilter index f) s =
            .next
              (requested s.par.cmdSetFilter.toNat s.par.filterFlags 16 payload
                [.wr, .pop .control s.par.tCtrl, .answer s.par.cmdSetFilter.toNat]
                (.transition .deviceOpen) s))

/-- The host-level errors that are raised before anything is encoded or written: an unsupported rate (with the valid set),
no mode, setBitrateFromRegister always, and construct with both a rate and a BTR register, which is an initialization
error and leaves the session unusable (R224, R225, R228). The first three fail the configure step of a session whose device is
open, which is never usable then; in any other phase the session stays (R231).
When the double rate is noticed, the phase `failed`, and that the mode and the register count as the configure step on their
own, are the model's choice (log 22, log 23). -/
def Obligations.ConfigurationErrorsSendNothing : Prop :=
  ∀ s : State, TicketsFresh s →
    (∀ bps, s.par.bitrateTable.lookup bps = none →
        exec (.setBitrate bps) s =
          .next
            (returned (.error (.invalidBitrate (s.par.bitrateTable.map Prod.fst)))
              { s with host.session.phase := failedPhase .deviceOpen s.host.session.phase }))
      ∧ (∀ n,
          exec (.setMode (.other n)) s =
            .next
              (returned (.error .invalidMode)
                { s with host.session.phase := failedPhase .deviceOpen s.host.session.phase }))
      ∧ (∀ raw,
          exec (.setBitrateFromRegister raw) s =
            .next
              (returned (.error .unimplemented)
                { s with host.session.phase := failedPhase .deviceOpen s.host.session.phase }))
      ∧ (∀ bps raw mode filters,
          exec (.construct { bitrate := some bps, btr := some raw, mode := mode, filters := filters }) s =
            .next (returned (.error (.initError .bitrateAndBtr)) { s with host.session.phase := .failed }))

/-- sync begins with the sync frame and `SEQ_TX` 0 (R222 line 1), and drives the session's transition from Unsynced (R231).
Construct with at most one of rate and BTR register begins
with RST and a new session (R229 line 0), where the reader has stopped and nothing is pending (R311, U9), and what it leaves
pending are its requests in order: the sync; the device's opening; the rate (an unsupported one, or none at all, fails there
with InvalidBitrate, a BTR register alone with Unimplemented: R224, R228, R229 line 3); the mode if one is given (any other
value fails with InvalidMode, R225); one setFilter for each filter in the caller's order, with the indices from 0 on and the
fields index, type, id and mask, four little-endian bytes each (R226); the channel's opening, with which the session is
Running and the result ok. With a rate, without a mode and without filters these are the exchanges of R316.
The order inside the configure step is the spec's own reading; what a construction without a rate or without a mode does, the
pieces and the session are the model's (log 22, log 23, log 27). -/
def Obligations.SyncAndConstructBegin : Prop :=
  ∀ s : State, s.par.ok = true →
    exec .sync s =
        .next
          (pendingWith [.wr, .pop .control s.par.tCtrl, .syncAnswer, .seqClr, .session .synced] (.transition .unsynced)
            [s.par.cmdSync, 0x00, s.par.cmdSync, 0x00] false { s with eng.seqTx := 0 })
      ∧ (∀ c : BusConfig, s.eng.run = false → s.host.tasks = [] → (c.bitrate = none ∨ c.btr = none) →
          ∃ t task,
            exec (.construct c) s = .next t ∧ JustReset t.eng ∧ t.ch = s.ch ∧ t.par = s.par ∧ t.script = s.script
              ∧ t.trace = s.trace ∧ t.host.session = Session.fresh
              ∧ t.host.reply = some { ticket := s.host.nextTicket, value := .pending }
              ∧ t.host.tasks = [task] ∧ task.ticket = s.host.nextTicket ∧ task.handler = .init
              ∧ task.acts =
                [.enc s.par.cmdSync.toNat 0 0 [], .wr, .pop .control s.par.tCtrl, .syncAnswer, .seqClr, .session .synced]
                ++ exchange s.par s.par.cmdDeviceOpen 0 0 [] ++ [.session .deviceOpened]
                ++ ratePieces s.par c.bitrate c.btr ++ modePieces s.par c.mode ++ filterPieces s.par c.filters
                ++ [.session .configured]
                ++ exchange s.par s.par.cmdChannelOpen 0 0 [] ++ [.session .channelOpened]
                ++ [.session .running, .succeed])

/-- send (R250) begins with ENC of a MESSAGE frame whose payload is the `BODY_PREFIX` bytes and the data: the DLC at its offset,
the arbitration id and the flag word in the words that the layout names (where the layout can be read back, log 9, the body
decodes to the frame). Then only its WR is left (lines 3 and 4): when that succeeds the frame is in the TX stream, the result
is ok, and nothing is pending any more. A frame too large for the 16-bit length ends with EncodeError(BadField).
The layout is a parameter (log 8), the words that no rule gives are free (log 25), and that the WR is a turn of its own, with
the listed answer of the channel, is the model's choice (log 13, log 27). -/
def Obligations.SendBuildsTheBody : Prop :=
  ∀ (s : State) (f : CanFrame),
    s.par.ok = true → TicketsFresh s → s.par.channelFlags ≤ 65535 →
      (s.par.bodyPrefix + f.data.length ≤ 65535 →
        ∃ t task body,
          exec (.send f) s = .next t ∧ t.host.tasks = s.host.tasks ++ [task] ∧ task.ticket = s.host.nextTicket
            ∧ task.acts = [.wr] ∧ task.handler = .surface ∧ task.value = .ok
            ∧ task.raw = headerF6 s.par s.eng.seqTx s.par.channelFlags (s.par.bodyPrefix + f.data.length) ++ body
            ∧ body.length = s.par.bodyPrefix + f.data.length
            ∧ (decodeBody s.par body).data = f.data
            ∧ (decodeBody s.par body).dlc.toNat = f.data.length
            ∧ (decodeBody s.par body).isErrorFrame = false
            ∧ (s.par.bodyFits = true → (receivedOf s.par (decodeBody s.par body)).frame = f)
            ∧ t.eng = { s.eng with seqTx := s.eng.seqTx + 1 } ∧ SameBeside s t
            ∧ (∀ answers, s.eng.portOpen = true → s.ch.wrAnswers = .ok :: answers →
                (resumeTask s.host.nextTicket t).ch =
                    { s.ch with txStream := s.ch.txStream ++ task.raw, wrAnswers := answers }
                  ∧ (resumeTask s.host.nextTicket t).trace = s.trace ++ [.tx task.raw]
                  ∧ (resumeTask s.host.nextTicket t).eng = t.eng
                  ∧ (resumeTask s.host.nextTicket t).host.session = s.host.session
                  ∧ (resumeTask s.host.nextTicket t).host.reply = some { ticket := s.host.nextTicket, value := .ok }
                  ∧ (resumeTask s.host.nextTicket t).host.tasks = s.host.tasks))
        ∧ (65535 < s.par.bodyPrefix + f.data.length →
          ∃ t, exec (.send f) s = .next t
            ∧ t.host.reply =
              some { ticket := s.host.nextTicket, value := .error (.engine (.badField false true false)) }
            ∧ t.host.tasks = s.host.tasks ∧ t.eng = s.eng ∧ SameBeside s t)

/-- recv (R251): pending while `MQ` is empty, with the pop and the decoding left; with a frame in `MQ` it takes the head and is
pending with the decoding left. A recv that waits takes, when it goes on, the frame that has arrived (R197 (b1)); if `MQ` is
still empty it gives up and its result is (None, false) (R197 (b2), R251 line 1). The decoding, of whichever frame, returns the
CAN frame of the body, whatever its integrity flag says (then the trace has the warning), or the ParseError; either way the
operation is no longer pending.
That a waiting recv gives up at the turn that resumes it, and that None is returned, like a frame, in two pieces with a pending
state between them where R251 line 1 returns at once, are the model's choice (log 15, log 27); so are the form of the
returned frame and the free `filtered` (log 26). -/
def Obligations.RecvReturnsTheCanFrame : Prop :=
  ∀ (s : State) (timeout : Nat), TicketsFresh s →
    (s.eng.mq = [] →
        exec (.recv timeout) s = .next (pendingWith [.pop .message timeout, .received] .surface [] true s))
      ∧ (∀ f rest, s.eng.mq = f :: rest →
          ∃ t task, exec (.recv timeout) s = .next t ∧ t.eng = { s.eng with mq := rest } ∧ SameBeside s t
            ∧ t.host.reply = some { ticket := s.host.nextTicket, value := .pending }
            ∧ t.host.tasks = s.host.tasks ++ [task] ∧ task.ticket = s.host.nextTicket ∧ task.acts = [.received]
            ∧ task.handler = .surface ∧ task.got = some f
            ∧ (resumeTask s.host.nextTicket t).eng = t.eng
            ∧ (resumeTask s.host.nextTicket t).host.tasks = s.host.tasks
            ∧ (∀ d b, decodeFrame s.par f = .ok d → d.body = some b →
                ∃ filtered,
                  (resumeTask s.host.nextTicket t).host.reply =
                    some { ticket := s.host.nextTicket, value := .received (some (receivedOf s.par b)) filtered }
                    ∧ (resumeTask s.host.nextTicket t).trace =
                      s.trace ++ if b.isErrorFrame then [.warning .integrityWarn f] else [])
            ∧ (∀ c, decodeFrame s.par f = .error c →
                (resumeTask s.host.nextTicket t).host.reply =
                  some { ticket := s.host.nextTicket, value := .error (.engine c) }))
      ∧ (∀ t : Task, t ∈ s.host.tasks → t.acts = [.pop .message timeout, .received] → t.waiting = true →
          (∀ f rest, s.eng.mq = f :: rest →
              resumeTask t.ticket s =
                continued t { t with acts := [.received], got := some f, waiting := false } { s with eng.mq := rest })
            ∧ (s.eng.mq = [] →
                resumeTask t.ticket s = continued t { t with acts := [.received], got := none, waiting := false } s
                  ∧ resumeTask t.ticket (resumeTask t.ticket s) = ended t (.received none false) s))
      ∧ (∀ (t : Task) (f : Frame), t ∈ s.host.tasks → t.acts = [.received] → t.got = some f →
          (∀ d b, decodeFrame s.par f = .ok d → d.body = some b →
              ∃ filtered fresh,
                resumeTask t.ticket s =
                  ended t (.received (some (receivedOf s.par b)) filtered)
                    { s with
                      trace := s.trace ++ if b.isErrorFrame then [.warning .integrityWarn f] else []
                      fresh := fresh })
            ∧ (∀ c, decodeFrame s.par f = .error c → resumeTask t.ticket s = failed (.engine c) t s))

/-- A whole exchange (R221), and each of its pieces in progress, in whichever operation (one of its own, a request, a send, a
construct, a shutdown) and whatever is left of that operation and has happened in between.
The whole: the pending task is scheduled four times, the answer being at the head of `CQ` when it pops;
the frame goes out, the answer is removed, and the result is decided by the answer alone: its record when the command
matches and the answer is positive, else the error that the first failing comparison names.
The pieces: ENC takes the next tag, or fails with its EncodeError; WR sends the frame, or fails with IOError(Write) after some
first part of it, on a closed port with none of it; the pop takes whatever is at the head of `CQ` when it goes on, so an answer
that arrived after the request was issued; an answer that does not parse is a ParseError, one that compares wrong that error
(lines 5 to 7), and a positive one is the record with which the operation proceeds. What is done with an error is the
operation's own (`failed`).
The turns at which it goes on and the listed channel answer are the model's (log 13, log 27). -/
def Obligations.ExchangeIsDecidedByTheHeadOfCQ : Prop :=
  (∀ (s : State) (command flags length : Nat) (payload : List Byte) (f : Frame) (rest : List Frame) (d : Decoded)
      (answers : List WrAnswer),
      s.par.ok = true → TicketsFresh s → s.eng.portOpen = true → s.ch.wrAnswers = .ok :: answers →
      s.par.inRange command = true → command ≠ s.par.cmdMessage.toNat → flags ≤ 255 → length ≤ 255 →
      (length > 0 → payload.length = length) → s.eng.cq = f :: rest → decodeFrame s.par f = .ok d →
        ∃ t, exec (.xchg command flags length payload) s = .next t
          ∧ (resumeTask s.host.nextTicket (resumeTask s.host.nextTicket (resumeTask s.host.nextTicket t))) =
              returned
                (if d.command.toNat ≠ command then .error .commandMismatch
                 else if d.isPositiveAnswer then .record d else .error .negativeAnswer)
                { s with
                  eng.seqTx := s.eng.seqTx + 1, eng.cq := rest
                  ch.txStream :=
                    s.ch.txStream ++ withPayload (headerF4 command s.eng.seqTx flags length) length payload
                  ch.wrAnswers := answers
                  trace := s.trace ++ [.tx (withPayload (headerF4 command s.eng.seqTx flags length) length payload)] })
    ∧ (∀ (s : State) (t : Task) (command flags length : Nat) (payload : List Byte) (rest : List Act),
        TicketsFresh s → t ∈ s.host.tasks → t.acts = .enc command flags length payload :: rest →
          (∀ bytes seq, encodeFrame s.par s.eng.seqTx command flags length payload = .ok (bytes, seq) →
              resumeTask t.ticket s = proceeds t { t with raw := bytes } rest { s with eng.seqTx := seq })
            ∧ (∀ c, encodeFrame s.par s.eng.seqTx command flags length payload = .error c →
                resumeTask t.ticket s = failed (.engine c) t s))
    ∧ (∀ (s : State) (t : Task) (rest : List Act),
        TicketsFresh s → t ∈ s.host.tasks → t.acts = .wr :: rest →
          (∀ answers, s.eng.portOpen = true → s.ch.wrAnswers = .ok :: answers →
              resumeTask t.ticket s =
                proceeds t t rest
                  { s with
                    ch.txStream := s.ch.txStream ++ t.raw, ch.wrAnswers := answers, trace := s.trace ++ [.tx t.raw] })
            ∧ (s.eng.portOpen = false → resumeTask t.ticket s = failed (.engine .ioWrite) t s)
            ∧ (∀ n answers, s.eng.portOpen = true →
                (s.ch.wrAnswers = .writeError n :: answers ∨ s.ch.wrAnswers = .flushError n :: answers) →
                resumeTask t.ticket s =
                  failed (.engine .ioWrite) t
                    { s with ch.txStream := s.ch.txStream ++ t.raw.take n, ch.wrAnswers := answers }))
    ∧ (∀ (s : State) (t : Task) (timeout : Nat) (rest : List Act),
        TicketsFresh s → t ∈ s.host.tasks → t.acts = .pop .control timeout :: rest →
          (∀ f frames, s.eng.cq = f :: frames →
              resumeTask t.ticket s = proceeds t { t with got := some f } rest { s with eng.cq := frames })
            ∧ (s.eng.cq = [] → t.waiting = false → resumeTask t.ticket s = continued t { t with waiting := true } s)
            ∧ (s.eng.cq = [] → t.waiting = true → resumeTask t.ticket s = proceeds t { t with got := none } rest s))
    ∧ (∀ (s : State) (t : Task) (command : Nat) (rest : List Act) (f : Frame),
        TicketsFresh s → t ∈ s.host.tasks → t.acts = .answer command :: rest → t.got = some f →
          (∀ c, decodeFrame s.par f = .error c → resumeTask t.ticket s = failed (.engine c) t s)
            ∧ (∀ d, decodeFrame s.par f = .ok d → d.command.toNat ≠ command →
                resumeTask t.ticket s = failed .commandMismatch t s)
            ∧ (∀ d, decodeFrame s.par f = .ok d → d.command.toNat = command → d.isPositiveAnswer = false →
                resumeTask t.ticket s = failed .negativeAnswer t s)
            ∧ (∀ d, decodeFrame s.par f = .ok d → d.command.toNat = command → d.isPositiveAnswer = true →
                resumeTask t.ticket s = proceeds t { t with value := .record d } rest s))

/-- The sync handshake (R222): with `f` at the head of `CQ` when it pops, sync succeeds exactly when `f` is the canonical
sync answer; then `SEQ_TX` is 0, the result is ok, and of the session `synchronized` is set and the phase goes from Unsynced to
Synced, from no other phase (R231). Any other frame that decodes is SyncFail, after which an Unsynced session is never usable
(R231); in any other phase the session stays.
The same of the pieces in progress, in a sync of its own or inside a construct: the canonical answer lets the operation go on,
any other frame that decodes fails it with SyncFail, one that does not parse with its ParseError, and SEQCLR writes 0.
The turns at which it goes on and the listed channel answer are the model's (log 13, log 27), and so is the phase of a session
that syncs again (log 23). -/
def Obligations.SyncSucceedsOnTheCanonicalAnswer : Prop :=
  (∀ (s : State) (f : Frame) (rest : List Frame) (d : Decoded) (answers : List WrAnswer),
      s.par.ok = true → TicketsFresh s → s.eng.portOpen = true → s.ch.wrAnswers = .ok :: answers →
      s.eng.cq = f :: rest → decodeFrame s.par f = .ok d →
        ∃ t u, exec .sync s = .next t
          ∧ u = resumeTask s.host.nextTicket (resumeTask s.host.nextTicket (resumeTask s.host.nextTicket t))
          ∧ t.eng = { s.eng with seqTx := 0 }
          ∧ u.ch.txStream = s.ch.txStream ++ [s.par.cmdSync, 0x00, s.par.cmdSync, 0x00]
          ∧ u.eng = { s.eng with seqTx := 0, cq := rest }
          ∧ (f = [s.par.cmdSyncAnswer, 0x00, s.par.cmdSyncAnswer, 0x00] →
              (resumeTask s.host.nextTicket u).eng = u.eng
                ∧ (resumeTask s.host.nextTicket u).ch = u.ch
                ∧ (resumeTask s.host.nextTicket u).host.session =
                  { s.host.session with
                    synchronized := true
                    phase := if s.host.session.phase = .unsynced then .synced else s.host.session.phase }
                ∧ (resumeTask s.host.nextTicket u).host.reply = some { ticket := s.host.nextTicket, value := .ok }
                ∧ (resumeTask s.host.nextTicket u).host.tasks = s.host.tasks)
          ∧ (f ≠ [s.par.cmdSyncAnswer, 0x00, s.par.cmdSyncAnswer, 0x00] →
              u.host.reply = some { ticket := s.host.nextTicket, value := .error .syncFail }
                ∧ u.host.session = { s.host.session with phase := failedPhase .unsynced s.host.session.phase }
                ∧ u.host.tasks = s.host.tasks))
    ∧ (∀ (s : State) (t : Task) (f : Frame) (rest : List Act),
        s.par.ok = true → TicketsFresh s → t ∈ s.host.tasks → t.acts = .syncAnswer :: rest → t.got = some f →
          (∀ d, decodeFrame s.par f = .ok d → f = [s.par.cmdSyncAnswer, 0x00, s.par.cmdSyncAnswer, 0x00] →
              resumeTask t.ticket s = proceeds t t rest s)
            ∧ (∀ d, decodeFrame s.par f = .ok d → f ≠ [s.par.cmdSyncAnswer, 0x00, s.par.cmdSyncAnswer, 0x00] →
                resumeTask t.ticket s = failed .syncFail t s)
            ∧ (∀ c, decodeFrame s.par f = .error c → resumeTask t.ticket s = failed (.engine c) t s))
    ∧ (∀ (s : State) (t : Task) (rest : List Act), TicketsFresh s → t ∈ s.host.tasks →
        (t.acts = .seqClr :: rest → resumeTask t.ticket s = proceeds t t rest { s with eng.seqTx := 0 })
          ∧ (t.acts = .seqClr :: .session .synced :: rest →
              resumeTask t.ticket s =
                proceeds t t rest
                  { s with
                    eng.seqTx := 0
                    host.session.synchronized := true
                    host.session.phase := if s.host.session.phase = .unsynced then .synced else s.host.session.phase }))

/-- Without an answer an exchange and a sync fail with the host's Timeout (R221 line 4, R222 line 3, R233), whichever operation
they are part of: the pop's None is no engine error (R278), and nothing in the engine changes. In an operation of its own the
Timeout is the result, and where it drives a transition of the session from the phase the session is in, that session is never
usable (R231).
The pieces are the model's (log 27). -/
def Obligations.NoAnswerIsATimeout : Prop :=
  ∀ (s : State) (t : Task) (command : Nat) (rest : List Act),
    TicketsFresh s → t ∈ s.host.tasks → t.got = none →
    (t.acts = .answer command :: rest ∨ t.acts = .syncAnswer :: rest) →
      resumeTask t.ticket s = failed .timeout t s ∧ (resumeTask t.ticket s).eng = s.eng
        ∧ (t.handler = .surface → resumeTask t.ticket s = ended t (.error .timeout) s)
        ∧ (∀ source, t.handler = .transition source →
            resumeTask t.ticket s =
              ended t (.error .timeout) { s with host.session.phase := failedPhase source s.host.session.phase })

/-- Whatever piece of an operation fails, and however, the operation ends with that error as its result, and the engine is
as the failed piece left it; but inside a shutdown's channelClose the error is ignored and STOP is what is left (R230).
A channelClose of its own leaves the channel closed all the same (R227), and so does a shutdown's, which goes on to STOP also
when it succeeds (what that STOP does is said of every STOP in progress); a STOP leaves the port closed all the same. A
construct ends with an initialization error and the session is unusable (R229, R231), also where it comes to a configuration
that it cannot send (R224, R225, R228). An operation of its own that drives a transition of the session, and fails in that
transition's source phase, leaves the session never usable too (R231). Any other failing operation leaves the session as it is.
That what fails in another phase is no failed transition, what shutdown then returns, and the phase `failed` are the model's
choice (log 23, log 30). -/
def Obligations.ShutdownGoesOnAndConstructAborts : Prop :=
  (∀ (s u : State) (t : Task) (a : Act) (rest : List Act) (e : HostError),
      TicketsFresh s → t ∈ s.host.tasks → t.acts = a :: rest → runAct a t s = .fail e u →
        (t.handler = .surface → resumeTask t.ticket s = ended t (.error e) u ∧ u.host.session = s.host.session)
          ∧ (∀ source, t.handler = .transition source →
              resumeTask t.ticket s =
                ended t (.error e)
                  { u with
                    host.session := { s.host.session with phase := failedPhase source s.host.session.phase } })
          ∧ (t.handler = .closeChannel →
              resumeTask t.ticket s =
                ended t (.error e)
                  { u with
                    host.session :=
                      { s.host.session with channelOpen := false, phase := closedPhase s.host.session.phase } })
          ∧ (t.handler = .shutdown →
              resumeTask t.ticket s =
                continued t { t with acts := [.stop, .session .portClosed], handler := .closePort, waiting := false }
                  { u with
                    host.session :=
                      { s.host.session with channelOpen := false, phase := closedPhase s.host.session.phase } })
          ∧ (t.handler = .closePort →
              resumeTask t.ticket s =
                ended t (.error e)
                  { u with host.session := { s.host.session with phase := portPhase s.host.session.phase } })
          ∧ (t.handler = .init →
              resumeTask t.ticket s =
                ended t (.error (.initError e)) { u with host.session := { s.host.session with phase := .failed } }))
    ∧ (∀ (s : State) (t : Task) (rest : List Act) (e : HostError),
        TicketsFresh s → t ∈ s.host.tasks → t.acts = .fail e :: rest →
          resumeTask t.ticket s = failed e t s
            ∧ (t.handler = .init →
                resumeTask t.ticket s = ended t (.error (.initError e)) { s with host.session.phase := .failed }))
    ∧ (∀ (s : State) (t : Task) (command : Nat) (f : Frame) (d : Decoded),
        TicketsFresh s → t ∈ s.host.tasks →
        t.acts = [.answer command, .session .channelClosed, .closing, .stop, .session .portClosed] →
        t.got = some f → decodeFrame s.par f = .ok d → d.command.toNat = command → d.isPositiveAnswer = true →
          resumeTask t.ticket s =
            continued t
              { t with
                acts := [.stop, .session .portClosed], handler := .closePort, value := .record d, waiting := false }
              { s with
                host.session.channelOpen := false, host.session.phase := closedPhase s.host.session.phase })

/-! ### The machine as a whole -/

/-- The invariants of R40 hold at reset (the values of `HLEN` and `TOTAL` there are the model's, log 10, and do not
matter), and so do those of the pending operations, of which there is none (the model's own fields, log 12, log 29). -/
def Obligations.ResetMeetsTheInvariant : Prop :=
  Inv State.reset ∧ TicketsFresh State.reset ∧ SessionsBegun State.reset

/-- The invariants of R40 are kept by every step, whichever agent takes it, under every parameter record whose headers have
room for their fields (log 9). -/
def Obligations.EveryStepKeepsTheInvariant : Prop :=
  ∀ s t : State, s.par.headersFit = true → Inv s → step s = .next t → Inv t

/-- Every step keeps the numbers of the pending host operations distinct and used up (the model's own field, log 29). -/
def Obligations.EveryStepKeepsTicketsFresh : Prop :=
  ∀ s t : State, TicketsFresh s → step s = .next t → TicketsFresh t

/-- Queues are first-in first-out (R202, O2): a step leaves a queue as it is, adds one frame at its tail, takes its head, or
is a RST, presented or resumed or the first piece of a construct. No step reorders, changes or duplicates a stored frame
(R52). -/
def Obligations.QueuesAreFifo : Prop :=
  ∀ s t : State, s.detached = none → step s = .next t →
    ((ResetTurn s ∧ JustReset t.eng)
      ∨ ((t.eng.cq = s.eng.cq ∨ (∃ f, t.eng.cq = s.eng.cq ++ [f]) ∨ (∃ f, s.eng.cq = f :: t.eng.cq))
        ∧ (t.eng.mq = s.eng.mq ∨ (∃ f, t.eng.mq = s.eng.mq ++ [f]) ∨ (∃ f, s.eng.mq = f :: t.eng.mq))
        ∧ (t.eng.cq = s.eng.cq ∨ t.eng.mq = s.eng.mq)))

/-- Only RST clears `STOP_REQ` and `FATAL`, starts a stopped reader or opens a closed port (R29, R285): only in a turn that
presents RST or construct, or resumes an operation whose next piece is RST, and then the engine is as after reset (R311;
RST in every state is the model's choice, log 17). And only a construct makes another session of one that is never usable: it
is "never resurrected mid-life" (R231, R285), whatever step is taken. There a construct's new session stands in its first step
(log 27), so that no pending operation has still to begin one, which every step keeps; that a construct makes a new session at
all is the model's choice (log 23). -/
def Obligations.OnlyRstRevives : Prop :=
  ∀ s t : State, step s = .next t →
    ((ResetTurn s ∧ JustReset t.eng)
      ∨ ((s.eng.stopReq = true → t.eng.stopReq = true) ∧ (s.eng.fatal = true → t.eng.fatal = true)
        ∧ (s.eng.run = false → t.eng.run = false) ∧ (s.eng.portOpen = false → t.eng.portOpen = false)))
      ∧ (SessionsBegun s →
          SessionsBegun t
            ∧ (s.host.session.phase = .failed →
                t.host.session.phase = .failed
                  ∨ ∃ p c, fetchTurn s = .packet p ∧ decode s.par p = .construct c))

/-- `SEQ_TX` is only kept, advanced by one modulo 256 or zeroed (R26, R117); the drop counters only stay or advance by one
but for a turn that is RST's (R31, R311); the parameters never change (R64). -/
def Obligations.CountersMoveAsStated : Prop :=
  ∀ s t : State, step s = .next t →
    (t.par = s.par
      ∧ (t.eng.seqTx = s.eng.seqTx ∨ t.eng.seqTx = s.eng.seqTx + 1 ∨ t.eng.seqTx = 0)
      ∧ ((ResetTurn s ∧ JustReset t.eng)
        ∨ ((t.eng.dropC = s.eng.dropC ∨ t.eng.dropC = s.eng.dropC + 1)
          ∧ (t.eng.dropM = s.eng.dropM ∨ t.eng.dropM = s.eng.dropM + 1))))

/-- `CNT` (R24): a step leaves it, returns it to 0, or advances it by exactly one with exactly one byte read. -/
def Obligations.CountAdvancesByOneByte : Prop :=
  ∀ s t : State, step s = .next t →
    (t.eng.cnt = s.eng.cnt ∨ t.eng.cnt = 0
      ∨ (t.eng.cnt = s.eng.cnt + 1 ∧ ∃ b, t.ch.rxStream = s.ch.rxStream ++ [b]))

/-- The streams (R51, R61 O5, R204): both only grow; the RX stream by at most one byte, and only while the reader runs; the
TX stream not at all once the port is closed. -/
def Obligations.StreamsOnlyGrow : Prop :=
  ∀ s t : State, step s = .next t →
    (t.ch.rxStream = s.ch.rxStream ∨ (s.eng.run = true ∧ ∃ b, t.ch.rxStream = s.ch.rxStream ++ [b]))
      ∧ (∃ bytes, t.ch.txStream = s.ch.txStream ++ bytes)
      ∧ (s.eng.portOpen = false → t.ch.txStream = s.ch.txStream)

/-- The reader alone writes the framer's registers (R64): every host row but RST and construct, when it is issued, and every
host operation in progress, when it goes on with a piece other than RST, leaves `ACC`, `CNT`, `HLEN`, `TOTAL`, the drop
counters, `LENWARN`, `RUN`, `FATAL`, `INFLIGHT` and the RX stream. -/
def Obligations.HostOperationsLeaveTheFramer : Prop :=
  (∀ (s t : State) (i : Instr),
      exec i s = .next t →
      (match i with
        | .encSync .. | .encCtrl .. | .encMsg .. | .encBadCommand .. | .encBadField .. | .seqClr | .decEmpty
        | .decZeroStart .. | .decShort .. | .decFs .. | .decF4 .. | .decF6 .. | .decBodyShort .. | .wr .. | .popc ..
        | .popm .. | .stop | .status | .xchg .. | .sync | .deviceOpen | .deviceClose | .setBitrate .. | .setMode ..
        | .setFilter .. | .channelOpen | .channelClose | .setBitrateFromRegister .. | .shutdown | .send .. | .recv .. =>
          True
        | _ => False) →
        FramerUntouched s t)
    ∧ (∀ (s : State) (ticket : Nat),
        (∀ t ∈ s.host.tasks, t.ticket = ticket → t.acts.head? ≠ some .rst) → FramerUntouched s (resumeTask ticket s))

/-! ### The session -/

/-- What a positive answer to a request writes into the session, by what is left of the operation after it: nothing for
XCHG and setFilter; `deviceOpen` set or cleared (R223); the rate, and with it the configure step (R224); the mode (R225);
`channelOpen` set or cleared (R227), at the end of a construction with the state Running (R229 line 5). The phase moves as in
the table of R231 and only from the row's own source. Nothing else of the state changes, and the operation proceeds with the
record as its value: it ends if nothing is left, and in the middle of a construct or a shutdown goes on with the rest.
That setBitrate on its own is the configure step, and the form of the results, are the model's choice (log 23, log 27,
log 29). -/
def Obligations.PositiveAnswersWriteTheSession : Prop :=
  ∀ (s : State) (t : Task) (command : Nat) (rest : List Act) (f : Frame) (d : Decoded),
    TicketsFresh s → t ∈ s.host.tasks → t.got = some f → decodeFrame s.par f = .ok d → d.command.toNat = command →
    d.isPositiveAnswer = true →
      (t.acts = .answer command :: rest → resumeTask t.ticket s = proceeds t { t with value := .record d } rest s)
        ∧ (t.acts = [.answer command] → resumeTask t.ticket s = ended t (.record d) s)
        ∧ (t.acts = .answer command :: .session .deviceOpened :: rest →
            resumeTask t.ticket s =
              proceeds t { t with value := .record d } rest
                { s with
                  host.session.deviceOpen := true
                  host.session.phase := if s.host.session.phase = .synced then .deviceOpen else s.host.session.phase })
        ∧ (t.acts = .answer command :: .session .deviceClosed :: rest →
            resumeTask t.ticket s =
              proceeds t { t with value := .record d } rest { s with host.session.deviceOpen := false })
        ∧ (∀ bps, t.acts = .answer command :: .session (.bitrate bps) :: rest →
            resumeTask t.ticket s =
              proceeds t { t with value := .record d } rest
                { s with host.session.bitrate := some bps, host.session.btr := none })
        ∧ (∀ bps, t.acts = .answer command :: .session (.bitrate bps) :: .session .configured :: rest →
            resumeTask t.ticket s =
              proceeds t { t with value := .record d } rest
                { s with
                  host.session.bitrate := some bps, host.session.btr := none
                  host.session.phase :=
                    if s.host.session.phase = .deviceOpen then .configured else s.host.session.phase })
        ∧ (∀ m, t.acts = .answer command :: .session (.mode m) :: rest →
            resumeTask t.ticket s =
              proceeds t { t with value := .record d } rest { s with host.session.mode := m })
        ∧ (∀ m, t.acts = .answer command :: .session (.mode m) :: .session .configured :: rest →
            resumeTask t.ticket s =
              proceeds t { t with value := .record d } rest
                { s with
                  host.session.mode := m
                  host.session.phase :=
                    if s.host.session.phase = .deviceOpen then .configured else s.host.session.phase })
        ∧ (t.acts = .answer command :: .session .configured :: rest →
            resumeTask t.ticket s =
              proceeds t { t with value := .record d } rest
                { s with
                  host.session.phase :=
                    if s.host.session.phase = .deviceOpen then .configured else s.host.session.phase })
        ∧ (t.acts = .answer command :: .session .channelOpened :: rest →
            resumeTask t.ticket s =
              proceeds t { t with value := .record d } rest
                { s with
                  host.session.channelOpen := true
                  host.session.phase :=
                    if s.host.session.phase = .configured then .channelOpen else s.host.session.phase })
        ∧ (t.acts = [.answer command, .session .channelOpened, .session .running, .succeed] →
            resumeTask t.ticket s =
              ended t .ok
                { s with
                  host.session.channelOpen := true
                  host.session.phase :=
                    if s.host.session.phase = .configured ∨ s.host.session.phase = .channelOpen then .running
                    else s.host.session.phase })
        ∧ (t.acts = .answer command :: .session .channelClosed :: rest →
            resumeTask t.ticket s =
              proceeds t { t with value := .record d } rest
                { s with
                  host.session.channelOpen := false, host.session.phase := closedPhase s.host.session.phase })

end
end

