-- ==== Sys2Proof/Laws/Params.lean ====
section
/-!
SUPPORT. What a parameter record that the rules are written for guarantees (R9), and what the two further conditions on
records say that some statements about whole frames and sent bodies need (log 9).
-/

namespace Sys2Proof

/-- The facts of R9, by name. -/
structure Params.Facts (p : Params) : Prop where
  messageInRange : p.inRange p.cmdMessage.toNat = true
  answerInRange : p.inRange p.cmdSyncAnswer.toNat = true
  syncOutOfRange : p.inRange p.cmdSync.toNat = false
  errorOutOfRange : p.inRange p.cmdError.toNat = false
  syncHigh : p.cmdSync &&& p.answerBit ≠ 0
  errorHigh : p.cmdError &&& p.answerBit ≠ 0
  messageNeSync : p.cmdMessage ≠ p.cmdSync
  messageNeAnswer : p.cmdMessage ≠ p.cmdSyncAnswer
  messageNeError : p.cmdMessage ≠ p.cmdError
  messageNeZero : p.cmdMessage ≠ 0
  syncNeAnswer : p.cmdSync ≠ p.cmdSyncAnswer
  syncNeError : p.cmdSync ≠ p.cmdError
  syncNeZero : p.cmdSync ≠ 0
  answerNeError : p.cmdSyncAnswer ≠ p.cmdError
  answerNeZero : p.cmdSyncAnswer ≠ 0
  errorNeZero : p.cmdError ≠ 0
  cqDepth : 1 ≤ p.cqDepth
  mqDepth : 1 ≤ p.mqDepth
  dlcFits : p.bodyDlcOff + 2 ≤ p.bodyPrefix
  openCommand : ∀ c ∈ p.openCommands, p.inRange c.toNat = true ∧ c ≠ p.cmdMessage ∧ c ≠ p.cmdSyncAnswer

/-- `Params.ok` says all of them. -/
theorem Params.facts {p : Params} (h : p.ok = true) : p.Facts := by
  simp only [Params.ok, Params.r9, Bool.and_eq_true, decide_eq_true_eq, Bool.not_eq_true', bne_iff_ne,
    List.all_eq_true] at h
  obtain ⟨⟨⟨⟨⟨⟨⟨⟨⟨⟨⟨a1, a2⟩, a3⟩, a4⟩, a5⟩, a6⟩, a7⟩, a8⟩, -⟩, a10⟩, a11⟩, a12⟩ := h
  simp only [List.nodup_cons, List.mem_cons, not_or, List.not_mem_nil, not_false_eq_true, and_true] at a7
  obtain ⟨⟨d1, d2, d3, d4⟩, ⟨d5, d6, d7⟩, ⟨d8, d9⟩, d10, _⟩ := a7
  exact
    { messageInRange := a1, answerInRange := a2, syncOutOfRange := a5, errorOutOfRange := a6, syncHigh := a3
      errorHigh := a4, messageNeSync := d1, messageNeAnswer := d2, messageNeError := d3, messageNeZero := d4
      syncNeAnswer := d5, syncNeError := d6, syncNeZero := d7, answerNeError := d8, answerNeZero := d9
      errorNeZero := d10, cqDepth := a10, mqDepth := a11, dlcFits := a12
      openCommand := fun c hc => by simpa [and_assoc] using a8 c hc }

/-- `Params.headersFit`, by name. -/
structure Params.Headers (p : Params) : Prop where
  short : 4 ≤ p.hlenShort
  long : 6 ≤ p.hlenLong
  apart : p.hlenShort < p.hlenLong
  accCap : p.accCap = p.hlenLong + 65535

theorem Params.headers {p : Params} (h : p.headersFit = true) : p.Headers := by
  simp only [Params.headersFit, Bool.and_eq_true, decide_eq_true_eq] at h
  exact ⟨h.1.1.1, h.1.1.2, h.1.2, h.2⟩

/-- `Params.bodyFits`, by name. -/
structure Params.Layout (p : Params) : Prop where
  dlcOff : 16 ≤ p.bodyDlcOff
  words : [p.word0, p.word1, p.word2, p.word3].Nodup
  extendedMask : p.extendedMask ≠ 0
  remoteMask : p.remoteMask ≠ 0
  masksApart : p.extendedMask &&& p.remoteMask = 0

theorem Params.layout {p : Params} (h : p.bodyFits = true) : p.Layout := by
  simp only [Params.bodyFits, Bool.and_eq_true, decide_eq_true_eq, bne_iff_ne, beq_iff_eq] at h
  exact ⟨h.1.1.1.1, h.1.1.1.2, h.1.1.2, h.1.2, h.2⟩

/-- Membership in the range, as inequalities. -/
theorem Params.inRange_iff (p : Params) (c : Nat) :
    p.inRange c = true ↔ p.cmdMin.toNat ≤ c ∧ c ≤ p.cmdMax.toNat := by
  simp [Params.inRange]

/-- A request command is a byte, and is no sync (R9). -/
theorem Params.Facts.request {p : Params} (h : p.Facts) {c : Nat} (hc : p.inRange c = true) :
    c < 256 ∧ c ≠ p.cmdSync.toNat := by
  have h1 := (p.inRange_iff c).1 hc
  refine ⟨lt_of_le_of_lt h1.2 p.cmdMax.isLt, ?_⟩
  rintro rfl
  exact absurd hc (by simp [h.syncOutOfRange])

/-- The commands that R8 marks OPEN are request commands other than MESSAGE. -/
theorem Params.Facts.ofOpen {p : Params} (h : p.Facts) {c : Byte} (hc : c ∈ p.openCommands) :
    p.inRange c.toNat = true ∧ c.toNat ≠ p.cmdMessage.toNat := by
  obtain ⟨h1, h2, -⟩ := h.openCommand c hc
  exact ⟨h1, fun e => h2 (BitVec.eq_of_toNat_eq e)⟩

end Sys2Proof
end

