-- ==== Sys2Proof/Laws/Operands.lean ====
section
/-!
SUPPORT. Reading and writing fields of byte buffers: bounds, round trips, and what reading a longer buffer gives.
-/

namespace Sys2Proof.Machine

open Sys2Proof

@[simp] theorem leBytes_length (n v : Nat) : (leBytes n v).length = n := by
  induction n generalizing v with
  | zero => rfl
  | succ n ih => simp [leBytes, ih]

@[simp] theorem byteAt_cons_zero (b : Byte) (l : List Byte) : byteAt (b :: l) 0 = b := rfl

/-- A byte that is there. -/
theorem byteAt_eq_getElem (l : List Byte) (i : Nat) (h : i < l.length) : byteAt l i = l[i] := by
  simp [byteAt, h]

theorem byteAt_cons_succ (b : Byte) (l : List Byte) (i : Nat) (h : i < l.length) :
    byteAt (b :: l) (i + 1) = byteAt l i := by
  rw [byteAt_eq_getElem _ _ h, byteAt_eq_getElem _ _ (by simpa using h)]; rfl

theorem byteAt_append_left (a b : List Byte) (i : Nat) (h : i < a.length) : byteAt (a ++ b) i = byteAt a i := by
  rw [byteAt_eq_getElem _ _ h, byteAt_eq_getElem _ _ (by simp; omega), List.getElem_append_left h]

theorem byteAt_append_right (a b : List Byte) (i : Nat) (h : i < b.length) : byteAt (a ++ b) (a.length + i) = byteAt b i := by
  rw [byteAt_eq_getElem _ _ h, byteAt_eq_getElem _ _ (by simpa using h), List.getElem_append_right (by omega)]
  congr 1; omega

/-- A field is its first byte and the field after it (R54). -/
theorem memRead_succ (buf : List Byte) (off n : Nat) :
    memRead buf off (n + 1) = (byteAt buf off).toNat + 256 * memRead buf (off + 1) n := rfl

/-- A one-byte field is its byte (R54). -/
theorem memRead_one (buf : List Byte) (off : Nat) : memRead buf off 1 = (byteAt buf off).toNat := by
  simp [memRead]

/-- A 16-bit field (R54). -/
theorem memRead_two (buf : List Byte) (off : Nat) :
    memRead buf off 2 = (byteAt buf off).toNat + 256 * (byteAt buf (off + 1)).toNat := by
  simp [memRead]

/-- A field is bounded by its width. -/
theorem memRead_lt (buf : List Byte) (off n : Nat) : memRead buf off n < 256 ^ n := by
  induction n generalizing off with
  | zero => simp [memRead]
  | succ n ih =>
    have h1 := ih (off + 1)
    have h2 := (byteAt buf off).isLt
    rw [memRead_succ, pow_succ]
    omega

/-- Two buffers that agree on a field's bytes agree on the field. -/
theorem memRead_congr {a b : List Byte} {off off' n : Nat} (h : ∀ k < n, byteAt a (off + k) = byteAt b (off' + k)) :
    memRead a off n = memRead b off' n := by
  induction n generalizing off off' with
  | zero => rfl
  | succ n ih =>
    rw [memRead_succ, memRead_succ, show byteAt a off = byteAt b off' from h 0 (by omega),
      ih (off := off + 1) (off' := off' + 1) fun k hk => ?_]
    have := h (k + 1) (by omega)
    rw [show off + 1 + k = off + (k + 1) by omega, show off' + 1 + k = off' + (k + 1) by omega]
    exact this

/-- A field of the first part of a longer buffer. -/
theorem memRead_append_left (a b : List Byte) (off n : Nat) (h : off + n ≤ a.length) :
    memRead (a ++ b) off n = memRead a off n :=
  memRead_congr fun k hk => byteAt_append_left _ _ _ (by omega)

theorem memRead_leBytes (n v : Nat) : memRead (leBytes n v) 0 n = v % 256 ^ n := by
  induction n generalizing v with
  | zero => simp [memRead, Nat.mod_one]
  | succ n ih =>
    have h : (BitVec.ofNat 8 (v % 256)).toNat = v % 256 := by simp
    rw [memRead_succ, leBytes, byteAt_cons_zero, h, pow_succ', Nat.mod_mul, ← ih (v / 256)]
    congr 2
    exact memRead_congr fun k hk => by
      rw [show 0 + 1 + k = k + 1 by omega, byteAt_cons_succ _ _ _ (by simpa using hk), Nat.zero_add]

@[simp] theorem memWrite_length (buf : List Byte) (off n v : Nat) (h : off + n ≤ buf.length) :
    (memWrite buf off n v).length = buf.length := by
  simp [memWrite]; omega

/-- Reading a field that was just written. -/
theorem memRead_memWrite_same (buf : List Byte) (off n v : Nat) (h : off ≤ buf.length) :
    memRead (memWrite buf off n v) off n = v % 256 ^ n := by
  have hl : (buf.take off).length = off := by simp [h]
  rw [← memRead_leBytes]
  refine memRead_congr fun k hk => ?_
  rw [memWrite, byteAt_append_left _ _ _ (by simp; omega), Nat.zero_add]
  have := byteAt_append_right (buf.take off) (leBytes n v) k (by simpa using hk)
  rwa [hl] at this

/-- Reading a field that ends before the one written. -/
theorem memRead_memWrite_before (buf : List Byte) (off n v off' n' : Nat) (h : off' + n' ≤ off) (hb : off ≤ buf.length) :
    memRead (memWrite buf off n v) off' n' = memRead buf off' n' := by
  rw [memWrite, List.append_assoc, memRead_append_left _ _ _ _ (by simp; omega)]
  conv_rhs => rw [← List.take_append_drop off buf]
  rw [memRead_append_left _ _ _ _ (by simp; omega)]

/-- The payload length is bounded by its field's width (R171). -/
theorem plen_lt (p : Params) (h : List Byte) :
    plen p h < if byteAt h 0 = p.cmdMessage then 65536 else 256 := by
  have h1 := memRead_lt h 3 1
  have h2 := memRead_lt h 4 2
  unfold plen
  split_ifs <;> omega

/-- The header length is the longer one exactly for the raw MESSAGE command (R80). -/
theorem hlen_eq (p : Params) (h : List Byte) :
    hlen p h = if byteAt h 0 = p.cmdMessage then p.hlenLong else p.hlenShort := rfl

theorem isSyncCode_iff (p : Params) (b : Byte) :
    isSyncCode p b = true ↔ b = p.cmdSyncAnswer ∨ b = p.cmdSync := by
  simp [isSyncCode]

theorem isSyncCode_message {p : Params} (hp : p.Facts) : isSyncCode p p.cmdMessage = false := by
  simp [isSyncCode, hp.messageNeAnswer, hp.messageNeSync]

/-- The declared payload length reads the header only (R64, R171): later bytes do not change it. -/
theorem plen_append {p : Params} (hw : p.Headers) (a b : List Byte) (h : hlen p a ≤ a.length) :
    plen p (a ++ b) = plen p a := by
  have := hw.short
  have := hw.long
  have h0 : 0 < a.length := by
    rw [hlen_eq] at h; split_ifs at h <;> omega
  have hb : byteAt (a ++ b) 0 = byteAt a 0 := byteAt_append_left _ _ _ h0
  rw [hlen_eq] at h
  unfold plen
  rw [hb]
  split_ifs with h1 h2
  · rfl
  · rw [if_pos h2] at h; exact memRead_append_left _ _ _ _ (by omega)
  · rw [if_neg h2] at h; exact memRead_append_left _ _ _ _ (by omega)

theorem hlen_append (p : Params) (a b : List Byte) (h : 0 < a.length) : hlen p (a ++ b) = hlen p a := by
  simp [hlen, byteAt_append_left _ _ _ h]

end Sys2Proof.Machine
end

