-- ==== Sys2Proof/Laws/Codec.lean ====
section
/-!
SUPPORT. The codec case by case: what ENC returns for each row of its dispatch (R110 to R115), and which row DEC takes (R130).
-/

namespace Sys2Proof.Machine

open Sys2Proof

/-- The field checks of R115 in one formula. -/
theorem fieldError_eq_none (p : Params) (command flags length : Nat) (payload : List Byte) :
    fieldError p command flags length payload = none ↔
      flags ≤ fieldLimit p command ∧ length ≤ fieldLimit p command ∧ (length > 0 → payload.length = length) := by
  unfold fieldError
  dsimp only
  split_ifs with h <;> simp at h ⊢
  · intro h1 h2
    rcases h with (h | h) | h
    · omega
    · omega
    · exact ⟨by omega, by omega⟩
  · exact ⟨h.1.1, h.1.2, fun h0 => h.2 h0⟩

/-- The well-formedness check of the ENC rows is R115's. -/
theorem fieldsFit_iff (p : Params) (command flags length : Nat) (payload : List Byte) :
    fieldsFit p command flags length payload = true ↔ fieldError p command flags length payload = none := by
  rw [fieldError_eq_none]
  unfold fieldsFit fieldLimit
  simp only [Bool.and_eq_true, Bool.or_eq_true, decide_eq_true_eq, and_assoc]
  constructor <;> rintro ⟨a, b, c⟩ <;> refine ⟨a, b, ?_⟩
  · omega
  · by_cases h : length = 0
    · exact .inl h
    · exact .inr (c (by omega))

theorem encodeFrame_sync (p : Params) (seq : BitVec 8) (flags length : Nat) (payload : List Byte) :
    encodeFrame p seq p.cmdSync.toNat flags length payload = .ok (syncFrame p, 0) := by
  simp [encodeFrame, encSyncRow]

theorem encodeFrame_ctrl {p : Params} (hp : p.Facts) (seq : BitVec 8) {command flags length : Nat} {payload : List Byte}
    (hc : p.inRange command = true) (hm : command ≠ p.cmdMessage.toNat)
    (hf : fieldError p command flags length payload = none) :
    encodeFrame p seq command flags length payload =
      .ok (withPayload (headerF4 command seq flags length) length payload, seq + 1) := by
  simp [encodeFrame, encCtrlRow, hc, hm, hf, (hp.request hc).2]

theorem encodeFrame_msg {p : Params} (hp : p.Facts) (seq : BitVec 8) {flags length : Nat} {payload : List Byte}
    (hf : fieldError p p.cmdMessage.toNat flags length payload = none) :
    encodeFrame p seq p.cmdMessage.toNat flags length payload =
      .ok (withPayload (headerF6 p seq flags length) length payload, seq + 1) := by
  simp [encodeFrame, encMsgRow, hp.messageInRange, hf, (hp.request hp.messageInRange).2]

theorem encodeFrame_badCommand {p : Params} (seq : BitVec 8) {command flags length : Nat} {payload : List Byte}
    (hs : command ≠ p.cmdSync.toNat) (hc : p.inRange command = false) :
    encodeFrame p seq command flags length payload = .error (.badCommand command) := by
  simp [encodeFrame, hs, hc]

theorem encodeFrame_badField {p : Params} (hp : p.Facts) (seq : BitVec 8) {command flags length : Nat}
    {payload : List Byte} {c : Cause} (hc : p.inRange command = true)
    (hf : fieldError p command flags length payload = some c) :
    encodeFrame p seq command flags length payload = .error c := by
  simp [encodeFrame, hc, hf, (hp.request hc).2]

/-- A frame that starts with a sync code is DEC.FS's (R130). -/
theorem decodeFrame_fs {p : Params} (hp : p.Facts) {raw : List Byte} (h : isSyncCode p (byteAt raw 0) = true)
    (h1 : 1 ≤ raw.length) (hl : p.hlenShort ≤ raw.length) : decodeFrame p raw = .ok (decFsRow p raw) := by
  have h0 : byteAt raw 0 ≠ 0x00 := by
    rcases (isSyncCode_iff p _).1 h with e | e <;> rw [e]
    · exact hp.answerNeZero
    · exact hp.syncNeZero
  have hm : byteAt raw 0 ≠ p.cmdMessage := by
    intro e; rw [e, isSyncCode_message hp] at h; simp at h
  unfold decodeFrame
  rw [hlen_eq, if_neg hm, if_neg (by omega), if_neg h0, if_neg (by omega), if_pos h]

/-- A control frame is DEC.F4's (R130). -/
theorem decodeFrame_f4 {p : Params} {raw : List Byte} (h0 : byteAt raw 0 ≠ 0x00)
    (hs : isSyncCode p (byteAt raw 0) = false) (hm : byteAt raw 0 ≠ p.cmdMessage) (h1 : 1 ≤ raw.length)
    (hl : p.hlenShort ≤ raw.length) : decodeFrame p raw = .ok (decF4Row p raw) := by
  unfold decodeFrame
  rw [hlen_eq, if_neg hm, if_neg (by omega), if_neg h0, if_neg (by omega), if_neg (by simp [hs]), if_neg hm]

/-- A MESSAGE frame with a whole header is DEC.F6's (R130). -/
theorem decodeFrame_f6 {p : Params} (hp : p.Facts) {raw : List Byte} (hm : byteAt raw 0 = p.cmdMessage)
    (h1 : 1 ≤ raw.length) (hl : p.hlenLong ≤ raw.length) : decodeFrame p raw = decF6Row p raw := by
  unfold decodeFrame
  rw [hlen_eq, if_pos hm, if_neg (by omega), if_neg (by rw [hm]; exact hp.messageNeZero), if_neg (by omega),
    if_neg (by rw [hm, isSyncCode_message hp]; simp), if_pos hm]

end Sys2Proof.Machine
end

