-- ==== Sys2Proof/Laws/State.lean ====
section
/-!
SUPPORT. What each update of the state leaves as it is, one lemma per group of fields, and what it writes.
-/

namespace Sys2Proof.Machine

open Sys2Proof Sys2Proof.Safety

@[simp] theorem giveResult_par (n : Nat) (v : Value) (s : State) : (giveResult n v s).par = s.par := rfl
@[simp] theorem giveResult_eng (n : Nat) (v : Value) (s : State) : (giveResult n v s).eng = s.eng := rfl
@[simp] theorem giveResult_ch (n : Nat) (v : Value) (s : State) : (giveResult n v s).ch = s.ch := rfl
@[simp] theorem giveResult_trace (n : Nat) (v : Value) (s : State) : (giveResult n v s).trace = s.trace := rfl
@[simp] theorem giveResult_detached (n : Nat) (v : Value) (s : State) : (giveResult n v s).detached = s.detached := rfl
@[simp] theorem giveResult_script (n : Nat) (v : Value) (s : State) : (giveResult n v s).script = s.script := rfl
@[simp] theorem giveResult_fresh (n : Nat) (v : Value) (s : State) : (giveResult n v s).fresh = s.fresh := rfl

@[simp] theorem raiseError_par (n : Nat) (e : HostError) (s : State) : (raiseError n e s).par = s.par := rfl
@[simp] theorem raiseError_eng (n : Nat) (e : HostError) (s : State) : (raiseError n e s).eng = s.eng := rfl
@[simp] theorem raiseError_ch (n : Nat) (e : HostError) (s : State) : (raiseError n e s).ch = s.ch := rfl
@[simp] theorem raiseError_trace (n : Nat) (e : HostError) (s : State) : (raiseError n e s).trace = s.trace := rfl
@[simp] theorem raiseError_detached (n : Nat) (e : HostError) (s : State) : (raiseError n e s).detached = s.detached := rfl
@[simp] theorem raiseError_script (n : Nat) (e : HostError) (s : State) : (raiseError n e s).script = s.script := rfl
@[simp] theorem raiseError_fresh (n : Nat) (e : HostError) (s : State) : (raiseError n e s).fresh = s.fresh := rfl

@[simp] theorem nextTicket_par (s : State) : (nextTicket s).par = s.par := rfl
@[simp] theorem nextTicket_eng (s : State) : (nextTicket s).eng = s.eng := rfl
@[simp] theorem nextTicket_ch (s : State) : (nextTicket s).ch = s.ch := rfl
@[simp] theorem nextTicket_trace (s : State) : (nextTicket s).trace = s.trace := rfl
@[simp] theorem nextTicket_detached (s : State) : (nextTicket s).detached = s.detached := rfl
@[simp] theorem nextTicket_script (s : State) : (nextTicket s).script = s.script := rfl
@[simp] theorem nextTicket_fresh (s : State) : (nextTicket s).fresh = s.fresh := rfl

@[simp] theorem hostReturn_par (v : Value) (s : State) : (hostReturn v s).par = s.par := rfl
@[simp] theorem hostReturn_eng (v : Value) (s : State) : (hostReturn v s).eng = s.eng := rfl
@[simp] theorem hostReturn_ch (v : Value) (s : State) : (hostReturn v s).ch = s.ch := rfl
@[simp] theorem hostReturn_trace (v : Value) (s : State) : (hostReturn v s).trace = s.trace := rfl
@[simp] theorem hostReturn_detached (v : Value) (s : State) : (hostReturn v s).detached = s.detached := rfl
@[simp] theorem hostReturn_script (v : Value) (s : State) : (hostReturn v s).script = s.script := rfl
@[simp] theorem hostReturn_fresh (v : Value) (s : State) : (hostReturn v s).fresh = s.fresh := rfl

@[simp] theorem hostRaise_par (c : Cause) (s : State) : (hostRaise c s).par = s.par := rfl
@[simp] theorem hostRaise_eng (c : Cause) (s : State) : (hostRaise c s).eng = s.eng := rfl
@[simp] theorem hostRaise_ch (c : Cause) (s : State) : (hostRaise c s).ch = s.ch := rfl
@[simp] theorem hostRaise_trace (c : Cause) (s : State) : (hostRaise c s).trace = s.trace := rfl
@[simp] theorem hostRaise_detached (c : Cause) (s : State) : (hostRaise c s).detached = s.detached := rfl
@[simp] theorem hostRaise_script (c : Cause) (s : State) : (hostRaise c s).script = s.script := rfl
@[simp] theorem hostRaise_fresh (c : Cause) (s : State) : (hostRaise c s).fresh = s.fresh := rfl

@[simp] theorem emit_par (r : TraceRec) (s : State) : (emit r s).par = s.par := rfl
@[simp] theorem emit_eng (r : TraceRec) (s : State) : (emit r s).eng = s.eng := rfl
@[simp] theorem emit_ch (r : TraceRec) (s : State) : (emit r s).ch = s.ch := rfl
@[simp] theorem emit_host (r : TraceRec) (s : State) : (emit r s).host = s.host := rfl
@[simp] theorem emit_detached (r : TraceRec) (s : State) : (emit r s).detached = s.detached := rfl
@[simp] theorem emit_script (r : TraceRec) (s : State) : (emit r s).script = s.script := rfl
@[simp] theorem emit_fresh (r : TraceRec) (s : State) : (emit r s).fresh = s.fresh := rfl

@[simp] theorem transmit_par (bytes : List Byte) (s : State) : (transmit bytes s).par = s.par := rfl
@[simp] theorem transmit_eng (bytes : List Byte) (s : State) : (transmit bytes s).eng = s.eng := rfl
@[simp] theorem transmit_host (bytes : List Byte) (s : State) : (transmit bytes s).host = s.host := rfl
@[simp] theorem transmit_trace (bytes : List Byte) (s : State) : (transmit bytes s).trace = s.trace := rfl
@[simp] theorem transmit_detached (bytes : List Byte) (s : State) : (transmit bytes s).detached = s.detached := rfl
@[simp] theorem transmit_script (bytes : List Byte) (s : State) : (transmit bytes s).script = s.script := rfl
@[simp] theorem transmit_fresh (bytes : List Byte) (s : State) : (transmit bytes s).fresh = s.fresh := rfl

@[simp] theorem clearSeq_par (s : State) : (clearSeq s).par = s.par := rfl
@[simp] theorem clearSeq_ch (s : State) : (clearSeq s).ch = s.ch := rfl
@[simp] theorem clearSeq_host (s : State) : (clearSeq s).host = s.host := rfl
@[simp] theorem clearSeq_trace (s : State) : (clearSeq s).trace = s.trace := rfl
@[simp] theorem clearSeq_detached (s : State) : (clearSeq s).detached = s.detached := rfl
@[simp] theorem clearSeq_script (s : State) : (clearSeq s).script = s.script := rfl
@[simp] theorem clearSeq_fresh (s : State) : (clearSeq s).fresh = s.fresh := rfl

@[simp] theorem resetEngine_par (s : State) : (resetEngine s).par = s.par := rfl
@[simp] theorem resetEngine_ch (s : State) : (resetEngine s).ch = s.ch := rfl
@[simp] theorem resetEngine_host (s : State) : (resetEngine s).host = s.host := rfl
@[simp] theorem resetEngine_trace (s : State) : (resetEngine s).trace = s.trace := rfl
@[simp] theorem resetEngine_script (s : State) : (resetEngine s).script = s.script := rfl

@[simp] theorem arm_par (s : State) : (arm s).par = s.par := rfl
@[simp] theorem arm_ch (s : State) : (arm s).ch = s.ch := rfl
@[simp] theorem arm_host (s : State) : (arm s).host = s.host := rfl
@[simp] theorem arm_trace (s : State) : (arm s).trace = s.trace := rfl
@[simp] theorem arm_detached (s : State) : (arm s).detached = s.detached := rfl
@[simp] theorem arm_script (s : State) : (arm s).script = s.script := rfl
@[simp] theorem arm_fresh (s : State) : (arm s).fresh = s.fresh := rfl

@[simp] theorem stopChk_par (s : State) : (stopChk s).par = s.par := rfl
@[simp] theorem stopChk_ch (s : State) : (stopChk s).ch = s.ch := rfl
@[simp] theorem stopChk_host (s : State) : (stopChk s).host = s.host := rfl
@[simp] theorem stopChk_trace (s : State) : (stopChk s).trace = s.trace := rfl
@[simp] theorem stopChk_detached (s : State) : (stopChk s).detached = s.detached := rfl
@[simp] theorem stopChk_script (s : State) : (stopChk s).script = s.script := rfl
@[simp] theorem stopChk_fresh (s : State) : (stopChk s).fresh = s.fresh := rfl

@[simp] theorem idle_par (s : State) : (idle s).par = s.par := rfl
@[simp] theorem idle_ch (s : State) : (idle s).ch = s.ch := rfl
@[simp] theorem idle_host (s : State) : (idle s).host = s.host := rfl
@[simp] theorem idle_trace (s : State) : (idle s).trace = s.trace := rfl
@[simp] theorem idle_detached (s : State) : (idle s).detached = s.detached := rfl
@[simp] theorem idle_script (s : State) : (idle s).script = s.script := rfl
@[simp] theorem idle_fresh (s : State) : (idle s).fresh = s.fresh := rfl

@[simp] theorem readError_par (s : State) : (readError s).par = s.par := rfl
@[simp] theorem readError_ch (s : State) : (readError s).ch = s.ch := rfl
@[simp] theorem readError_host (s : State) : (readError s).host = s.host := rfl
@[simp] theorem readError_trace (s : State) : (readError s).trace = s.trace := rfl
@[simp] theorem readError_detached (s : State) : (readError s).detached = s.detached := rfl
@[simp] theorem readError_script (s : State) : (readError s).script = s.script := rfl
@[simp] theorem readError_fresh (s : State) : (readError s).fresh = s.fresh := rfl

@[simp] theorem takeByte_par (b : Byte) (s : State) : (takeByte b s).par = s.par := rfl
@[simp] theorem takeByte_host (b : Byte) (s : State) : (takeByte b s).host = s.host := rfl
@[simp] theorem takeByte_trace (b : Byte) (s : State) : (takeByte b s).trace = s.trace := rfl
@[simp] theorem takeByte_detached (b : Byte) (s : State) : (takeByte b s).detached = s.detached := rfl
@[simp] theorem takeByte_script (b : Byte) (s : State) : (takeByte b s).script = s.script := rfl
@[simp] theorem takeByte_fresh (b : Byte) (s : State) : (takeByte b s).fresh = s.fresh := rfl

@[simp] theorem appendByte_par (b : Byte) (s : State) : (appendByte b s).par = s.par := rfl
@[simp] theorem appendByte_ch (b : Byte) (s : State) : (appendByte b s).ch = s.ch := rfl
@[simp] theorem appendByte_host (b : Byte) (s : State) : (appendByte b s).host = s.host := rfl
@[simp] theorem appendByte_trace (b : Byte) (s : State) : (appendByte b s).trace = s.trace := rfl
@[simp] theorem appendByte_detached (b : Byte) (s : State) : (appendByte b s).detached = s.detached := rfl
@[simp] theorem appendByte_script (b : Byte) (s : State) : (appendByte b s).script = s.script := rfl
@[simp] theorem appendByte_fresh (b : Byte) (s : State) : (appendByte b s).fresh = s.fresh := rfl

@[simp] theorem first_par (b : Byte) (s : State) : (first b s).par = s.par := rfl
@[simp] theorem first_ch (b : Byte) (s : State) : (first b s).ch = s.ch := rfl
@[simp] theorem first_host (b : Byte) (s : State) : (first b s).host = s.host := rfl
@[simp] theorem first_trace (b : Byte) (s : State) : (first b s).trace = s.trace := rfl
@[simp] theorem first_detached (b : Byte) (s : State) : (first b s).detached = s.detached := rfl
@[simp] theorem first_script (b : Byte) (s : State) : (first b s).script = s.script := rfl
@[simp] theorem first_fresh (b : Byte) (s : State) : (first b s).fresh = s.fresh := rfl

@[simp] theorem detach_par (s : State) : (detach s).par = s.par := rfl
@[simp] theorem detach_ch (s : State) : (detach s).ch = s.ch := rfl
@[simp] theorem detach_host (s : State) : (detach s).host = s.host := rfl
@[simp] theorem detach_trace (s : State) : (detach s).trace = s.trace := rfl
@[simp] theorem detach_script (s : State) : (detach s).script = s.script := rfl
@[simp] theorem detach_fresh (s : State) : (detach s).fresh = s.fresh := rfl

@[simp] theorem writeSession_par (u : SessionUpdate) (s : State) : (writeSession u s).par = s.par := rfl
@[simp] theorem writeSession_eng (u : SessionUpdate) (s : State) : (writeSession u s).eng = s.eng := rfl
@[simp] theorem writeSession_ch (u : SessionUpdate) (s : State) : (writeSession u s).ch = s.ch := rfl
@[simp] theorem writeSession_trace (u : SessionUpdate) (s : State) : (writeSession u s).trace = s.trace := rfl
@[simp] theorem writeSession_detached (u : SessionUpdate) (s : State) : (writeSession u s).detached = s.detached := rfl
@[simp] theorem writeSession_script (u : SessionUpdate) (s : State) : (writeSession u s).script = s.script := rfl
@[simp] theorem writeSession_fresh (u : SessionUpdate) (s : State) : (writeSession u s).fresh = s.fresh := rfl

@[simp] theorem park_par (t : Task) (s : State) : (park t s).par = s.par := rfl
@[simp] theorem park_eng (t : Task) (s : State) : (park t s).eng = s.eng := rfl
@[simp] theorem park_ch (t : Task) (s : State) : (park t s).ch = s.ch := rfl
@[simp] theorem park_trace (t : Task) (s : State) : (park t s).trace = s.trace := rfl
@[simp] theorem park_detached (t : Task) (s : State) : (park t s).detached = s.detached := rfl
@[simp] theorem park_script (t : Task) (s : State) : (park t s).script = s.script := rfl
@[simp] theorem park_fresh (t : Task) (s : State) : (park t s).fresh = s.fresh := rfl

@[simp] theorem retire_par (t : Task) (s : State) : (retire t s).par = s.par := rfl
@[simp] theorem retire_eng (t : Task) (s : State) : (retire t s).eng = s.eng := rfl
@[simp] theorem retire_ch (t : Task) (s : State) : (retire t s).ch = s.ch := rfl
@[simp] theorem retire_trace (t : Task) (s : State) : (retire t s).trace = s.trace := rfl
@[simp] theorem retire_detached (t : Task) (s : State) : (retire t s).detached = s.detached := rfl
@[simp] theorem retire_script (t : Task) (s : State) : (retire t s).script = s.script := rfl
@[simp] theorem retire_fresh (t : Task) (s : State) : (retire t s).fresh = s.fresh := rfl

@[simp] theorem finish_par (t : Task) (s : State) : (finish t s).par = s.par := rfl
@[simp] theorem finish_eng (t : Task) (s : State) : (finish t s).eng = s.eng := rfl
@[simp] theorem finish_ch (t : Task) (s : State) : (finish t s).ch = s.ch := rfl
@[simp] theorem finish_trace (t : Task) (s : State) : (finish t s).trace = s.trace := rfl
@[simp] theorem finish_detached (t : Task) (s : State) : (finish t s).detached = s.detached := rfl
@[simp] theorem finish_script (t : Task) (s : State) : (finish t s).script = s.script := rfl
@[simp] theorem finish_fresh (t : Task) (s : State) : (finish t s).fresh = s.fresh := rfl

@[simp] theorem failTask_par (e : HostError) (t : Task) (s : State) : (failTask e t s).par = s.par := rfl
@[simp] theorem failTask_eng (e : HostError) (t : Task) (s : State) : (failTask e t s).eng = s.eng := rfl
@[simp] theorem failTask_ch (e : HostError) (t : Task) (s : State) : (failTask e t s).ch = s.ch := rfl
@[simp] theorem failTask_trace (e : HostError) (t : Task) (s : State) : (failTask e t s).trace = s.trace := rfl
@[simp] theorem failTask_detached (e : HostError) (t : Task) (s : State) : (failTask e t s).detached = s.detached := rfl
@[simp] theorem failTask_script (e : HostError) (t : Task) (s : State) : (failTask e t s).script = s.script := rfl
@[simp] theorem failTask_fresh (e : HostError) (t : Task) (s : State) : (failTask e t s).fresh = s.fresh := rfl

@[simp] theorem dropTurn_par (s : State) : (dropTurn s).par = s.par := rfl
@[simp] theorem dropTurn_eng (s : State) : (dropTurn s).eng = s.eng := rfl
@[simp] theorem dropTurn_ch (s : State) : (dropTurn s).ch = s.ch := rfl
@[simp] theorem dropTurn_host (s : State) : (dropTurn s).host = s.host := rfl
@[simp] theorem dropTurn_trace (s : State) : (dropTurn s).trace = s.trace := rfl
@[simp] theorem dropTurn_detached (s : State) : (dropTurn s).detached = s.detached := rfl
@[simp] theorem dropTurn_fresh (s : State) : (dropTurn s).fresh = s.fresh := rfl

@[simp] theorem presentTurn_par (u : Turn) (s : State) : (presentTurn u s).par = s.par := rfl
@[simp] theorem presentTurn_eng (u : Turn) (s : State) : (presentTurn u s).eng = s.eng := rfl
@[simp] theorem presentTurn_ch (u : Turn) (s : State) : (presentTurn u s).ch = s.ch := rfl
@[simp] theorem presentTurn_host (u : Turn) (s : State) : (presentTurn u s).host = s.host := rfl
@[simp] theorem presentTurn_trace (u : Turn) (s : State) : (presentTurn u s).trace = s.trace := rfl
@[simp] theorem presentTurn_detached (u : Turn) (s : State) : (presentTurn u s).detached = s.detached := rfl
@[simp] theorem presentTurn_fresh (u : Turn) (s : State) : (presentTurn u s).fresh = s.fresh := rfl

@[simp] theorem giveResult_reply (n : Nat) (v : Value) (s : State) :
    (giveResult n v s).host.reply = some { ticket := n, value := v } := rfl
@[simp] theorem giveResult_tasks (n : Nat) (v : Value) (s : State) : (giveResult n v s).host.tasks = s.host.tasks := rfl
@[simp] theorem giveResult_session (n : Nat) (v : Value) (s : State) :
    (giveResult n v s).host.session = s.host.session := rfl
@[simp] theorem giveResult_nextTicket (n : Nat) (v : Value) (s : State) :
    (giveResult n v s).host.nextTicket = s.host.nextTicket := rfl

@[simp] theorem nextTicket_tasks (s : State) : (nextTicket s).host.tasks = s.host.tasks := rfl
@[simp] theorem nextTicket_session (s : State) : (nextTicket s).host.session = s.host.session := rfl
@[simp] theorem nextTicket_nextTicket (s : State) : (nextTicket s).host.nextTicket = s.host.nextTicket + 1 := rfl

@[simp] theorem writeSession_tasks (u : SessionUpdate) (s : State) : (writeSession u s).host.tasks = s.host.tasks := rfl
@[simp] theorem writeSession_nextTicket (u : SessionUpdate) (s : State) :
    (writeSession u s).host.nextTicket = s.host.nextTicket := rfl
@[simp] theorem writeSession_session (u : SessionUpdate) (s : State) :
    (writeSession u s).host.session = updateSession u s.host.session := rfl

@[simp] theorem emit_trace (r : TraceRec) (s : State) : (emit r s).trace = s.trace ++ [r] := rfl
@[simp] theorem transmit_txStream (bytes : List Byte) (s : State) :
    (transmit bytes s).ch.txStream = s.ch.txStream ++ bytes := rfl
@[simp] theorem transmit_rxStream (bytes : List Byte) (s : State) : (transmit bytes s).ch.rxStream = s.ch.rxStream := rfl
@[simp] theorem dropTurn_script (s : State) : (dropTurn s).script = s.script.tail := rfl

/-- A completed host operation in the words of the statements. -/
theorem hostReturn_eq (v : Value) (s : State) : hostReturn v s = returned v s := rfl
/-- A raised error is a result like another. -/
theorem hostRaise_eq (c : Cause) (s : State) : hostRaise c s = returned (.error (.engine c)) s := rfl

end Sys2Proof.Machine
end

