-- ==== Sys2Proof/Laws/Framer.lean ====
section
/-!
SUPPORT. What the reader's steps can do: the arrival of a frame (R194), its completion (R173), and each step that consumes
a byte (R166 to R172), in the words of Safety.
-/

namespace Sys2Proof.Machine

open Sys2Proof Sys2Proof.Safety

/-- PUSH, once for all cases (R193 to R196). -/
theorem pushFrame_eq (f : Frame) (s : State) :
    pushFrame f s =
      { s with eng := arrive s.par f s.eng, trace := s.trace ++ (arrivalTrace s.par f s.eng).tail } := by
  unfold pushFrame arrive arrivalTrace emit
  split_ifs <;> simp

/-- The length check is silent on a whole frame (R177). -/
theorem lengthCheck_whole {f : Frame} {s : State} (h : f.length = hlen s.par f + plen s.par f) :
    lengthCheck f s = s := by
  unfold lengthCheck lengthField
  split_ifs with h1 h2
  · rfl
  · rfl
  · exact absurd (by omega) h2

/-- Completion of a whole frame (R173): it is detached, announced and pushed. -/
theorem completeFrame_whole {s : State} (hc : s.eng.acc.length = s.eng.cnt)
    (h : s.eng.acc.length = hlen s.par s.eng.acc + plen s.par s.eng.acc) :
    completeFrame s =
      { s with
        eng := arrive s.par s.eng.acc { s.eng with acc := [], cnt := 0 }
        trace := s.trace ++ arrivalTrace s.par s.eng.acc s.eng
        detached := none } := by
  have hl : lengthCheck s.eng.acc (detach s) = detach s := lengthCheck_whole (by simpa using h)
  have ht : s.eng.acc.take s.eng.cnt = s.eng.acc := by rw [← hc, List.take_length]
  have e : completeFrame s = pushFrame s.eng.acc { emit (.rx s.eng.acc) (detach s) with detached := none } := by
    show announce (detach s) = _
    have hd : (detach s).detached = some s.eng.acc := by simp [detach, ht]
    unfold announce
    rw [hd]
    show pushDetached (emit (.rx s.eng.acc) (lengthCheck s.eng.acc (detach s))) = _
    rw [hl]
    unfold pushDetached
    rw [show (emit (.rx s.eng.acc) (detach s)).detached = some s.eng.acc from hd]
  rw [e, pushFrame_eq]
  simp only [emit, detach, arrivalTrace, List.append_assoc, List.cons_append, List.nil_append, List.tail_cons]
  cases s; rfl

/-- Arrival writes the queues and the drop counters only (R194). -/
theorem arrive_frame (p : Params) (f : Frame) (e : Engine) :
    (arrive p f e).acc = e.acc ∧ (arrive p f e).cnt = e.cnt ∧ (arrive p f e).hlen = e.hlen
      ∧ (arrive p f e).total = e.total ∧ (arrive p f e).seqTx = e.seqTx ∧ (arrive p f e).run = e.run
      ∧ (arrive p f e).stopReq = e.stopReq ∧ (arrive p f e).fatal = e.fatal ∧ (arrive p f e).portOpen = e.portOpen
      ∧ (arrive p f e).lenWarn = e.lenWarn ∧ (arrive p f e).inflight = e.inflight := by
  unfold arrive; split_ifs <;> simp

/-- Arrival adds one frame to one queue, or counts one drop (R194). -/
theorem arrive_cases (p : Params) (f : Frame) (e : Engine) :
    (byteAt f 0 = p.cmdMessage ∧ e.mq.length < p.mqDepth ∧ arrive p f e = { e with mq := e.mq ++ [f] })
      ∨ (byteAt f 0 = p.cmdMessage ∧ ¬e.mq.length < p.mqDepth ∧ arrive p f e = { e with dropM := e.dropM + 1 })
      ∨ (byteAt f 0 ≠ p.cmdMessage ∧ e.cq.length < p.cqDepth ∧ arrive p f e = { e with cq := e.cq ++ [f] })
      ∨ (byteAt f 0 ≠ p.cmdMessage ∧ ¬e.cq.length < p.cqDepth ∧ arrive p f e = { e with dropC := e.dropC + 1 }) := by
  unfold arrive; split_ifs <;> simp_all

/-- A whole frame's arrival keeps the invariants of R40 when the accumulator is empty. -/
theorem arrive_inv {p : Params} (hp : p.Facts) {f : Frame} {e : Engine} (h : EngineInv p e)
    (h0 : byteAt f 0 ≠ 0x00) (hw : f.length = hlen p f + plen p f) : EngineInv p (arrive p f e) := by
  have hpl := plen_lt p f
  rw [hlen_eq] at hw
  rcases arrive_cases p f e with ⟨a, b, c⟩ | ⟨a, b, c⟩ | ⟨a, b, c⟩ | ⟨a, b, c⟩ <;> rw [c]
  · refine { h with mqBound := by simp; omega, mqFrames := ?_ }
    intro g hg
    rcases List.mem_append.1 hg with hg | hg
    · exact h.mqFrames g hg
    · obtain rfl := List.mem_singleton.1 hg
      refine ⟨a, ?_⟩
      rw [hw, if_pos a, plen, if_neg, if_pos a]
      rw [a, isSyncCode_message hp]; simp
  · exact { h with }
  · refine { h with cqBound := by simp; omega, cqFrames := ?_ }
    intro g hg
    rcases List.mem_append.1 hg with hg | hg
    · exact h.cqFrames g hg
    · obtain rfl := List.mem_singleton.1 hg
      rw [if_neg a] at hw hpl
      exact ⟨h0, a, by omega, by omega, by omega⟩
  · exact { h with }

/-- The step that consumes a byte, where nothing can yet be complete (R166, R167). -/
theorem byteStep_hdr {b : Byte} {s : State} (h1 : 1 ≤ s.eng.cnt) (h2 : s.eng.cnt + 1 < s.eng.hlen) :
    byteStep b s = appendByte b s := by
  unfold byteStep
  rw [if_neg (by omega), if_pos h2, hdr]

/-- RX.LEN4's place in the dispatch (R161). -/
theorem byteStep_len4 {b : Byte} {s : State} (h0 : s.eng.cnt ≠ 0) (h1 : s.eng.cnt + 1 = s.eng.hlen)
    (h2 : s.eng.hlen = s.par.hlenShort) (h3 : isSyncCode s.par (byteAt s.eng.acc 0) = false) : byteStep b s = len4 b s := by
  unfold byteStep
  rw [if_neg h0, if_neg (by omega), if_pos h1, if_pos h2, if_neg (by simp [h3])]

/-- RX.LENSYNC's place in the dispatch (R161). -/
theorem byteStep_lenSync {b : Byte} {s : State} (h0 : s.eng.cnt ≠ 0) (h1 : s.eng.cnt + 1 = s.eng.hlen)
    (h2 : s.eng.hlen = s.par.hlenShort) (h3 : isSyncCode s.par (byteAt s.eng.acc 0) = true) :
    byteStep b s = lenSync b s := by
  unfold byteStep
  rw [if_neg h0, if_neg (by omega), if_pos h1, if_pos h2, if_pos h3]

/-- RX.LEN6's place in the dispatch (R161). -/
theorem byteStep_len6 {b : Byte} {s : State} (h0 : s.eng.cnt ≠ 0) (h1 : s.eng.cnt + 1 = s.eng.hlen)
    (h2 : s.eng.hlen ≠ s.par.hlenShort) : byteStep b s = len6 b s := by
  unfold byteStep
  rw [if_neg h0, if_neg (by omega), if_pos h1, if_neg h2]

/-- The three length steps are one (R168 to R171): the payload length is the one that the whole header declares. -/
theorem byteStep_length {b : Byte} {s : State} (hc : s.eng.acc.length = s.eng.cnt)
    (hh : s.eng.hlen = hlen s.par s.eng.acc) (h1 : 1 ≤ s.eng.cnt) (h2 : s.eng.cnt + 1 = s.eng.hlen) :
    byteStep b s =
      completeIfWhole { appendByte b s with
        eng.total := s.eng.hlen + plen s.par (s.eng.acc ++ [b]) } := by
  have h0 : byteAt (s.eng.acc ++ [b]) 0 = byteAt s.eng.acc 0 := byteAt_append_left _ _ _ (by omega)
  unfold byteStep
  rw [if_neg (by omega), if_neg (by omega), if_pos h2]
  by_cases hm : s.eng.hlen = s.par.hlenShort
  · rw [if_pos hm]
    by_cases hs : isSyncCode s.par (byteAt s.eng.acc 0) = true
    · have hp : plen s.par (s.eng.acc ++ [b]) = 0 := by rw [plen, h0, if_pos hs]
      rw [if_pos hs, lenSync, hp, completeIfWhole, if_pos, hm]; rfl
      exact h2
    · rw [if_neg hs, len4, hm]
  · have hl : s.eng.hlen = s.par.hlenLong := by
      rw [hh, hlen_eq] at hm ⊢
      split_ifs at hm ⊢
      · rfl
      · exact absurd rfl hm
    rw [if_neg hm, len6, hl]

/-- A payload byte (R172). -/
theorem byteStep_pay {b : Byte} {s : State} (h1 : 1 ≤ s.eng.cnt) (h2 : s.eng.hlen ≤ s.eng.cnt) :
    byteStep b s = completeIfWhole (appendByte b s) := by
  unfold byteStep
  rw [if_neg (by omega), if_neg (by omega), if_neg (by omega), pay]

/-- A byte on an empty accumulator (R165, R166). -/
theorem byteStep_start {b : Byte} {s : State} (h : s.eng.cnt = 0) :
    byteStep b s = if b = 0x00 then s else first b s := by
  unfold byteStep
  rw [if_pos h, skip0]

/-- The state after `b` is buffered with these lengths. -/
def bufferedAt (b : Byte) (hlen total : Nat) (s : State) : State :=
  { s with eng.acc := s.eng.acc ++ [b], eng.cnt := s.eng.cnt + 1, eng.hlen := hlen, eng.total := total }

/-- The state after `b` completes the frame of the given total. -/
def completedAt (b : Byte) (total : Nat) (s : State) : State :=
  { s with
    eng := arrive s.par (s.eng.acc ++ [b]) { s.eng with acc := [], cnt := 0, total := total }
    trace := s.trace ++ arrivalTrace s.par (s.eng.acc ++ [b]) s.eng
    detached := none }

/-- The invariants of R40 on the framer's registers alone: (I1) to (I4). -/
structure FramerInv (p : Params) (e : Engine) : Prop where
  count : e.acc.length = e.cnt
  start : 1 ≤ e.cnt → byteAt e.acc 0 ≠ 0x00 ∧ e.hlen = hlen p e.acc
  header : 1 ≤ e.cnt → e.cnt < e.hlen → e.total = e.hlen
  payload : 1 ≤ e.cnt → e.hlen ≤ e.cnt → e.total = e.hlen + plen p e.acc ∧ e.cnt < e.total

theorem framerInv_of_engineInv {p : Params} {e : Engine} (h : EngineInv p e) : FramerInv p e :=
  ⟨h.count, h.start, h.header, h.payload⟩

/-- The bound of (I1) follows from the others. -/
theorem framerInv_bound {p : Params} {e : Engine} (hw : p.Headers) (h : FramerInv p e) : e.cnt ≤ p.accCap := by
  have := hw.apart
  rw [hw.accCap]
  rcases Nat.eq_zero_or_pos e.cnt with h0 | h0
  · omega
  · have h1 := (h.start h0).2
    have h3 := plen_lt p e.acc
    rw [hlen_eq] at h1
    rcases Nat.lt_or_ge e.cnt e.hlen with h4 | h4
    · split_ifs at h1 <;> omega
    · have := h.payload h0 h4
      split_ifs at h1 h3 <;> omega

/-- All that a byte can do (R161, R174): it is skipped; or it is buffered and the frame is not whole; or it makes the
buffered bytes one whole frame, which arrives. -/
theorem byteStep_cases {b : Byte} {s : State} (hw : s.par.Headers) (h : FramerInv s.par s.eng) :
    (s.eng.cnt = 0 ∧ b = 0x00 ∧ byteStep b s = s)
      ∨ (∃ total, byteAt (s.eng.acc ++ [b]) 0 ≠ 0x00
          ∧ byteStep b s = bufferedAt b (hlen s.par (s.eng.acc ++ [b])) total s
          ∧ FramerInv s.par (bufferedAt b (hlen s.par (s.eng.acc ++ [b])) total s).eng)
      ∨ (byteAt (s.eng.acc ++ [b]) 0 ≠ 0x00 ∧ 1 ≤ s.eng.cnt
          ∧ (s.eng.acc ++ [b]).length = hlen s.par (s.eng.acc ++ [b]) + plen s.par (s.eng.acc ++ [b])
          ∧ byteStep b s = completedAt b (s.eng.cnt + 1) s) := by
  have hc := h.count
  rcases Nat.eq_zero_or_pos s.eng.cnt with h0 | h0
  · rw [byteStep_start h0]
    have ha : s.eng.acc = [] := List.eq_nil_of_length_eq_zero (by omega)
    by_cases hb : b = 0x00
    · exact .inl ⟨h0, hb, if_pos hb⟩
    · right; left
      have hge : 4 ≤ hlenOf s.par b := by
        have := hw.short
        have := hw.long
        unfold hlenOf
        split_ifs <;> omega
      refine ⟨hlenOf s.par b, ?_, ?_, ?_⟩
      · simpa [ha] using hb
      · rw [if_neg hb]; unfold first bufferedAt; simp [ha, h0, hlen]
      · refine ⟨?_, ?_, ?_, ?_⟩
        · simp [bufferedAt, ha, h0]
        · intro _; refine ⟨?_, ?_⟩
          · simpa [bufferedAt, ha] using hb
          · simp [bufferedAt]
        · intro _ _; simp [bufferedAt, ha, hlen]
        · intro _ hx; simp [bufferedAt, ha, h0, hlen] at hx; omega
  · obtain ⟨hs0, hs1⟩ := h.start h0
    have hb0 : byteAt (s.eng.acc ++ [b]) 0 = byteAt s.eng.acc 0 := byteAt_append_left _ _ _ (by omega)
    have hhl : hlen s.par (s.eng.acc ++ [b]) = hlen s.par s.eng.acc := hlen_append _ _ _ (by omega)
    have hlb : (s.eng.acc ++ [b]).length = s.eng.cnt + 1 := by simp [hc]
    have hpl := plen_lt s.par (s.eng.acc ++ [b])
    rw [hb0] at hpl
    rcases Nat.lt_trichotomy (s.eng.cnt + 1) s.eng.hlen with hx | hx | hx
    · right; left
      refine ⟨s.eng.total, hb0 ▸ hs0, ?_, ?_⟩
      · rw [byteStep_hdr h0 hx, hhl, ← hs1]; rfl
      · have ht := h.header h0 (by omega)
        refine ⟨?_, ?_, ?_, ?_⟩
        · simp [bufferedAt, hc]
        · intro _; exact ⟨hb0 ▸ hs0, rfl⟩
        · intro _ _; simp [bufferedAt, hhl]; omega
        · intro _ hy; simp [bufferedAt, hhl] at hy; omega
    · right
      have hl := byteStep_length hc hs1 h0 hx (b := b)
      by_cases hz : plen s.par (s.eng.acc ++ [b]) = 0
      · right
        have hwl : (s.eng.acc ++ [b]).length = hlen s.par (s.eng.acc ++ [b]) + plen s.par (s.eng.acc ++ [b]) := by
          rw [hlb, hhl, hz]; omega
        refine ⟨hb0 ▸ hs0, h0, hwl, ?_⟩
        rw [hl, completeIfWhole, if_pos (by show s.eng.cnt + 1 = s.eng.hlen + _; omega), completeFrame_whole hlb hwl]
        simp only [appendByte, completedAt, hz, arrivalTrace]
        rw [← hx]; rfl
      · left
        refine ⟨s.eng.hlen + plen s.par (s.eng.acc ++ [b]), hb0 ▸ hs0, ?_, ?_⟩
        · rw [hl, completeIfWhole, if_neg (by show ¬(s.eng.cnt + 1 = s.eng.hlen + _); omega), hhl, ← hs1]; rfl
        · refine ⟨?_, ?_, ?_, ?_⟩
          · simp [bufferedAt, hc]
          · intro _; exact ⟨hb0 ▸ hs0, rfl⟩
          · intro _ hy; simp [bufferedAt, hhl] at hy; omega
          · intro _ _; simp [bufferedAt, hhl]; omega
    · obtain ⟨ht, hlt⟩ := h.payload h0 (by omega)
      have hpa : plen s.par (s.eng.acc ++ [b]) = plen s.par s.eng.acc := plen_append hw _ _ (by omega)
      have hl := byteStep_pay h0 (by omega : s.eng.hlen ≤ s.eng.cnt) (b := b)
      right
      by_cases hw : s.eng.cnt + 1 = s.eng.total
      · right
        have hwl : (s.eng.acc ++ [b]).length = hlen s.par (s.eng.acc ++ [b]) + plen s.par (s.eng.acc ++ [b]) := by
          rw [hlb, hhl, hpa]; omega
        refine ⟨hb0 ▸ hs0, h0, hwl, ?_⟩
        rw [hl, completeIfWhole, if_pos (show (appendByte b s).eng.cnt = (appendByte b s).eng.total from hw), completeFrame_whole hlb hwl]
        simp only [appendByte, completedAt, arrivalTrace]
        rw [hw]; rfl
      · left
        refine ⟨s.eng.total, hb0 ▸ hs0, ?_, ?_⟩
        · rw [hl, completeIfWhole, if_neg (show ¬(appendByte b s).eng.cnt = (appendByte b s).eng.total from hw), hhl, ← hs1]; rfl
        · refine ⟨?_, ?_, ?_, ?_⟩
          · simp [bufferedAt, hc]
          · intro _; exact ⟨hb0 ▸ hs0, rfl⟩
          · intro _ hy; simp [bufferedAt, hhl] at hy; omega
          · intro _ _; simp [bufferedAt, hhl, hpa]; omega

end Sys2Proof.Machine
end

