-- ==== Sys2Proof/Laws/Tasks.lean ====
section
/-!
SUPPORT. What a piece of a host operation can do to the machine, once for all pieces, and what the host software's own part
of it leaves alone.
-/

namespace Sys2Proof.Machine

open Sys2Proof Sys2Proof.Safety

/-- Only the host's side differs. -/
structure HostOnly (s t : State) : Prop where
  par : t.par = s.par
  eng : t.eng = s.eng
  ch : t.ch = s.ch
  trace : t.trace = s.trace
  detached : t.detached = s.detached
  script : t.script = s.script
  fresh : t.fresh = s.fresh

theorem HostOnly.refl (s : State) : HostOnly s s := ⟨rfl, rfl, rfl, rfl, rfl, rfl, rfl⟩

theorem HostOnly.trans {s t u : State} (h : HostOnly s t) (k : HostOnly t u) : HostOnly s u :=
  ⟨k.par.trans h.par, k.eng.trans h.eng, k.ch.trans h.ch, k.trace.trans h.trace, k.detached.trans h.detached,
    k.script.trans h.script, k.fresh.trans h.fresh⟩

theorem hostOnly_giveResult (n : Nat) (v : Value) (s : State) : HostOnly s (giveResult n v s) := ⟨rfl, rfl, rfl, rfl, rfl, rfl, rfl⟩
theorem hostOnly_nextTicket (s : State) : HostOnly s (nextTicket s) := ⟨rfl, rfl, rfl, rfl, rfl, rfl, rfl⟩
theorem hostOnly_returned (v : Value) (s : State) : HostOnly s (returned v s) := ⟨rfl, rfl, rfl, rfl, rfl, rfl, rfl⟩
theorem hostOnly_park (t : Task) (s : State) : HostOnly s (park t s) := ⟨rfl, rfl, rfl, rfl, rfl, rfl, rfl⟩
theorem hostOnly_finish (t : Task) (s : State) : HostOnly s (finish t s) := ⟨rfl, rfl, rfl, rfl, rfl, rfl, rfl⟩
theorem hostOnly_failTask (e : HostError) (t : Task) (s : State) : HostOnly s (failTask e t s) :=
  ⟨rfl, rfl, rfl, rfl, rfl, rfl, rfl⟩
theorem hostOnly_writeSession (u : SessionUpdate) (s : State) : HostOnly s (writeSession u s) :=
  ⟨rfl, rfl, rfl, rfl, rfl, rfl, rfl⟩

theorem hostOnly_runLocals (acts : List Act) (t : Task) (s : State) : HostOnly s (runLocals acts t s).2 := by
  induction acts generalizing t s with
  | nil => exact .refl s
  | cons a rest ih =>
    cases a <;> first
      | exact .refl s
      | exact (hostOnly_writeSession _ s).trans (ih _ _)
      | exact ih _ _

theorem hostOnly_goOn (rest : List Act) (t : Task) (s : State) : HostOnly s (goOn rest t s) := by
  have h := hostOnly_runLocals rest t s
  unfold goOn
  split
  rename_i t' s' e
  rw [e] at h
  split_ifs
  · exact h.trans (hostOnly_finish _ _)
  · exact h.trans (hostOnly_park _ _)

theorem hostOnly_handleError (e : HostError) (t : Task) (s : State) : HostOnly s (handleError e t s) := by
  unfold handleError
  split
  · exact hostOnly_failTask _ _ _
  · exact (hostOnly_writeSession _ s).trans (hostOnly_failTask _ _ _)
  · exact (hostOnly_writeSession _ s).trans (hostOnly_failTask _ _ _)
  · exact (hostOnly_writeSession _ s).trans (hostOnly_park _ _)
  · exact (hostOnly_writeSession _ s).trans (hostOnly_failTask _ _ _)
  · exact (hostOnly_writeSession _ s).trans (hostOnly_failTask _ _ _)

/-- The state a piece leaves, however it ends. -/
def outState : ActOut → State
  | .done _ s => s
  | .wait _ s => s
  | .fail _ s => s

/-- What is left to the host software after a piece touches the host's side only. -/
theorem advance_outState (t : Task) (s : State) :
    (t.acts = [] ∧ HostOnly s (advance t s))
      ∨ ∃ a rest, t.acts = a :: rest ∧ HostOnly (outState (runAct a t s)) (advance t s) := by
  unfold advance
  split
  · exact .inl ⟨by assumption, hostOnly_finish _ _⟩
  · rename_i a rest h
    refine .inr ⟨a, rest, h, ?_⟩
    split <;> rename_i e <;> rw [e]
    · exact hostOnly_goOn _ _ _
    · exact hostOnly_park _ _
    · exact hostOnly_handleError _ _ _

/-- All that a host operation other than RST can do to the machine: the reader's registers stay, `SEQ_TX` advances or is
zeroed, one queue may lose its head, `STOP_REQ` may be set, the port may be closed while the reader is stopped, the TX
stream may grow while the port is open. -/
structure HostMove (s t : State) : Prop where
  par : t.par = s.par
  detached : t.detached = s.detached
  script : t.script = s.script
  rxStream : t.ch.rxStream = s.ch.rxStream
  eng : t.eng = { s.eng with
    seqTx := t.eng.seqTx, cq := t.eng.cq, mq := t.eng.mq, stopReq := t.eng.stopReq, portOpen := t.eng.portOpen }
  seqTx : t.eng.seqTx = s.eng.seqTx ∨ t.eng.seqTx = s.eng.seqTx + 1 ∨ t.eng.seqTx = 0
  queues :
    (t.eng.cq = s.eng.cq ∧ t.eng.mq = s.eng.mq) ∨ (t.eng.cq = s.eng.cq ∧ ∃ f, s.eng.mq = f :: t.eng.mq)
      ∨ (t.eng.mq = s.eng.mq ∧ ∃ f, s.eng.cq = f :: t.eng.cq)
  stopReq : s.eng.stopReq = true → t.eng.stopReq = true
  port : t.eng.portOpen = s.eng.portOpen ∨ (t.eng.portOpen = false ∧ s.eng.run = false)
  txStream : ∃ bytes, t.ch.txStream = s.ch.txStream ++ bytes
  closed : s.eng.portOpen = false → t.ch.txStream = s.ch.txStream

theorem HostOnly.move {s t : State} (h : HostOnly s t) : HostMove s t where
  par := h.par
  detached := h.detached
  script := h.script
  rxStream := by rw [h.ch]
  eng := by rw [h.eng]
  seqTx := .inl (by rw [h.eng])
  queues := .inl (by rw [h.eng]; simp)
  stopReq := by rw [h.eng]; exact id
  port := .inl (by rw [h.eng])
  txStream := ⟨[], by rw [h.ch]; simp⟩
  closed := fun _ => by rw [h.ch]

/-- A move and then a change of the host's side only. -/
theorem HostMove.then {s t u : State} (h : HostMove s t) (k : HostOnly t u) : HostMove s u := by
  obtain ⟨kp, ke, kc, kt, kd, ks, kf⟩ := k
  exact
    { par := kp.trans h.par, detached := kd.trans h.detached, script := ks.trans h.script
      rxStream := by rw [kc]; exact h.rxStream
      eng := by rw [ke]; exact h.eng
      seqTx := by rw [ke]; exact h.seqTx
      queues := by rw [ke]; exact h.queues
      stopReq := by rw [ke]; exact h.stopReq
      port := by rw [ke]; exact h.port
      txStream := by rw [kc]; exact h.txStream
      closed := by rw [kc]; exact h.closed }

/-- A change of the host's side only and then a move. -/
theorem HostOnly.andThen {s t u : State} (k : HostOnly s t) (h : HostMove t u) : HostMove s u := by
  obtain ⟨kp, ke, kc, kt, kd, ks, kf⟩ := k
  exact
    { par := h.par.trans kp, detached := h.detached.trans kd, script := h.script.trans ks
      rxStream := by rw [← kc]; exact h.rxStream
      eng := by rw [← ke]; exact h.eng
      seqTx := by rw [← ke]; exact h.seqTx
      queues := by rw [← ke]; exact h.queues
      stopReq := by rw [← ke]; exact h.stopReq
      port := by rw [← ke]; exact h.port
      txStream := by rw [← kc]; exact h.txStream
      closed := by rw [← ke, ← kc]; exact h.closed }

/-- What ENC does to `SEQ_TX` when it accepts (R111 to R113). -/
theorem encodeFrame_seq {p : Params} {seq seq' : BitVec 8} {command flags length : Nat} {payload bytes : List Byte}
    (h : encodeFrame p seq command flags length payload = .ok (bytes, seq')) : seq' = 0 ∨ seq' = seq + 1 := by
  unfold encodeFrame encSyncRow encMsgRow encCtrlRow at h
  by_cases h1 : command = p.cmdSync.toNat
  · rw [if_pos h1] at h; simp at h; exact .inl h.2.symm
  · rw [if_neg h1] at h
    by_cases h2 : (!p.inRange command) = true
    · rw [if_pos h2] at h; simp at h
    · rw [if_neg h2] at h
      split at h
      · simp at h
      · split_ifs at h <;> simp at h <;> exact .inr h.2.symm

theorem dropWrAnswer_eng (s : State) : (dropWrAnswer s).eng = s.eng := by unfold dropWrAnswer; split <;> rfl
theorem dropWrAnswer_par (s : State) : (dropWrAnswer s).par = s.par := by unfold dropWrAnswer; split <;> rfl
theorem dropWrAnswer_host (s : State) : (dropWrAnswer s).host = s.host := by unfold dropWrAnswer; split <;> rfl
theorem dropWrAnswer_detached (s : State) : (dropWrAnswer s).detached = s.detached := by unfold dropWrAnswer; split <;> rfl
theorem dropWrAnswer_script (s : State) : (dropWrAnswer s).script = s.script := by unfold dropWrAnswer; split <;> rfl
theorem dropWrAnswer_rxStream (s : State) : (dropWrAnswer s).ch.rxStream = s.ch.rxStream := by unfold dropWrAnswer; split <;> rfl
theorem dropWrAnswer_txStream (s : State) : (dropWrAnswer s).ch.txStream = s.ch.txStream := by unfold dropWrAnswer; split <;> rfl
theorem dropCloseAnswer_eng (s : State) : (dropCloseAnswer s).eng = s.eng := by unfold dropCloseAnswer; split <;> rfl
theorem dropCloseAnswer_par (s : State) : (dropCloseAnswer s).par = s.par := by unfold dropCloseAnswer; split <;> rfl
theorem dropCloseAnswer_host (s : State) : (dropCloseAnswer s).host = s.host := by unfold dropCloseAnswer; split <;> rfl
theorem dropCloseAnswer_detached (s : State) : (dropCloseAnswer s).detached = s.detached := by unfold dropCloseAnswer; split <;> rfl
theorem dropCloseAnswer_script (s : State) : (dropCloseAnswer s).script = s.script := by unfold dropCloseAnswer; split <;> rfl
theorem dropCloseAnswer_rxStream (s : State) : (dropCloseAnswer s).ch.rxStream = s.ch.rxStream := by
  unfold dropCloseAnswer; split <;> rfl
theorem dropCloseAnswer_txStream (s : State) : (dropCloseAnswer s).ch.txStream = s.ch.txStream := by
  unfold dropCloseAnswer; split <;> rfl

/-- WR touches the channel and the trace only (R190 to R192). -/
theorem writeFlush_move (raw : List Byte) (s : State) :
    HostMove s (writeFlush raw s).2 ∧ (writeFlush raw s).2.eng = s.eng ∧ (writeFlush raw s).2.host = s.host := by
  have he := dropWrAnswer_eng s
  unfold writeFlush
  split_ifs with h
  · split <;> (
      refine ⟨?_, he, dropWrAnswer_host s⟩
      constructor
      · exact dropWrAnswer_par s
      · exact dropWrAnswer_detached s
      · exact dropWrAnswer_script s
      · exact dropWrAnswer_rxStream s
      · simp [he]
      · simp [he]
      · simp [he]
      · simp [he]
      · simp [he]
      · simp [transmit, emit, dropWrAnswer_txStream]
      · simp [h])
  · exact ⟨(HostOnly.refl s).move, rfl, rfl⟩

/-- STOP phase 2 with the reader stopped closes the port and nothing else (R204, R205). -/
theorem closePort_move {s : State} (hr : s.eng.run = false) :
    HostMove s (closePort s).2 ∧ (closePort s).2.eng = { s.eng with portOpen := false } ∧ (closePort s).2.host = s.host := by
  have he := dropCloseAnswer_eng { s with eng.portOpen := false }
  unfold closePort
  by_cases h : s.eng.portOpen = true
  · rw [if_pos h]
    refine ⟨?_, he, dropCloseAnswer_host _⟩
    constructor
    · exact dropCloseAnswer_par _
    · exact dropCloseAnswer_detached _
    · exact dropCloseAnswer_script _
    · exact dropCloseAnswer_rxStream _
    · simp [he]
    · simp [he]
    · simp [he]
    · simp [he]
    · rw [he]; exact .inr ⟨rfl, hr⟩
    · simp [dropCloseAnswer_txStream]
    · simp [h]
  · rw [if_neg h]
    refine ⟨(HostOnly.refl s).move, ?_, rfl⟩
    simp at h
    cases hs : s.eng
    simp [hs] at h ⊢
    exact h

/-- A pop takes the head of one queue (R197). -/
theorem popQueue_move {q : QueueId} {s s' : State} {f : Frame} (h : popQueue q s = some (f, s')) : HostMove s s' := by
  unfold popQueue at h
  cases q <;> simp only [queueOf] at h <;> split at h <;> simp [setQueue] at h <;> obtain ⟨rfl, rfl⟩ := h
  · exact ⟨rfl, rfl, rfl, rfl, rfl, .inl rfl, .inr (.inr ⟨rfl, _, by assumption⟩), id, .inl rfl, ⟨[], by simp⟩, fun _ => rfl⟩
  · exact ⟨rfl, rfl, rfl, rfl, rfl, .inl rfl, .inr (.inl ⟨rfl, _, by assumption⟩), id, .inl rfl, ⟨[], by simp⟩, fun _ => rfl⟩

/-- A write of `SEQ_TX` alone. -/
theorem seqTx_move (s : State) (v : BitVec 8) (h : v = s.eng.seqTx ∨ v = s.eng.seqTx + 1 ∨ v = 0) :
    HostMove s { s with eng.seqTx := v } :=
  ⟨rfl, rfl, rfl, rfl, rfl, h, .inl ⟨rfl, rfl⟩, id, .inl rfl, ⟨[], by simp⟩, fun _ => rfl⟩

theorem actStop_move (t : Task) (s : State) : HostMove s (outState (actStop t s)) := by
  have h1 : HostMove s { s with eng.stopReq := true } :=
    ⟨rfl, rfl, rfl, rfl, rfl, .inl rfl, .inl ⟨rfl, rfl⟩, fun _ => rfl, .inl rfl, ⟨[], by simp⟩, fun _ => rfl⟩
  have key : ∀ s1 : State, HostMove s s1 → s1.eng.run = s.eng.run → s1.ch = s.ch → s1.eng.portOpen = s.eng.portOpen →
      HostMove s (outState (if s1.eng.run then .wait { t with waiting := true } s1
        else match closePort s1 with
          | (none, s2) => .done { t with value := .ok } s2
          | (some c, s2) => .fail (.engine c) s2)) := by
    intro s1 h hr hch hpo
    split_ifs with hrun
    · exact h
    · have hrun' : s1.eng.run = false := by simpa using hrun
      obtain ⟨m, me, mh⟩ := closePort_move hrun'
      have hs : HostMove s (closePort s1).2 := by
        refine ⟨m.par.trans h.par, m.detached.trans h.detached, m.script.trans h.script, m.rxStream.trans h.rxStream,
          ?_, ?_, ?_, ?_, ?_, ?_, ?_⟩
        · rw [me]; rw [h.eng]
        · rw [me]; exact h.seqTx
        · rw [me]; exact h.queues
        · rw [me]; exact h.stopReq
        · right; rw [me]; exact ⟨rfl, hr ▸ hrun'⟩
        · obtain ⟨b, hb⟩ := m.txStream; exact ⟨b, by rw [hb, hch]⟩
        · intro hc; rw [m.closed (by rw [hpo]; exact hc), hch]
      split <;> rename_i e <;> rw [e] at hs <;> exact hs
  refine key (if t.waiting then s else { s with eng.stopReq := true }) ?_ ?_ ?_ ?_ <;> split_ifs
  · exact (HostOnly.refl s).move
  · exact h1
  all_goals rfl

/-- One piece of a host operation, once for all pieces. -/
theorem runAct_move (a : Act) (t : Task) (s : State) :
    HostMove s (outState (runAct a t s)) ∨ (a = .rst ∧ runAct a t s = .done t (resetEngine s)) := by
  have hr := (HostOnly.refl s).move
  cases a with
  | enc command flags length payload =>
    left
    show HostMove s (outState (actEnc command flags length payload t s))
    unfold actEnc
    split
    · rename_i h; exact seqTx_move s _ ((encodeFrame_seq h).elim (fun h => .inr (.inr h)) (fun h => .inr (.inl h)))
    · exact hr
  | wr =>
    left
    show HostMove s (outState (actWr t s))
    have h := (writeFlush_move t.raw s).1
    unfold actWr
    split <;> rename_i e <;> rw [e] at h <;> exact h
  | pop q timeout =>
    left
    show HostMove s (outState (actPop q t s))
    unfold actPop
    split
    · rename_i h; exact popQueue_move h
    · split_ifs <;> exact hr
  | answer command =>
    left
    show HostMove s (outState (actAnswer command t s))
    unfold actAnswer
    split
    · exact hr
    · split
      · exact hr
      · split_ifs <;> exact hr
  | syncAnswer =>
    left
    show HostMove s (outState (actSyncAnswer t s))
    unfold actSyncAnswer
    split
    · exact hr
    · split
      · exact hr
      · split_ifs <;> exact hr
  | seqClr => exact .inl (seqTx_move s 0 (.inr (.inr rfl)))
  | stop => exact .inl (actStop_move t s)
  | rst => exact .inr ⟨rfl, rfl⟩
  | received =>
    left
    have hm : ∀ (r : TraceRec) (n : Nat), HostMove s { emit r s with fresh := n } := fun _ _ =>
      ⟨rfl, rfl, rfl, rfl, rfl, .inl rfl, .inl ⟨rfl, rfl⟩, id, .inl rfl, ⟨[], by simp [emit]⟩, fun _ => rfl⟩
    have hf : ∀ (n : Nat), HostMove s { s with fresh := n } := fun _ =>
      ⟨rfl, rfl, rfl, rfl, rfl, .inl rfl, .inl ⟨rfl, rfl⟩, id, .inl rfl, ⟨[], by simp⟩, fun _ => rfl⟩
    show HostMove s (outState (actReceived t s))
    unfold actReceived
    split
    · exact hr
    · split
      · exact hr
      · split
        · exact hf _
        · dsimp only [outState]
          split_ifs
          · exact hm _ _
          · exact hf _
  | fail e => exact .inl hr
  | session u => exact .inl (hostOnly_writeSession u s).move
  | deliver => exact .inl hr
  | succeed => exact .inl hr
  | closing => exact .inl hr

/-- RST has just been done. -/
structure RstMove (s t : State) : Prop where
  eng : JustReset t.eng
  par : t.par = s.par
  detached : t.detached = none
  script : t.script = s.script
  ch : t.ch = s.ch

/-- A host operation that begins or goes on, once for all. -/
theorem advance_move (t : Task) (s : State) :
    HostMove s (advance t s) ∨ (RstMove s (advance t s) ∧ t.acts.head? = some .rst) := by
  rcases advance_outState t s with ⟨-, h⟩ | ⟨a, rest, ha, h⟩
  · exact .inl h.move
  · rcases runAct_move a t s with hm | ⟨rfl, hm⟩
    · exact .inl (hm.then h)
    · right
      rw [hm] at h
      refine ⟨⟨?_, h.par, h.detached, h.script, h.ch⟩, by rw [ha]; rfl⟩
      rw [h.eng]; rfl

theorem beginTask_move (acts : List Act) (handler : Handler) (s : State) :
    HostMove s (beginTask acts handler s) ∨ (RstMove s (beginTask acts handler s) ∧ acts.head? = some .rst) := by
  have hn := hostOnly_nextTicket s
  rcases advance_move ⟨s.host.nextTicket, acts, handler, [], none, false, .ok⟩ (nextTicket s) with h | ⟨h, h2⟩
  · exact .inl (hn.andThen h)
  · exact .inr ⟨⟨h.eng, h.par, h.detached, h.script, h.ch⟩, h2⟩

theorem resumeTask_move (n : Nat) (s : State) :
    HostMove s (resumeTask n s)
      ∨ (RstMove s (resumeTask n s) ∧ ∃ t ∈ s.host.tasks, t.ticket = n ∧ t.acts.head? = some .rst) := by
  unfold resumeTask
  split
  · rename_i t ht
    refine (advance_move t s).imp id fun h => ⟨h.1, t, List.mem_of_find?_eq_some ht, ?_, h.2⟩
    simpa using List.find?_some ht
  · exact .inl (HostOnly.refl s).move

end Sys2Proof.Machine
end

