-- ==== Sys2Proof/Laws/Tickets.lean ====
section
/-!
SUPPORT. What a host operation that begins, waits, goes on or ends does to the list of pending operations.
-/

namespace Sys2Proof.Machine

open Sys2Proof Sys2Proof.Safety

/-- The pending operations and the next number are as before. -/
def SameTasks (s t : State) : Prop :=
  t.host.tasks = s.host.tasks ∧ t.host.nextTicket = s.host.nextTicket

/-- How a piece ends keeps the operation's number and the other operations. -/
def KeepsTicket (t : Task) (s : State) : ActOut → Prop
  | .done t' s' => t'.ticket = t.ticket ∧ SameTasks s s'
  | .wait t' s' => t'.ticket = t.ticket ∧ SameTasks s s'
  | .fail _ s' => SameTasks s s'

theorem sameTasks_of_host {s t : State} (h : t.host = s.host) : SameTasks s t := by
  rw [SameTasks, h]; exact ⟨rfl, rfl⟩

theorem sameTasks_writeSession (u : SessionUpdate) (s : State) : SameTasks s (writeSession u s) := ⟨rfl, rfl⟩

/-- No piece touches the list of pending operations. -/
theorem runAct_ticket (a : Act) (t : Task) (s : State) : KeepsTicket t s (runAct a t s) := by
  have hr : SameTasks s s := ⟨rfl, rfl⟩
  cases a with
  | enc command flags length payload =>
    show KeepsTicket t s (actEnc command flags length payload t s)
    unfold actEnc
    split
    · exact ⟨rfl, hr⟩
    · exact hr
  | wr =>
    show KeepsTicket t s (actWr t s)
    have h := sameTasks_of_host (writeFlush_move t.raw s).2.2
    unfold actWr
    split <;> rename_i e <;> rw [e] at h
    · exact ⟨rfl, h⟩
    · exact h
  | pop q timeout =>
    show KeepsTicket t s (actPop q t s)
    unfold actPop
    split
    · rename_i h
      refine ⟨rfl, sameTasks_of_host ?_⟩
      unfold popQueue at h
      split at h
      · simp at h; obtain ⟨-, rfl⟩ := h; cases q <;> rfl
      · simp at h
    · split_ifs <;> exact ⟨rfl, hr⟩
  | answer command =>
    show KeepsTicket t s (actAnswer command t s)
    unfold actAnswer
    split
    · exact hr
    · split
      · exact hr
      · split_ifs <;> first | exact hr | exact ⟨rfl, hr⟩
  | syncAnswer =>
    show KeepsTicket t s (actSyncAnswer t s)
    unfold actSyncAnswer
    split
    · exact hr
    · split
      · exact hr
      · split_ifs <;> first | exact hr | exact ⟨rfl, hr⟩
  | seqClr => exact ⟨rfl, hr⟩
  | stop =>
    show KeepsTicket t s (actStop t s)
    have key : ∀ s1 : State, s1.host = s.host → KeepsTicket t s (if s1.eng.run then .wait { t with waiting := true } s1
        else match closePort s1 with
          | (none, s2) => .done { t with value := .ok } s2
          | (some c, s2) => .fail (.engine c) s2) := by
      intro s1 h1
      split_ifs with hrun
      · exact ⟨rfl, sameTasks_of_host h1⟩
      · have h := sameTasks_of_host ((closePort_move (by simpa using hrun)).2.2.trans h1)
        split <;> rename_i e <;> rw [e] at h
        · exact ⟨rfl, h⟩
        · exact h
    refine key (if t.waiting then s else { s with eng.stopReq := true }) ?_
    split_ifs <;> rfl
  | rst => exact ⟨rfl, hr⟩
  | received =>
    show KeepsTicket t s (actReceived t s)
    unfold actReceived
    split
    · exact ⟨rfl, hr⟩
    · split
      · exact hr
      · split
        · exact ⟨rfl, hr⟩
        · refine ⟨rfl, ?_⟩
          split_ifs <;> exact ⟨rfl, rfl⟩
  | fail e => exact hr
  | session u => exact ⟨rfl, hr⟩
  | deliver => exact ⟨rfl, hr⟩
  | succeed => exact ⟨rfl, hr⟩
  | closing => exact ⟨rfl, hr⟩

theorem runLocals_ticket (acts : List Act) (t : Task) (s : State) :
    (runLocals acts t s).1.ticket = t.ticket ∧ SameTasks s (runLocals acts t s).2 := by
  induction acts generalizing t s with
  | nil => exact ⟨rfl, rfl, rfl⟩
  | cons a rest ih =>
    cases a <;> first
      | exact ⟨rfl, rfl, rfl⟩
      | exact ih _ _

/-- An operation that begins or goes on ends, or is the last of the pending ones; the others stay. -/
theorem advance_tasks (t : Task) (s : State) :
    (advance t s).host.nextTicket = s.host.nextTicket
      ∧ ((advance t s).host.tasks = otherTasks t.ticket s.host.tasks
        ∨ ∃ t', t'.ticket = t.ticket ∧ (advance t s).host.tasks = otherTasks t.ticket s.host.tasks ++ [t']) := by
  unfold advance
  split
  · exact ⟨rfl, .inl rfl⟩
  · rename_i a rest h
    have hk := runAct_ticket a t s
    split <;> rename_i e <;> rw [e] at hk
    · rename_i t1 s1
      obtain ⟨hk1, hk2, hk3⟩ := hk
      obtain ⟨hl1, hl2, hl3⟩ := runLocals_ticket rest t1 s1
      unfold goOn
      split
      rename_i t2 s2 e2
      rw [e2] at hl1 hl2 hl3
      have ht : t2.ticket = t.ticket := hl1.trans hk1
      have hs : s2.host.tasks = s.host.tasks := hl2.trans hk2
      have hn : s2.host.nextTicket = s.host.nextTicket := hl3.trans hk3
      split_ifs
      · exact ⟨hn, .inl (by show otherTasks t2.ticket s2.host.tasks = _; rw [ht, hs])⟩
      · exact ⟨hn, .inr ⟨t2, ht, by show otherTasks t2.ticket s2.host.tasks ++ _ = _; rw [ht, hs]⟩⟩
    · rename_i t1 s1
      obtain ⟨hk1, hk2, hk3⟩ := hk
      exact ⟨hk3, .inr ⟨t1, hk1, by show otherTasks t1.ticket s1.host.tasks ++ _ = _; rw [hk1, hk2]⟩⟩
    · rename_i er s1
      obtain ⟨hk2, hk3⟩ := hk
      unfold handleError
      split
      · exact ⟨hk3, .inl (by show otherTasks _ s1.host.tasks = _; rw [hk2])⟩
      · exact ⟨hk3, .inl (by show otherTasks _ s1.host.tasks = _; rw [hk2])⟩
      · exact ⟨hk3, .inl (by show otherTasks _ s1.host.tasks = _; rw [hk2])⟩
      · refine ⟨hk3, .inr ⟨{ t with acts := [.stop, .session .portClosed], handler := .closePort, waiting := false }, rfl, ?_⟩⟩
        show otherTasks _ s1.host.tasks ++ _ = _
        rw [hk2]
      · exact ⟨hk3, .inl (by show otherTasks _ s1.host.tasks = _; rw [hk2])⟩
      · exact ⟨hk3, .inl (by show otherTasks _ s1.host.tasks = _; rw [hk2])⟩

/-- Where no pending operation has the number, there is none to leave out. -/
theorem otherTasks_absent {n : Nat} {tasks : List Task} (h : ∀ t ∈ tasks, t.ticket ≠ n) : otherTasks n tasks = tasks := by
  rw [otherTasks, List.filter_eq_self]
  intro t ht
  simpa using h t ht

/-- With fresh numbers, no pending operation has the next one. -/
theorem otherTasks_fresh {s : State} (h : TicketsFresh s) : otherTasks s.host.nextTicket s.host.tasks = s.host.tasks :=
  otherTasks_absent fun t ht => Nat.ne_of_lt (h.2 t ht)

/-- A pending operation is the one found under its number. -/
theorem find_ticket {s : State} {t : Task} (h : TicketsFresh s) (ht : t ∈ s.host.tasks) :
    s.host.tasks.find? (fun u => u.ticket == t.ticket) = some t := by
  have hn := h.1
  generalize s.host.tasks = l at ht hn
  induction l with
  | nil => simp at ht
  | cons a l ih =>
    simp only [List.map_cons, List.nodup_cons] at hn
    rcases List.mem_cons.1 ht with rfl | ht
    · simp
    · have : a.ticket ≠ t.ticket := fun e => hn.1 (e ▸ List.mem_map_of_mem ht)
      simp [this, ih ht hn.2]

/-- A pending operation goes on when its number is called. -/
theorem resumeTask_pending {s : State} {t : Task} (h : TicketsFresh s) (ht : t ∈ s.host.tasks) :
    resumeTask t.ticket s = advance t s := by
  rw [resumeTask, find_ticket h ht]

/-- With distinct numbers, leaving out a pending operation's number leaves out exactly that operation. -/
theorem otherTasks_erase {s : State} {t : Task} (h : TicketsFresh s) (ht : t ∈ s.host.tasks) :
    otherTasks t.ticket s.host.tasks = s.host.tasks.erase t := by
  have hn := h.1
  generalize s.host.tasks = l at ht hn
  unfold otherTasks
  induction l with
  | nil => simp at ht
  | cons a l ih =>
    simp only [List.map_cons, List.nodup_cons] at hn
    by_cases e : a = t
    · subst e
      rw [List.erase_cons_head, List.filter_cons_of_neg (by simp), List.filter_eq_self]
      intro u hu
      have : u.ticket ≠ a.ticket := fun e => hn.1 (e ▸ List.mem_map_of_mem hu)
      simpa using this
    · have ht' : t ∈ l := (List.mem_cons.1 ht).resolve_left fun x => e x.symm
      have : a.ticket ≠ t.ticket := fun e => hn.1 (e ▸ List.mem_map_of_mem ht')
      rw [List.erase_cons_tail (by simpa using e), List.filter_cons_of_pos (by simpa using this), ih ht' hn.2]

/-- The session after its channel has been closed (R231). -/
theorem updateSession_channelClosed (x : Session) :
    updateSession .channelClosed x = { x with channelOpen := false, phase := closedPhase x.phase } := by
  unfold updateSession closedPhase stepPhase
  cases x.phase <;> rfl

/-- The session after the port has been closed (R231). -/
theorem updateSession_portClosed (x : Session) :
    updateSession .portClosed x = { x with phase := portPhase x.phase } := rfl

/-- The session after a transition has failed (R231). -/
theorem updateSession_failedFrom (source : Phase) (x : Session) :
    updateSession (.failedFrom source) x = { x with phase := failedPhase source x.phase } := rfl

/-- What a piece that is done makes of a pending operation: the statements' `proceeds`. -/
theorem goOn_eq_proceeds {s u : State} {t now : Task} (h : TicketsFresh s) (ht : t ∈ s.host.tasks)
    (hn : now.ticket = t.ticket) (hu : u.host.tasks = s.host.tasks) (rest : List Act) :
    goOn rest now u = proceeds t now rest u := by
  have ho := otherTasks_erase h ht
  induction rest generalizing now u with
  | nil => simp [goOn, runLocals, finish, retire, giveResult, proceeds, ended, hn, hu, ho]
  | cons a rest ih =>
    cases a <;> first
      | exact ih hn (by exact hu)
      | simp [goOn, runLocals, park, giveResult, proceeds, continued, hn, hu, ho]

/-- What a piece that fails makes of a pending operation: the statements' `failed`. -/
theorem handleError_eq_failed {s u : State} {t : Task} (h : TicketsFresh s) (ht : t ∈ s.host.tasks)
    (hu : u.host.tasks = s.host.tasks) (e : HostError) : handleError e t u = failed e t u := by
  have ho := otherTasks_erase h ht
  unfold handleError failed
  cases t.handler <;> simp only [failTask, raiseError, giveResult, retire, ended, park, continued, writeSession,
    updateSession_channelClosed, updateSession_portClosed, updateSession_failedFrom, hu, ho]
  rfl

/-- A pending operation whose first piece is done. -/
theorem resumeTask_done {s u : State} {t now : Task} {a : Act} {rest : List Act} (h : TicketsFresh s)
    (ht : t ∈ s.host.tasks) (ha : t.acts = a :: rest) (hr : runAct a t s = .done now u) :
    resumeTask t.ticket s = proceeds t now rest u := by
  have hk := runAct_ticket a t s
  rw [hr] at hk
  rw [resumeTask_pending h ht]
  unfold advance
  rw [ha]
  dsimp only
  rw [hr]
  exact goOn_eq_proceeds h ht hk.1 hk.2.1 rest

/-- A pending operation whose first piece fails. -/
theorem resumeTask_fail {s u : State} {t : Task} {a : Act} {rest : List Act} {e : HostError} (h : TicketsFresh s)
    (ht : t ∈ s.host.tasks) (ha : t.acts = a :: rest) (hr : runAct a t s = .fail e u) :
    resumeTask t.ticket s = failed e t u := by
  have hk := runAct_ticket a t s
  rw [hr] at hk
  rw [resumeTask_pending h ht]
  unfold advance
  rw [ha]
  dsimp only
  rw [hr]
  exact handleError_eq_failed h ht hk.1 e

end Sys2Proof.Machine
end

