-- ==== Sys2Proof/Laws/Exec.lean ====
section
/-!
SUPPORT. What one instruction, and one step, can do: a host operation's move, RST, a micro-step of the reader, or the delivery
of a frame that is already complete or detached.
-/

namespace Sys2Proof.Machine

open Sys2Proof Sys2Proof.Safety

/-- A micro-step of the reader, or a whole iteration of it (R160, R161). -/
inductive ReaderMove (s : State) : State → Prop where
  | stay : ReaderMove s s
  | arm : s.eng.run = true → ReaderMove s (arm s)
  | stopChk : s.eng.run = true → s.eng.inflight = false → s.eng.stopReq = true → ReaderMove s (stopChk s)
  | idle : ReaderMove s (idle s)
  | readError : s.eng.run = true → ReaderMove s (readError s)
  | byte (b : Byte) : s.eng.run = true → (s.eng.inflight = true ∨ s.eng.stopReq = false) →
      ReaderMove s (byteStep b (takeByte b s))

theorem offerByte_move (b : Byte) (s : State) : ReaderMove s (offerByte b s) := by
  unfold offerByte reading atTop
  split_ifs with h1 h2 h3
  · simp at h1; exact .byte b h1.1 (.inl h1.2)
  · simp at h2; exact .stopChk h2.1 h2.2 h3
  · simp at h2; exact .byte b h2.1 (.inr (by simpa using h3))
  · exact .stay

/-- A byte's class row offers that byte (R87). -/
theorem exec_classOf (b : Byte) (s : State) : exec (classOf s.par b) s = .next (offerByte b s) := by
  unfold classOf
  split_ifs with h1 h2 h3 h4 h5 h6
  · rw [h1]; rfl
  · rw [h2]; rfl
  · rw [h3]; rfl
  · rw [h4]; rfl
  · rw [h5]; rfl
  · have : (1#1 ++ b.setWidth 7 : Byte) = b := by
      revert h6; clear h1 h2 h3 h4 h5; revert b; decide
    show Host.Outcome.next (offerByte (1#1 ++ b.setWidth 7) s) = _
    rw [this]
  · have : (0#1 ++ b.setWidth 7 : Byte) = b := by
      revert h6; clear h1 h2 h3 h4 h5; revert b; decide
    show Host.Outcome.next (offerByte (0#1 ++ b.setWidth 7) s) = _
    rw [this]

/-- The free read takes one free value and is then one of the environment's answers. -/
theorem readerTurn_move (s : State) : ∃ n, ReaderMove { s with fresh := n } (readerTurn s) := by
  unfold readerTurn reading atTop readEvent
  split_ifs with h1 h2 h3
  · simp at h1
    refine ⟨s.fresh + 1, ?_⟩
    split
    · exact .byte _ h1.1 (.inl h1.2)
    · exact .idle
    · exact .readError h1.1
  · simp at h2; exact ⟨s.fresh, .stopChk h2.1 h2.2 h3⟩
  · simp at h2; exact ⟨s.fresh, .arm h2.1⟩
  · exact ⟨s.fresh, .stay⟩

theorem whenEnabled_next {enabled : Bool} {t s u : State} (h : whenEnabled enabled t s = .next u) :
    (enabled = true ∧ u = t) ∨ (enabled = false ∧ u = s) := by
  unfold whenEnabled at h
  cases enabled <;> simp at h <;> simp [h]

/-- ENC called by a host thread writes `SEQ_TX` and the result only. -/
theorem hostEnc_move (command flags length : Nat) (payload : List Byte) (s : State) :
    HostMove s (hostEnc command flags length payload s) := by
  unfold hostEnc
  split
  · rename_i h
    exact (seqTx_move s _ ((encodeFrame_seq h).elim (fun h => .inr (.inr h)) (fun h => .inr (.inl h)))).then
      (hostOnly_returned _ _)
  · exact (hostOnly_returned _ _).move

theorem hostDec_move (raw : List Byte) (s : State) : HostMove s (hostDec raw s) := by
  unfold hostDec
  split <;> exact (hostOnly_returned _ _).move

/-- A delivery that R25's transient state or a detached frame makes possible. -/
inductive Delivery (s : State) : State → Prop where
  | complete : atComplete s = true → Delivery s (completeFrame s)
  | push (f : Frame) : s.detached = some f → Delivery s (pushFrame f { s with detached := none })

/-- The instructions that begin with RST (R229 line 0, R310, R311). -/
def BeginsWithRst (i : Instr) : Prop :=
  i = .rst ∨ ∃ c, i = .construct c

/-- What one instruction can do. -/
theorem exec_move {i : Instr} {s t : State} (h : exec i s = .next t) :
    HostMove s t ∨ (RstMove s t ∧ BeginsWithRst i) ∨ ReaderMove s t ∨ Delivery s t := by
  have host : HostMove s t → HostMove s t ∨ (RstMove s t ∧ BeginsWithRst i) ∨ ReaderMove s t ∨ Delivery s t := .inl
  have reader : ReaderMove s t → HostMove s t ∨ (RstMove s t ∧ BeginsWithRst i) ∨ ReaderMove s t ∨ Delivery s t :=
    fun x => .inr (.inr (.inl x))
  have task : ∀ acts handler, (acts.head? = some .rst → BeginsWithRst i) → t = beginTask acts handler s →
      HostMove s t ∨ (RstMove s t ∧ BeginsWithRst i) ∨ ReaderMove s t ∨ Delivery s t := by
    rintro acts handler hb rfl
    exact (beginTask_move acts handler s).imp id fun x => .inl ⟨x.1, hb x.2⟩
  have row : ∀ {enabled : Bool} {u : State}, whenEnabled enabled u s = .next t → (enabled = true → t = u → ReaderMove s t) →
      HostMove s t ∨ (RstMove s t ∧ BeginsWithRst i) ∨ ReaderMove s t ∨ Delivery s t := by
    intro enabled u hw hm
    rcases whenEnabled_next hw with ⟨he, rfl⟩ | ⟨-, rfl⟩
    · exact reader (hm he rfl)
    · exact reader .stay
  cases i <;> simp only [exec] at h
  case byteZero | byteMessage | byteSyncAnswer | byteSync | byteError | byteCtrl | byteCtrlAck =>
    obtain rfl := (Host.Outcome.next.inj h).symm
    exact reader (offerByte_move _ s)
  case encSync | encCtrl | encMsg | encBadCommand | encBadField =>
    obtain rfl := (Host.Outcome.next.inj h).symm
    exact host (hostEnc_move _ _ _ _ s)
  case decEmpty | decZeroStart | decShort | decFs | decF4 | decF6 | decBodyShort =>
    obtain rfl := (Host.Outcome.next.inj h).symm
    exact host (hostDec_move _ s)
  case seqClr =>
    obtain rfl := (Host.Outcome.next.inj h).symm
    exact host ((seqTx_move s 0 (.inr (.inr rfl))).then (hostOnly_returned _ _))
  case wr raw =>
    have hw := (writeFlush_move raw s).1
    unfold execWr at h
    split at h <;> rename_i e <;> rw [e] at hw <;> obtain rfl := (Host.Outcome.next.inj h).symm <;>
      exact host (hw.then (hostOnly_returned _ _))
  case status =>
    obtain rfl := (Host.Outcome.next.inj h).symm
    exact host (hostOnly_returned _ _).move
  case rst =>
    obtain rfl := (Host.Outcome.next.inj h).symm
    exact .inr (.inl ⟨⟨rfl, rfl, rfl, rfl, rfl⟩, .inl rfl⟩)
  case construct c => exact task _ _ (fun _ => .inr ⟨c, rfl⟩) (Host.Outcome.next.inj h).symm
  case setBitrate bps =>
    refine task _ _ (fun hr => ?_) (Host.Outcome.next.inj h).symm
    unfold setBitrateActs at hr
    split at hr <;> simp [xchgActs] at hr
  case setMode mode =>
    refine task _ _ (fun hr => ?_) (Host.Outcome.next.inj h).symm
    cases mode <;> simp [setModeActs, xchgActs] at hr
  case popc | popm | stop | xchg | sync | deviceOpen | deviceClose | setFilter | channelOpen | channelClose
      | setBitrateFromRegister | shutdown | recv =>
    refine task _ _ (fun hr => ?_) (Host.Outcome.next.inj h).symm
    simp [xchgActs, syncActs, deviceOpenActs, deviceCloseActs, setFilterActs, channelOpenActs, channelCloseActs,
      shutdownActs] at hr
  case send frame =>
    have e := (Host.Outcome.next.inj h).symm
    have hf : HostMove s { s with fresh := s.fresh + 2 } :=
      ⟨rfl, rfl, rfl, rfl, rfl, .inl rfl, .inl ⟨rfl, rfl⟩, id, .inl rfl, ⟨[], by simp⟩, fun _ => rfl⟩
    subst e
    rcases beginTask_move (sendActs s.par frame s.fresh) .surface { s with fresh := s.fresh + 2 } with m | m
    · refine host ⟨m.par, m.detached, m.script, m.rxStream, m.eng, m.seqTx, m.queues, m.stopReq, m.port, m.txStream, m.closed⟩
    · simp [sendActs] at m
  case rxArm => exact row h fun he ht => by subst ht; simp [atTop] at he; exact .arm he.1.1
  case rxStopChk => exact row h fun he ht => by subst ht; simp [atTop] at he; exact .stopChk he.1.1 he.1.2 he.2
  case rxIdle => exact row h fun he ht => by subst ht; exact .idle
  case rxErr => exact row h fun he ht => by subst ht; simp [reading] at he; exact .readError he.1
  case rxSkip0 =>
    refine row h fun he ht => ?_
    simp [reading] at he
    have : t = byteStep 0x00 (takeByte 0x00 s) := by
      rw [ht, byteStep_start (show (takeByte 0x00 s).eng.cnt = 0 from he.2), if_pos rfl]; rfl
    exact this ▸ .byte _ he.1.1 (.inl he.1.2)
  case rxFirst b =>
    refine row h fun he ht => ?_
    simp [reading] at he
    have : t = byteStep b (takeByte b s) := by
      rw [ht, byteStep_start (show (takeByte b s).eng.cnt = 0 from he.1.2), if_neg (show ¬b = 0x00 from he.2)]
    exact this ▸ .byte _ he.1.1.1 (.inl he.1.1.2)
  case rxHdr b =>
    refine row h fun he ht => ?_
    simp [reading, atHdr] at he
    have : t = byteStep b (takeByte b s) := by
      rw [ht, byteStep_hdr (show 1 ≤ (takeByte b s).eng.cnt from he.2.1) he.2.2]; rfl
    exact this ▸ .byte _ he.1.1 (.inl he.1.2)
  case rxLen4 b =>
    refine row h fun he ht => ?_
    simp [reading, atLen4] at he
    obtain ⟨⟨h1, h2⟩, ⟨⟨h0, h3⟩, h4⟩, h5⟩ := he
    have : t = byteStep b (takeByte b s) := by
      rw [ht]
      exact (byteStep_len4 (s := takeByte b s) (show s.eng.cnt ≠ 0 by omega) h3 h4 h5).symm
    exact this ▸ .byte _ h1 (.inl h2)
  case rxLenSync b =>
    refine row h fun he ht => ?_
    simp [reading, atLenSync] at he
    obtain ⟨⟨h1, h2⟩, ⟨⟨h0, h3⟩, h4⟩, h5⟩ := he
    have : t = byteStep b (takeByte b s) := by
      rw [ht]
      exact (byteStep_lenSync (s := takeByte b s) (show s.eng.cnt ≠ 0 by omega) h3 h4 h5).symm
    exact this ▸ .byte _ h1 (.inl h2)
  case rxLen6 b =>
    refine row h fun he ht => ?_
    simp [reading, atLen6] at he
    obtain ⟨⟨h1, h2⟩, ⟨⟨h0, h3⟩, h4⟩, h5⟩ := he
    have : t = byteStep b (takeByte b s) := by
      rw [ht]
      exact (byteStep_len6 (s := takeByte b s) (show s.eng.cnt ≠ 0 by omega) h3 h5).symm
    exact this ▸ .byte _ h1 (.inl h2)
  case rxPay b =>
    refine row h fun he ht => ?_
    simp [reading, atPay] at he
    obtain ⟨⟨h1, h2⟩, ⟨h3, h4⟩, h5⟩ := he
    have : t = byteStep b (takeByte b s) := by
      rw [ht, byteStep_pay (show 1 ≤ (takeByte b s).eng.cnt from h3) h4]; rfl
    exact this ▸ .byte _ h1 (.inl h2)
  case rxComplete =>
    rcases whenEnabled_next h with ⟨he, rfl⟩ | ⟨-, rfl⟩
    · exact .inr (.inr (.inr (.complete he)))
    · exact reader .stay
  case push =>
    rcases whenEnabled_next h with ⟨he, rfl⟩ | ⟨-, rfl⟩
    · obtain ⟨f, hf⟩ := Option.isSome_iff_exists.1 he
      refine .inr (.inr (.inr ?_))
      have : pushDetached s = pushFrame f { s with detached := none } := by unfold pushDetached; rw [hf]
      exact this ▸ .push f hf
    · exact reader .stay

/-- The state with another script and free-value counter: what a turn does around the move it makes. -/
def turned (script : List Turn) (fresh : Nat) (s : State) : State :=
  { s with script := script, fresh := fresh }

/-- The step with the check of the parameters first. -/
theorem step_eq (s : State) :
    step s =
      if s.par.ok then
        match fetchTurn s with
        | .reader => .next (readerTurn s)
        | .resume ticket => .next (resumeTask ticket (dropTurn s))
        | .packet p => exec (decode s.par p) (dropTurn s)
      else .fault .badParameters := by
  unfold step checked runPacket
  cases fetchTurn s <;> rfl

/-- What one step can do: the turn is used up (or a free value is), and then one move is made; RST only where the turn is a
reset's. -/
theorem step_move {s t : State} (h : step s = .next t) :
    s.par.Facts ∧ ∃ script fresh,
      HostMove (turned script fresh s) t ∨ (RstMove (turned script fresh s) t ∧ ResetTurn s)
        ∨ ReaderMove (turned script fresh s) t ∨ Delivery (turned script fresh s) t := by
  rw [step_eq] at h
  split_ifs at h with hok
  refine ⟨Params.facts hok, ?_⟩
  unfold ResetTurn
  revert h
  cases fetchTurn s with
  | reader =>
    intro h
    obtain rfl := (Host.Outcome.next.inj h).symm
    obtain ⟨n, hn⟩ := readerTurn_move s
    exact ⟨s.script, n, .inr (.inr (.inl hn))⟩
  | resume ticket =>
    intro h
    obtain rfl := (Host.Outcome.next.inj h).symm
    exact ⟨s.script.tail, s.fresh, (resumeTask_move _ (dropTurn s)).imp id .inl⟩
  | packet p =>
    intro h
    exact ⟨s.script.tail, s.fresh, exec_move (s := dropTurn s) h⟩

end Sys2Proof.Machine
end

