-- ==== Sys2Proof/Laws/Session.lean ====
section
/-!
SUPPORT. What a host operation that begins or goes on does to the session: only the pieces that write the session touch it, and
no write but a construct's first takes a session out of the phase in which it is never usable (R231).
-/

namespace Sys2Proof.Machine

open Sys2Proof Sys2Proof.Safety

/-- A piece that does not write the session leaves the whole host's side, however it ends. -/
theorem runAct_host {a : Act} (ha : ∀ u, a ≠ .session u) (t : Task) (s : State) : (outState (runAct a t s)).host = s.host := by
  cases a with
  | enc command flags length payload =>
    show (outState (actEnc command flags length payload t s)).host = _
    unfold actEnc
    split <;> rfl
  | wr =>
    show (outState (actWr t s)).host = _
    have h := (writeFlush_move t.raw s).2.2
    unfold actWr
    split <;> rename_i e <;> rw [e] at h <;> exact h
  | pop q timeout =>
    show (outState (actPop q t s)).host = _
    unfold actPop
    split
    · rename_i h
      unfold popQueue at h
      split at h
      · simp at h; obtain ⟨-, rfl⟩ := h; cases q <;> rfl
      · simp at h
    · split_ifs <;> rfl
  | answer command =>
    show (outState (actAnswer command t s)).host = _
    unfold actAnswer
    split
    · rfl
    · split
      · rfl
      · split_ifs <;> rfl
  | syncAnswer =>
    show (outState (actSyncAnswer t s)).host = _
    unfold actSyncAnswer
    split
    · rfl
    · split
      · rfl
      · split_ifs <;> rfl
  | stop =>
    show (outState (actStop t s)).host = _
    have key : ∀ s1 : State, s1.host = s.host → (outState (if s1.eng.run then .wait { t with waiting := true } s1
        else match closePort s1 with
          | (none, s2) => .done { t with value := .ok } s2
          | (some c, s2) => .fail (.engine c) s2)).host = s.host := by
      intro s1 h1
      split_ifs with hrun
      · exact h1
      · have h := (closePort_move (by simpa using hrun)).2.2.trans h1
        split <;> rename_i e <;> rw [e] at h <;> exact h
    refine key (if t.waiting then s else { s with eng.stopReq := true }) ?_
    split_ifs <;> rfl
  | received =>
    show (outState (actReceived t s)).host = _
    unfold actReceived
    split
    · rfl
    · split
      · rfl
      · split
        · rfl
        · dsimp only [outState]
          split_ifs <;> rfl
  | session u => exact absurd rfl (ha u)
  | seqClr => rfl
  | rst => rfl
  | fail e => rfl
  | deliver => rfl
  | succeed => rfl
  | closing => rfl

/-- A session that is never usable stays so under every write but the one that begins a session. -/
theorem updateSession_failed {u : SessionUpdate} {x : Session} (hu : u ≠ .begin) (hx : x.phase = .failed) :
    (updateSession u x).phase = .failed := by
  cases u <;> simp_all [updateSession, stepPhase]

/-- What a host operation that begins no session leaves: the other operations, itself without such a piece, and a session that
is never usable as unusable as it was. -/
structure KeepsFailed (s t : State) : Prop where
  begun : SessionsBegun s → SessionsBegun t
  failed : s.host.session.phase = .failed → t.host.session.phase = .failed

theorem KeepsFailed.of_host {s t : State} (h : t.host = s.host) : KeepsFailed s t :=
  ⟨fun b => by unfold SessionsBegun; rw [h]; exact b, by rw [h]; exact id⟩

theorem KeepsFailed.trans {s t u : State} (h : KeepsFailed s t) (k : KeepsFailed t u) : KeepsFailed s u :=
  ⟨k.begun ∘ h.begun, k.failed ∘ h.failed⟩

theorem keepsFailed_writeSession {u : SessionUpdate} (hu : u ≠ .begin) (s : State) : KeepsFailed s (writeSession u s) :=
  ⟨id, updateSession_failed hu⟩

theorem keepsFailed_finish (t : Task) (s : State) : KeepsFailed s (finish t s) :=
  ⟨fun b x hx => b x (List.mem_of_mem_filter hx), id⟩

theorem keepsFailed_failTask (e : HostError) (t : Task) (s : State) : KeepsFailed s (failTask e t s) :=
  ⟨fun b x hx => b x (List.mem_of_mem_filter hx), id⟩

theorem keepsFailed_park {t : Task} (ht : Act.session .begin ∉ t.acts) (s : State) : KeepsFailed s (park t s) := by
  refine ⟨fun b x hx => ?_, id⟩
  rcases List.mem_append.1 hx with h | h
  · exact b x (List.mem_of_mem_filter h)
  · rw [List.mem_singleton.1 h]; exact ht

theorem keepsFailed_runAct {a : Act} (ha : a ≠ .session .begin) (t : Task) (s : State) :
    KeepsFailed s (outState (runAct a t s)) := by
  by_cases h : ∃ u, a = .session u
  · obtain ⟨u, rfl⟩ := h
    exact keepsFailed_writeSession (fun e => ha (by rw [e])) s
  · exact .of_host (runAct_host (fun u e => h ⟨u, e⟩) t s)

theorem keepsFailed_runLocals {acts : List Act} (h : Act.session .begin ∉ acts) (t : Task) (s : State) :
    KeepsFailed s (runLocals acts t s).2 ∧ Act.session .begin ∉ (runLocals acts t s).1.acts := by
  induction acts generalizing t s with
  | nil => exact ⟨.of_host rfl, h⟩
  | cons a rest ih =>
    rw [List.mem_cons, not_or] at h
    cases a <;> first
      | exact ⟨.of_host rfl, by simpa [runLocals] using h.2⟩
      | exact ih h.2 _ _
      | exact ⟨(keepsFailed_writeSession (fun e => h.1 (by rw [e])) s).trans (ih h.2 _ _).1, (ih h.2 _ _).2⟩

theorem keepsFailed_goOn {rest : List Act} (h : Act.session .begin ∉ rest) (t : Task) (s : State) :
    KeepsFailed s (goOn rest t s) := by
  have hl := keepsFailed_runLocals h t s
  unfold goOn
  split
  rename_i t' s' e
  rw [e] at hl
  split_ifs
  · exact hl.1.trans (keepsFailed_finish _ _)
  · exact hl.1.trans (keepsFailed_park hl.2 _)

theorem keepsFailed_handleError (e : HostError) (t : Task) (s : State) : KeepsFailed s (handleError e t s) := by
  have hw : ∀ {u : SessionUpdate}, u ≠ .begin → KeepsFailed s (failTask e t (writeSession u s)) := fun h =>
    (keepsFailed_writeSession h s).trans (keepsFailed_failTask _ _ _)
  unfold handleError
  split
  · exact keepsFailed_failTask _ _ _
  · exact hw (by nofun)
  · exact hw (by nofun)
  · exact (keepsFailed_writeSession (u := .channelClosed) (by nofun) s).trans (keepsFailed_park (by simp) _)
  · exact hw (by nofun)
  · exact (keepsFailed_writeSession (u := .failed) (by nofun) s).trans (keepsFailed_failTask _ _ _)

/-- An operation that waits has all its pieces left. -/
theorem runAct_wait_acts {a : Act} {t t' : Task} {s s' : State} (h : runAct a t s = .wait t' s') : t'.acts = t.acts := by
  cases a <;> simp only [runAct, actEnc, actWr, actPop, actAnswer, actSyncAnswer, actReceived, actStop] at h <;>
    (repeat' split at h) <;> cases h <;> rfl

/-- A host operation that has no session to begin. -/
theorem keepsFailed_advance {t : Task} (h : Act.session .begin ∉ t.acts) (s : State) : KeepsFailed s (advance t s) := by
  unfold advance
  split
  · exact keepsFailed_finish _ _
  · rename_i a rest ha
    rw [ha, List.mem_cons, not_or] at h
    have hk := keepsFailed_runAct (fun e => h.1 e.symm) t s
    split <;> rename_i e <;> rw [e] at hk
    · exact hk.trans (keepsFailed_goOn h.2 _ _)
    · exact hk.trans (keepsFailed_park (by rw [runAct_wait_acts e, ha]; simpa using h) _)
    · exact hk.trans (keepsFailed_handleError _ _ _)

end Sys2Proof.Machine
end

