-- ==== Sys2Proof/Tests/Slice0.lean ====
section
/-!
SUPPORT. Tests. Expected results are the spec's worked vectors (95_test_vectors.md: S, E, V, X and T rows) or are worked
out by hand from the rule named. Then a witness for the hypotheses of every statement that has some.
-/

namespace Sys2Proof.Tests

open Sys2Proof Sys2Proof.Machine Sys2Proof.Safety

/-! ### Helpers -/

/-- The next state, if there is one. -/
def nextOf : Result → Option State
  | .next t => some t
  | _ => none

/-- The result that an instruction hands over, and the engine afterwards. -/
def outcome (i : Instr) (s : State) : Option (Value × Engine) :=
  match exec i s with
  | .next t => t.host.reply.map (fun r => (r.value, t.eng))
  | _ => none

/-- The engine after an instruction. -/
def engineAfter (i : Instr) (s : State) : Option Engine :=
  (nextOf (exec i s)).map (·.eng)

/-- The decoder's instruction. -/
def decoded (p : Packet) : Instr :=
  decode Params.default p

/-- The reset state with another sequence counter. -/
def withSeq (n : BitVec 8) : State :=
  { State.reset with eng.seqTx := n }

/-- A running reader with a read in flight and a partial frame. -/
def mid (acc : List Byte) (hlen total : Nat) : State :=
  { State.reset with
    eng.acc := acc, eng.cnt := acc.length, eng.hlen := hlen, eng.total := total, eng.inflight := true }

/-- The reset state with these queues. -/
def queued (cq mq : List Frame) : State :=
  { State.reset with eng.cq := cq, eng.mq := mq }

/-- A host operation pending under number 0. -/
def pendingState (t : Machine.Task) (s : State) : State :=
  { s with host.tasks := [t], host.nextTicket := 1 }

/-- The result that operation 0 hands over when it goes on. -/
def resumed (t : Machine.Task) (s : State) : Option Value :=
  match step { pendingState t s with script := [.resume 0] } with
  | .next u => u.host.reply.map (·.value)
  | _ => none

/-- The session when operation 0 has gone on. -/
def sessionAfter (t : Machine.Task) (s : State) : Session :=
  (resumeTask 0 (pendingState t s)).host.session

/-- A pending operation. -/
def task (acts : List Act) (got : Option Frame) : Machine.Task :=
  { ticket := 0, acts := acts, handler := .surface, raw := [], got := got, waiting := true, value := .ok }

/-- The bytes that the first pending operation is about to write. -/
def rawOf (i : Instr) (s : State) : Option (List Byte) :=
  match exec i s with
  | .next t => (t.host.tasks.head?).map (·.raw)
  | _ => none

/-! ### WellFormed: a term for each check that the check refuses -/

theorem test_wf_refuses_first_bytes :
    ([.byteCtrl 0, .byteCtrl 0x40, .byteCtrl 0x5A, .byteCtrlAck 0x25, .byteCtrlAck 0x7F, .rxFirst 0] : List Instr).all
      (fun i => !i.wf Params.default) = true := by decide

theorem test_wf_refuses_encCtrl :
    ([.encCtrl 0xA5 0 0 [], .encCtrl 0 0 0 [], .encCtrl 0x80 0 0 [], .encCtrl 0x40 0 0 [], .encCtrl 1 256 0 [],
        .encCtrl 1 0 256 [], .encCtrl 1 0 2 [1]] : List Instr).all (fun i => !i.wf Params.default) = true := by
  decide

theorem test_wf_refuses_encMsg :
    ([.encMsg 65536 0 [], .encMsg 0 65536 [], .encMsg 0 2 [1]] : List Instr).all
      (fun i => !i.wf Params.default) = true := by
  decide

theorem test_wf_refuses_enc_rejections :
    ([.encBadCommand 0xA5 0 0 [], .encBadCommand 1 0 0 [], .encBadCommand 0x7F 0 0 [], .encBadField 0xA5 256 0 [],
        .encBadField 0x80 256 0 [], .encBadField 1 255 0 [7]] : List Instr).all
      (fun i => !i.wf Params.default) = true := by
  decide

theorem test_wf_refuses_dec :
    ([.decZeroStart [], .decZeroStart [1], .decShort [], .decShort [0], .decShort [1, 0, 0, 0],
        .decShort [0x40, 0, 0, 0, 0, 0], .decFs [1, 0, 0, 0], .decFs [0x5A, 0, 0x5A], .decF4 [], .decF4 [0, 0, 0, 0],
        .decF4 [0x40, 0, 0, 0], .decF4 [0xA5, 0, 0, 0], .decF4 [1, 0, 0], .decF6 (0x41 :: List.replicate 23 0),
        .decF6 (0x40 :: List.replicate 22 0), .decBodyShort [0x41, 0, 0, 0, 0, 0], .decBodyShort [0x40, 0, 0, 0, 0],
        .decBodyShort (0x40 :: List.replicate 23 0)] : List Instr).all (fun i => !i.wf Params.default) = true := by
  decide

theorem test_parameters_refused :
    ({ Params.default with cmdMessage := 0x80 }).ok = false ∧ ({ Params.default with cmdError := 0x7F }).ok = false
      ∧ ({ Params.default with cqDepth := 0 }).ok = false ∧ ({ Params.default with bodyPrefix := 17 }).ok = false
      ∧ ({ Params.default with cmdDeviceOpen := 0x40 }).ok = false
      ∧ nextOf (step { State.reset with par := { Params.default with mqDepth := 0 } }) = none := by
  decide

/-- Records that R9 admits run, whatever their header lengths and body layout (R333): each is set beside the conditions
that it does not meet. -/
theorem test_parameters_of_r9_run :
    (let p := { Params.default with bodyDlcOff := 10 };
      p.ok = true ∧ p.bodyFits = false
        ∧ engineAfter .seqClr { withSeq 9 with par := p } = some Engine.reset)
      ∧ (let p := { Params.default with hlenShort := 5, hlenLong := 5, remoteMask := 1 };
        p.ok = true ∧ p.headersFit = false ∧ p.bodyFits = false
          ∧ (nextOf (step { State.reset with par := p, script := [.issue (.rx 1)] })).map (·.eng.hlen) = some 5) := by
  decide

/-- Under a longer short header byte 3 is still the length (R58, R168). -/
theorem test_longer_header :
    (engineAfter (.rxLen4 9) { mid [1, 0, 0, 2] 5 5 with par := { Params.default with hlenShort := 5 } }).map
      (fun e => (e.cnt, e.total)) = some (5, 7) := by
  decide

/-! ### Decoding: words written out from the tables of R81 to R83 and R87 -/

theorem test_decode_first_bytes :
    decodeTableWord 8 0b00000000 = some .byteZero ∧ decodeTableWord 8 0b01000000 = some .byteMessage
      ∧ decodeTableWord 8 0b01011010 = some .byteSyncAnswer ∧ decodeTableWord 8 0b10100101 = some .byteSync
      ∧ decodeTableWord 8 0b11111111 = some .byteError ∧ decodeTableWord 8 0b00000001 = some (.byteCtrl 1)
      ∧ decodeTableWord 8 0b01000001 = some (.byteCtrl 0x41) ∧ decodeTableWord 8 0b01111111 = some (.byteCtrl 0x7F)
      ∧ decodeTableWord 8 0b10000000 = some (.byteCtrlAck 0) ∧ decodeTableWord 8 0b11000000 = some (.byteCtrlAck 0x40)
      ∧ decodeTableWord 8 0b11011010 = some (.byteCtrlAck 0x5A)
      ∧ decodeTableWord 8 0b11111110 = some (.byteCtrlAck 0x7E) := by
  decide

/-- The seven classes have 1, 1, 1, 1, 1, 125 and 126 members (R92). -/
theorem test_decode_class_sizes :
    (List.range 256).countP (fun n => match classOf Params.default (BitVec.ofNat 8 n) with | .byteCtrl _ => true | _ => false)
        = 125
      ∧ (List.range 256).countP
          (fun n => match classOf Params.default (BitVec.ofNat 8 n) with | .byteCtrlAck _ => true | _ => false) = 126 := by
  decide +kernel

/-- S2, E1 and E2, and the extremes E15 and E16, as images. -/
theorem test_decode_images :
    decoded (.image [0xA5, 0x00, 0xA5, 0x00]) = .encSync 0 0 []
      ∧ decoded (.image [0x02, 0x01, 0x03, 0x02, 0xDE, 0xAD]) = .encCtrl 2 3 2 [0xDE, 0xAD]
      ∧ decoded (.image [0x40, 0x07, 0x02, 0x01, 0x03, 0x00, 0xAA, 0xBB, 0xCC]) = .encMsg 258 3 [0xAA, 0xBB, 0xCC]
      ∧ decoded (.image [0x7F, 0x03, 0xFF, 0x00]) = .encCtrl 0x7F 255 0 []
      ∧ decoded (.image [0x40, 0x04, 0xFF, 0xFF, 0x00, 0x00]) = .encMsg 65535 0 [] := by
  decide

/-- The table's 32 and 48 bits, byte 0 first: fields c, s, f, l (log 3). -/
theorem test_decode_table_words :
    decodeTableWord 32 0b10100101000000001010010100000000 = some (.encSync 0 0 [])
      ∧ decodeTableWord 32 0b00000010000000010000001100000010 = some (.encCtrl 2 3 2 [0, 0])
      ∧ decodeTableWord 48 0b010000000000011100000010000000010000000000000000 = some (.encMsg 258 0 []) := by
  decide

/-- Images of no emitted frame are the ENC calls that R110 rejects, or the sync call; a call under another row's name is the
row that its arguments select (log 2). -/
theorem test_decode_other_packets :
    decoded (.image []) = .encBadCommand 0 0 0 [] ∧ decoded (.image [1, 0, 0]) = .encCtrl 1 0 0 []
      ∧ decoded (.image [0xC0, 9, 1, 0]) = .encBadCommand 0xC0 1 0 []
      ∧ decoded (.image [0xA5, 0, 0xA5, 1]) = .encSync 0xA5 1 []
      ∧ decoded (.image [1, 0, 0, 1]) = .encBadField 1 0 1 [] ∧ decoded (.image [1, 0, 0, 0, 9]) = .encCtrl 1 0 0 [9]
      ∧ decoded (.call (.rxFirst 0)) = .rxSkip0 ∧ decoded (.call (.byteCtrl 0x40)) = .byteMessage
      ∧ decoded (.call (.encMsg 0 2 [1])) = .encBadField 0x40 0 2 [1] ∧ decoded (.call (.decF4 [0x40, 0])) = .decShort [0x40, 0]
      ∧ decoded (.call (.decZeroStart [0x5A, 0, 0x5A, 0])) = .decFs [0x5A, 0, 0x5A, 0] := by
  decide

/-- The rows without an encoding come as calls (log 2); and an image of each row with one. -/
theorem test_decode_calls :
    ([.encBadCommand 0x80 0 0 [], .encBadField 1 256 0 [], .seqClr, .decEmpty, .decZeroStart [0], .decShort [1],
        .decFs [0x5A, 0, 0x5A, 0], .decF4 [1, 0, 0, 0], .decF6 (0x40 :: List.replicate 23 0),
        .decBodyShort [0x40, 0, 0, 0, 0, 0], .wr [1], .popc 5, .popm 5, .stop, .status, .rst, .rxArm, .rxStopChk, .rxIdle,
        .rxErr, .rxSkip0, .rxFirst 1, .rxHdr 0, .rxLen4 0, .rxLenSync 0, .rxLen6 0, .rxPay 0, .rxComplete, .push] :
        List Instr).all
      (fun i => decide (decoded (encode Params.default 0 i) = i ∧ encode Params.default 0 i = .call i)) = true := by
  decide

theorem test_decode_pseudo_calls :
    ([.xchg 1 0 0 [], .sync, .deviceOpen, .deviceClose, .setBitrate 500000, .setMode (.mode .listen),
        .setFilter 0 ⟨.ext29, 1, 2⟩, .channelOpen, .channelClose, .setBitrateFromRegister 0,
        .construct ⟨some 500000, none, some (.mode .normal), []⟩, .shutdown, .send ⟨0x123, false, false, [0xAA]⟩, .recv 1] :
        List Instr).all
      (fun i => decide (decoded (encode Params.default 0 i) = i ∧ encode Params.default 0 i = .call i)) = true := by
  decide

/-- withFetchWord: the next step runs that row (X15, and E1's header with a zero payload). -/
theorem test_step_runs_the_word :
    ((nextOf (step (State.reset.withFetchWord 8 0x40))).map (fun t => (t.eng.cnt, t.eng.hlen, t.eng.total))) = some (1, 6, 6)
      ∧ ((nextOf (step (State.reset.withFetchWord 32 0x02010302))).bind (fun t => t.host.reply.map (·.value)))
        = some (.bytes [0x02, 0x00, 0x03, 0x02, 0x00, 0x00]) := by
  decide

/-- E8's command as an image: the call is rejected by ENC, not by the machine. -/
theorem test_step_runs_a_rejected_image :
    (nextOf (step { withSeq 1 with script := [.issue (.image [0xC0, 0, 0, 0])] })).bind
        (fun t => t.host.reply.map (fun r => (r.value, t.eng.seqTx)))
      = some (.error (.engine (.badCommand 0xC0)), 1) := by
  decide

/-! ### ENC and SEQCLR (E vectors) -/

/-- E3. -/
theorem test_encSync :
    outcome (.encSync 999 999 [1]) (withSeq 0x37) = some (.bytes [0xA5, 0x00, 0xA5, 0x00], Engine.reset) := by
  decide

/-- E1, E13 and E17 (wrap). -/
theorem test_encCtrl :
    outcome (.encCtrl 2 3 2 [0xDE, 0xAD]) (withSeq 1)
        = some (.bytes [0x02, 0x01, 0x03, 0x02, 0xDE, 0xAD], { Engine.reset with seqTx := 2 })
      ∧ outcome (.encCtrl 1 0 0 [1, 2, 3]) (withSeq 1) = some (.bytes [1, 1, 0, 0], { Engine.reset with seqTx := 2 })
      ∧ outcome (.encCtrl 1 0 0 []) (withSeq 255) = some (.bytes [1, 0xFF, 0, 0], Engine.reset) := by
  decide

/-- E14: 0x5A is accepted. -/
theorem test_encCtrl_sync_answer_code :
    outcome (.encCtrl 0x5A 0 2 [1, 2]) (withSeq 2)
      = some (.bytes [0x5A, 2, 0, 2, 1, 2], { Engine.reset with seqTx := 3 }) := by
  decide

/-- E2 and E16. -/
theorem test_encMsg :
    outcome (.encMsg 258 3 [0xAA, 0xBB, 0xCC]) (withSeq 7)
        = some (.bytes [0x40, 7, 2, 1, 3, 0, 0xAA, 0xBB, 0xCC], { Engine.reset with seqTx := 8 })
      ∧ outcome (.encMsg 65535 0 []) (withSeq 4)
        = some (.bytes [0x40, 4, 0xFF, 0xFF, 0, 0], { Engine.reset with seqTx := 5 }) := by
  decide

/-- E4 to E8; `enc 80 flags=9999` is BadCommand too. -/
theorem test_encBadCommand :
    ([0x00, 0x80, 0xFF, 256, 0xC0] : List Nat).all
      (fun c => decide (outcome (.encBadCommand c 9999 0 []) (withSeq 1)
        = some (.error (.engine (.badCommand c)), { Engine.reset with seqTx := 1 }))) = true := by
  decide

/-- E9 to E12. -/
theorem test_encBadField :
    outcome (.encBadField 1 256 0 []) (withSeq 1)
        = some (.error (.engine (.badField true false false)), { Engine.reset with seqTx := 1 })
      ∧ (outcome (.encBadField 1 0 2 [1]) (withSeq 1)).map (·.1) = some (.error (.engine (.badField false false true)))
      ∧ (outcome (.encBadField 0x40 65536 0 []) (withSeq 1)).map (·.1)
        = some (.error (.engine (.badField true false false))) := by
  decide

/-- E18. -/
theorem test_seqClr : outcome .seqClr (withSeq 9) = some (.ok, Engine.reset) := by decide

/-! ### DEC (V vectors) -/

/-- The record that DEC returns. -/
def record (i : Instr) : Option Decoded :=
  match outcome i State.reset with
  | some (.record d, _) => some d
  | _ => none

/-- V1 to V6. -/
theorem test_dec_errors :
    outcome .decEmpty State.reset = some (.error (.engine .emptyInput), Engine.reset)
      ∧ outcome (.decZeroStart [0]) State.reset = some (.error (.engine .zeroStart), Engine.reset)
      ∧ outcome (.decShort [1, 0, 0]) State.reset = some (.error (.engine (.short 3 4)), Engine.reset)
      ∧ outcome (.decShort [0x40, 0, 0, 0, 0]) State.reset = some (.error (.engine (.short 5 6)), Engine.reset)
      ∧ outcome (.decBodyShort [0x40, 9, 0, 0, 0, 0]) State.reset = some (.error (.engine (.bodyShort 0)), Engine.reset)
      ∧ outcome (.decBodyShort ([0x40, 0, 0, 0, 0x11, 0] ++ List.replicate 17 0)) State.reset
        = some (.error (.engine (.bodyShort 17)), Engine.reset) := by
  decide

/-- S2, V13, V14 and V15. -/
theorem test_decFs :
    record (.decFs [0x5A, 0, 0x5A, 0]) = some ⟨0x5A, 0x5A, false, 0, 0x5A, 0, [], true, false, none⟩
      ∧ record (.decFs [0xA5, 0, 0xA5, 0]) = some ⟨0xA5, 0xA5, false, 0, 0xA5, 0, [], false, false, none⟩
      ∧ record (.decFs [0x5A, 0, 0x5A, 7]) = some ⟨0x5A, 0x5A, false, 0, 0x5A, 0, [], false, false, none⟩
      ∧ record (.decFs [0x5A, 0, 0x5A, 0, 0x99]) = some ⟨0x5A, 0x5A, false, 0, 0x5A, 0, [0x99], false, true, none⟩ := by
  decide

/-- V7, V9, V10, V12. -/
theorem test_decF4 :
    record (.decF4 [0x81, 5, 0, 2, 0x4F, 0x4B]) = some ⟨0x81, 1, true, 5, 0, 2, [0x4F, 0x4B], false, false, none⟩
      ∧ record (.decF4 [0xC0, 7, 0, 0]) = some ⟨0xC0, 0x40, true, 7, 0, 0, [], false, false, none⟩
      ∧ record (.decF4 [0x80, 0, 0, 0]) = some ⟨0x80, 0, true, 0, 0, 0, [], false, false, none⟩
      ∧ record (.decF4 [0xDA, 0, 0x5A, 0]) = some ⟨0xDA, 0x5A, true, 0, 0x5A, 0, [], false, false, none⟩ := by
  decide

/-- V11, V16, V17. -/
theorem test_decF4_error_and_lengths :
    record (.decF4 [0xFF, 3, 0, 2, 1, 2]) = some ⟨0xFF, 0xFF, false, 3, 0, 2, [1, 2], false, false, none⟩
      ∧ record (.decF4 [0x81, 5, 0, 2, 0x4F]) = some ⟨0x81, 1, true, 5, 0, 2, [0x4F], false, true, none⟩
      ∧ (record (.decF4 [0x81, 5, 0, 1, 0x4F, 0x4B])).map (·.lenMismatch) = some true := by
  decide

/-- V18. -/
theorem test_decF6 :
    record (.decF6 [0x40, 0, 1, 0, 0x14, 0, 0, 0, 0, 0, 0x23, 1, 0, 0, 0x10, 0x27, 0, 0, 0, 0, 0, 0, 2, 0, 0xAA, 0xBB])
      = some ⟨0x40, 0x40, false, 0, 1, 20,
          [0, 0, 0, 0, 0x23, 1, 0, 0, 0x10, 0x27, 0, 0, 0, 0, 0, 0, 2, 0, 0xAA, 0xBB], false, false,
          some ⟨0, 0x123, 0x2710, 0, 2, [0xAA, 0xBB], false⟩⟩ := by
  decide

/-- V19 and V20. -/
theorem test_decF6_shortest :
    (record (.decF6 ([0x40, 0, 0, 0, 0x12, 0] ++ List.replicate 18 0))).bind (·.body) = some ⟨0, 0, 0, 0, 0, [], false⟩
      ∧ (record (.decF6 ([0x40, 0, 0, 0, 0x12, 0] ++ List.replicate 16 0 ++ [0xFF, 0xFF]))).bind (·.body)
        = some ⟨0, 0, 0, 0, 65535, [], true⟩ := by
  decide

/-! ### The reader (X vectors, one step each) -/

/-- X1, X15, X8's and X10's first bytes, X12's, X16's and X11's. -/
theorem test_first_byte_rows :
    ([.byteZero, .byteMessage, .byteSyncAnswer, .byteSync, .byteError, .byteCtrl 0x41, .byteCtrlAck 0x40] : List Instr).map
        (fun i => (engineAfter i State.reset).map (fun e => (e.acc, e.cnt, e.inflight)))
      = [some ([], 0, false), some ([0x40], 1, false), some ([0x5A], 1, false), some ([0xA5], 1, false),
          some ([0xFF], 1, false), some ([0x41], 1, false), some ([0xC0], 1, false)]
    ∧ ([.byteMessage, .byteSyncAnswer, .byteSync, .byteError, .byteCtrl 0x41, .byteCtrlAck 0x40] : List Instr).map
        (fun i => (engineAfter i State.reset).map (fun e => (e.hlen, e.total)))
      = [some (6, 6), some (4, 4), some (4, 4), some (4, 4), some (4, 4), some (4, 4)] := by
  decide

/-- A class row in the middle of a frame is the byte itself: X13's zeros are data, X4's last byte completes. -/
theorem test_first_byte_rows_inside_a_frame :
    (engineAfter .byteZero (mid [1] 4 4)).map (·.acc) = some [1, 0]
      ∧ (engineAfter (.byteCtrl 0x4B) (mid [0x81, 5, 0, 2, 0x4F] 4 6)).map (·.cq) = some [[0x81, 5, 0, 2, 0x4F, 0x4B]] := by
  decide

theorem test_rxArm_rxStopChk :
    engineAfter .rxArm State.reset = some { Engine.reset with inflight := true }
      ∧ engineAfter .rxStopChk { State.reset with eng.stopReq := true }
        = some { Engine.reset with stopReq := true, run := false }
      ∧ engineAfter .rxArm { State.reset with eng.stopReq := true } = some { Engine.reset with stopReq := true } := by
  decide

/-- X5 (idle keeps a partial frame) and X20. -/
theorem test_rxIdle_rxErr :
    engineAfter .rxIdle (mid [1, 5] 4 4) = some { (mid [1, 5] 4 4).eng with inflight := false }
      ∧ engineAfter .rxErr (mid [0x81, 5] 4 4)
        = some { (mid [0x81, 5] 4 4).eng with run := false, fatal := true, inflight := false } := by
  decide

/-- X1, X15, X16. -/
theorem test_rxSkip0_rxFirst :
    engineAfter .rxSkip0 (mid [] 0 0) = some Engine.reset
      ∧ engineAfter (.rxFirst 0x40) (mid [] 0 0) = some { Engine.reset with acc := [0x40], cnt := 1, hlen := 6, total := 6 }
      ∧ engineAfter (.rxFirst 0x41) (mid [] 0 0)
        = some { Engine.reset with acc := [0x41], cnt := 1, hlen := 4, total := 4 } := by
  decide

theorem test_rxHdr :
    engineAfter (.rxHdr 0) (mid [0x40, 7, 1, 0] 6 6)
      = some { Engine.reset with acc := [0x40, 7, 1, 0, 0], cnt := 5, hlen := 6, total := 6 } := by
  decide

/-- X3, X2 and X6. -/
theorem test_rxLen4 :
    (engineAfter (.rxLen4 2) (mid [0x81, 5, 0] 4 4)).map (fun e => (e.cnt, e.total, e.cq)) = some (4, 6, [])
      ∧ (engineAfter (.rxLen4 0) (mid [1, 0, 0] 4 4)).map (fun e => (e.cnt, e.total, e.cq)) = some (0, 4, [[1, 0, 0, 0]])
      ∧ (engineAfter (.rxLen4 0xFF) (mid [1, 0, 0] 4 4)).map (fun e => (e.cnt, e.total)) = some (4, 259) := by
  decide

/-- X9 and X10. -/
theorem test_rxLenSync :
    (engineAfter (.rxLenSync 7) (mid [0x5A, 0, 0x5A] 4 4)).map (fun e => (e.cnt, e.total, e.cq))
        = some (0, 4, [[0x5A, 0, 0x5A, 7]])
      ∧ (engineAfter (.rxLenSync 7) (mid [0xA5, 0, 0xA5] 4 4)).map (·.cq) = some [[0xA5, 0, 0xA5, 7]] := by
  decide

/-- X7, S5 (both instances). -/
theorem test_rxLen6 :
    (engineAfter (.rxLen6 0xFF) (mid [0x40, 0, 0, 0, 0xFF] 6 6)).map (fun e => (e.cnt, e.total)) = some (6, 65541)
      ∧ (engineAfter (.rxLen6 0) (mid [0x40, 0, 0, 0, 3] 6 6)).map (fun e => (e.cnt, e.total, e.mq)) = some (6, 9, [])
      ∧ (engineAfter (.rxLen6 0) (mid [0x40, 0, 0, 0, 0] 6 6)).map (fun e => (e.cnt, e.mq, e.cq))
        = some (0, [[0x40, 0, 0, 0, 0, 0]], []) := by
  decide

/-- X4. -/
theorem test_rxPay :
    (engineAfter (.rxPay 0x4F) (mid [0x81, 5, 0, 2] 4 6)).map (fun e => (e.cnt, e.cq)) = some (5, [])
      ∧ (engineAfter (.rxPay 0x4B) (mid [0x81, 5, 0, 2, 0x4F] 4 6)).map (fun e => (e.cnt, e.total, e.cq))
        = some (0, 6, [[0x81, 5, 0, 2, 0x4F, 0x4B]]) := by
  decide

/-- R173 and R194 from the states in the middle of a completion (log 18); T9's drop. -/
theorem test_rxComplete_push :
    (nextOf (exec .rxComplete (mid [1, 0, 0, 0] 4 4))).map (fun t => (t.eng.cq, t.eng.cnt, t.trace, t.detached))
        = some ([[1, 0, 0, 0]], 0, [.rx [1, 0, 0, 0]], none)
      ∧ (nextOf (exec .push { queued (List.replicate 10 [9, 0, 0, 0]) [] with detached := some [1, 0, 0, 0] })).map
          (fun t => (t.eng.cq.length, t.eng.dropC, t.eng.dropM, t.trace))
        = some (10, 1, 0, [.warning (.drop .control) [1, 0, 0, 0]]) := by
  decide

/-! ### The transport (T vectors) -/

/-- T1, T2, T3, and a write that fails after its first byte (R191). -/
theorem test_wr :
    (nextOf (exec (.wr [0xA5, 0, 0xA5, 0]) { State.reset with ch.wrAnswers := [.ok] })).map
        (fun t => (t.ch.txStream, t.host.reply.map (·.value), t.trace))
        = some ([0xA5, 0, 0xA5, 0], some .ok, [.tx [0xA5, 0, 0xA5, 0]])
      ∧ (nextOf (exec (.wr [1, 0, 0, 0]) { State.reset with eng.portOpen := false, eng.run := false })).map
          (fun t => (t.ch.txStream, t.host.reply.map (·.value))) = some ([], some (.error (.engine .ioWrite)))
      ∧ (nextOf (exec (.wr [1, 0, 0, 0]) { State.reset with ch.wrAnswers := [.writeError 1] })).map
          (fun t => (t.ch.txStream, t.host.reply.map (·.value))) = some ([1], some (.error (.engine .ioWrite))) := by
  decide

/-- T5, T6, T7. -/
theorem test_popc_popm :
    outcome (.popc 0) (queued [[0x81, 0, 0, 0], [0x82, 1, 0, 0]] [])
        = some (.frame [0x81, 0, 0, 0], { Engine.reset with cq := [[0x82, 1, 0, 0]] })
      ∧ outcome (.popc 0) (queued [] [[0x40, 0, 0, 0, 0, 0]])
        = some (.pending, { Engine.reset with mq := [[0x40, 0, 0, 0, 0, 0]] })
      ∧ outcome (.popm 0) (queued [] [[0x40, 0, 0, 0, 0, 0]]) = some (.frame [0x40, 0, 0, 0, 0, 0], Engine.reset) := by
  decide

/-- T8 (the pending pop completes with the pushed frame) and T4 (it gives up). -/
theorem test_pop_goes_on :
    resumed (task [.pop .control 0, .deliver] none) (queued [[0x81, 0, 0, 0]] []) = some (.frame [0x81, 0, 0, 0])
      ∧ resumed (task [.pop .control 0, .deliver] none) State.reset = some .noFrame
      ∧ resumed (task [.pop .message 0, .deliver] none) (queued [[0x81, 0, 0, 0]] []) = some .noFrame := by
  decide

/-- T11's phase 1, T12, T14 with a close that fails (R205 (a)). -/
theorem test_stop :
    outcome .stop State.reset = some (.pending, { Engine.reset with stopReq := true })
      ∧ outcome .stop { State.reset with eng.stopReq := true, eng.run := false, eng.portOpen := false }
        = some (.ok, { Engine.reset with stopReq := true, run := false, portOpen := false })
      ∧ outcome .stop { State.reset with eng.fatal := true, eng.run := false, ch.closeAnswers := [false] }
        = some (.error (.engine .ioClose),
            { Engine.reset with stopReq := true, fatal := true, run := false, portOpen := false }) := by
  decide

/-- R231's last row by a STOP of its own; in every other phase the session stays (log 23). -/
theorem test_stop_session :
    ([.channelClosed, .running, .unsynced, .failed] : List Phase).map
        (fun x => (nextOf (exec .stop { State.reset with
            eng.run := false, eng.portOpen := false, host.session := { Session.fresh with phase := x } })).map
          (fun t => t.host.session.phase))
      = [some .portClosed, some .running, some .unsynced, some .failed] := by
  decide

theorem test_status :
    outcome .status (mid [1, 5] 4 4)
      = some (.snapshot ⟨true, false, false, true, 0, 2, 0, 0, 0, 0, 0⟩, (mid [1, 5] 4 4).eng) := by
  decide

theorem test_rst :
    (outcome .rst { queued [[1, 0, 0, 0]] [] with
        eng.run := false, eng.fatal := true, eng.seqTx := 7, eng.dropC := 3, eng.portOpen := false }).map
        (fun r => { r.2 with hlen := 0, total := 0 }) = some Engine.reset := by
  decide

/-! ### The host contract -/

/-- S7: the request's frame, and P1's. -/
theorem test_requests_write :
    rawOf (.setBitrate 500000) (withSeq 1) = some [0x02, 0x01, 0x00, 0x01, 0x05]
      ∧ rawOf .sync (withSeq 9) = some [0xA5, 0x00, 0xA5, 0x00]
      ∧ rawOf .deviceOpen State.reset = some [0x01, 0x00, 0x00, 0x00]
      ∧ rawOf .channelOpen (withSeq 2) = some [0x03, 0x02, 0x00, 0x00]
      ∧ rawOf (.xchg 0x10 0 1 [9]) State.reset = some [0x10, 0x00, 0x00, 0x01, 0x09] := by
  decide

/-- D37's requests without flags or payload; the mode's one byte (R225, placeholder codes of log 7 and log 8). -/
theorem test_other_requests_write :
    rawOf .deviceClose State.reset = some [0x04, 0, 0, 0] ∧ rawOf .channelClose State.reset = some [0x05, 0, 0, 0]
      ∧ rawOf .shutdown State.reset = some [0x05, 0, 0, 0]
      ∧ rawOf (.setMode (.mode .loopback)) State.reset = some [0x06, 0, 0, 1, 2] := by
  decide

/-- R226: index, type, id, mask, little-endian. -/
theorem test_setFilter :
    rawOf (.setFilter 1 ⟨.ext29, 0x12345678, 0x1FFFFFFF⟩) State.reset
      = some [0x07, 0, 0, 0x10, 1, 0, 0, 0, 1, 0, 0, 0, 0x78, 0x56, 0x34, 0x12, 0xFF, 0xFF, 0xFF, 0x1F] := by
  decide

/-- S7's failure variants: an unsupported rate sends nothing; R225, R228. -/
theorem test_configuration_errors :
    outcome (.setBitrate 123) (withSeq 1) = some (.error (.invalidBitrate [500000]), { Engine.reset with seqTx := 1 })
      ∧ outcome (.setMode (.other 7)) State.reset = some (.error .invalidMode, Engine.reset)
      ∧ outcome (.setBitrateFromRegister 7) State.reset = some (.error .unimplemented, Engine.reset)
      ∧ outcome (.construct ⟨some 500000, some 7, none, []⟩) State.reset
        = some (.error (.initError .bitrateAndBtr), Engine.reset) := by
  decide

/-- S7: the positive answer, and the three failures. -/
theorem test_xchg_answers :
    (match resumed (task [.answer 2] (some [0x82, 1, 0, 0])) State.reset with
        | some (.record d) => some (d.command, d.isPositiveAnswer)
        | _ => none) = some (2, true)
      ∧ resumed (task [.answer 2] (some [0x02, 1, 0, 0])) State.reset = some (.error .negativeAnswer)
      ∧ resumed (task [.answer 2] (some [0x83, 1, 0, 0])) State.reset = some (.error .commandMismatch)
      ∧ resumed (task [.answer 2] none) State.reset = some (.error .timeout) := by
  decide

/-- R223, R224 and R227: what the session holds after the positive answer, and the phases of R231. -/
theorem test_answers_write_the_session :
    sessionAfter (task [.answer 1, .session .deviceOpened] (some [0x81, 0, 0, 0]))
        { State.reset with host.session.phase := .synced }
        = { Session.fresh with deviceOpen := true, phase := .deviceOpen }
      ∧ sessionAfter (task [.answer 2, .session (.bitrate 500000), .session .configured] (some [0x82, 1, 0, 0]))
          { State.reset with host.session.phase := .deviceOpen, host.session.btr := some 7 }
        = { Session.fresh with bitrate := some 500000, phase := .configured }
      ∧ sessionAfter (task [.answer 5, .session .channelClosed] (some [0x85, 1, 0, 0]))
          { State.reset with host.session.phase := .running, host.session.channelOpen := true }
        = { Session.fresh with phase := .channelClosed } := by
  decide

/-- R222 with S2's answers. -/
theorem test_sync_answers :
    resumed (task [.syncAnswer, .session .synced] (some [0x5A, 0, 0x5A, 0])) State.reset = some .ok
      ∧ resumed (task [.syncAnswer, .session .synced] (some [0x5A, 0, 0x5A, 1])) State.reset = some (.error .syncFail)
      ∧ resumed (task [.syncAnswer, .session .synced] (some [0xDA, 0, 0x5A, 0])) State.reset = some (.error .syncFail) := by
  decide

/-- R231, first row: a sync moves the session from Unsynced to Synced, and from no other phase; the other fields stay. -/
theorem test_sync_session :
    sessionAfter (task [.seqClr, .session .synced] none) { State.reset with host.session.bitrate := some 7 }
        = { Session.fresh with synchronized := true, bitrate := some 7, phase := .synced }
      ∧ sessionAfter (task [.seqClr, .session .synced] none) { State.reset with host.session.phase := .running }
        = { Session.fresh with synchronized := true, phase := .running } := by
  decide

/-- The phase that an instruction leaves, its answer not having come, when it began in this phase. -/
def phaseAfterTimeout (i : Instr) (phase : Phase) : Option Phase :=
  (nextOf (exec i { State.reset with host.session.phase := phase })).bind fun t =>
    t.host.tasks.head?.map fun k =>
      (resumeTask 0 (pendingState { k with acts := k.acts.drop 2 } t)).host.session.phase

/-- R231: a failed transition leaves the session never usable, and only from its own source; an exchange and deviceClose drive
no transition, and a channelClose closes the channel whether or not it succeeds. -/
theorem test_failed_transitions :
    [phaseAfterTimeout .sync .unsynced, phaseAfterTimeout .deviceOpen .synced,
          phaseAfterTimeout (.setBitrate 500000) .deviceOpen, phaseAfterTimeout (.setMode (.mode .listen)) .deviceOpen,
          phaseAfterTimeout (.setFilter 0 ⟨.std11, 0, 0⟩) .deviceOpen, phaseAfterTimeout .channelOpen .configured]
        = List.replicate 6 (some .failed)
      ∧ [phaseAfterTimeout .sync .running, phaseAfterTimeout .deviceOpen .unsynced, phaseAfterTimeout .deviceClose .synced,
          phaseAfterTimeout (.xchg 2 0 0 []) .synced, phaseAfterTimeout .channelClose .running]
        = [some .running, some .unsynced, some .synced, some .synced, some .channelClosed]
      ∧ ([.setBitrate 123, .setMode (.other 7), .setBitrateFromRegister 7] : List Instr).map (fun i =>
          (nextOf (exec i { State.reset with host.session.phase := .deviceOpen })).map (·.host.session.phase))
        = List.replicate 3 (some .failed) := by
  decide

/-- R229 line 0: construct resets the engine and goes on with the sync frame's ENC. R228 and log 22: with a BTR register
alone, and with neither, the request after the device's opening fails. -/
theorem test_construct :
    (nextOf (exec (.construct ⟨some 500000, none, some (.mode .normal), []⟩) { withSeq 9 with eng.run := false })).map
        (fun t => (t.eng.run, t.eng.seqTx, t.host.tasks.map (fun t => t.acts.head?)))
        = some (true, 0, [some (.enc 0xA5 0 0 [])])
      ∧ ([⟨none, some 7, none, []⟩, ⟨none, none, none, []⟩] : List BusConfig).map (fun c =>
          (nextOf (exec (.construct c) { State.reset with eng.run := false })).map (fun t => t.host.tasks.map (fun t =>
            (t.acts.drop 11).head?)))
        = [some [some (.fail .unimplemented)], some [some (.fail (.invalidBitrate [500000]))]] := by
  decide

/-- P1 (R316): without a mode a construction with a rate has the sync frame and exactly three requests. R226, R229 line 3: one
setFilter for each filter in order, with the indices 0 and 1 and the four fields low byte first. -/
theorem test_construct_requests :
    ([[], [⟨.ext29, 0x123, 0x1FFF⟩, ⟨.std11, 2, 0xFFFFFFFF⟩]] : List (List Sys2Proof.Filter)).map (fun filters =>
        (nextOf (exec (.construct ⟨some 500000, none, none, filters⟩) { State.reset with eng.run := false })).map
          (fun t => t.host.tasks.map (fun t => t.acts.filterMap (fun a =>
            match a with
            | .enc c _ _ pl => some (c, pl)
            | _ => none))))
      = [some [[(0xA5, []), (1, []), (2, [0x05]), (3, [])]],
          some [[(0xA5, []), (1, []), (2, [0x05]),
            (7, [0, 0, 0, 0, 1, 0, 0, 0, 0x23, 1, 0, 0, 0xFF, 0x1F, 0, 0]),
            (7, [1, 0, 0, 0, 0, 0, 0, 0, 2, 0, 0, 0, 0xFF, 0xFF, 0xFF, 0xFF]), (3, [])]]] := by
  decide

/-- The class of the length mismatches (R270, R277). -/
theorem test_error_classes :
    causeClass .lenWarn = .integrity ∧ causeClass .integrityWarn = .integrity ∧ causeClass .ioWrite = .transport
      ∧ causeClass .zeroStart = .protocol ∧ errorClass .syncFail = .initialization := by
  decide

/-- S9: the bytes that the rules fix, with the id in W1 as that vector's instance has it. -/
theorem test_send :
    (rawOf (.send ⟨0x123, false, false, [0xAA, 0xBB]⟩) (withSeq 5)).map
        (fun r => (r.length, r.take 6, (r.drop 10).take 4, r.drop 22))
      = some (26, [0x40, 5, 0, 0, 0x14, 0], [0x23, 1, 0, 0], [2, 0, 0xAA, 0xBB]) := by
  decide

/-- R250 lines 3 and 4: send's WR puts the frame into the TX stream and ends the operation. -/
theorem test_send_wr :
    (let u := resumeTask 0 (pendingState { task [.wr] none with raw := [0x40, 5] } { State.reset with ch.wrAnswers := [.ok] });
      (u.ch.txStream, u.host.reply, u.host.tasks)) = ([0x40, 5], some ⟨0, .ok⟩, []) := by
  decide

/-- R197 (b1) in R251: the frame that has arrived while recv waits is taken, and then decoded. -/
theorem test_recv_waiting :
    (let u := resumeTask 0 (pendingState (task [.pop .message 5, .received] none) (queued [] [[0x40, 0, 0, 0, 0, 0]]));
      (u.eng.mq, u.host.tasks.map (fun t => (t.acts, t.got)),
        (resumeTask 0 u).host.reply, (resumeTask 0 u).host.tasks))
      = ([], [([.received], some [0x40, 0, 0, 0, 0, 0])], some ⟨0, .error (.engine (.bodyShort 0))⟩, []) := by
  decide

/-- The CAN frame that recv's second half returns, its DLC and integrity flag, and the number of trace records. -/
def receivedBy (f : Frame) : Option (CanFrame × BitVec 16 × Bool × Nat) :=
  match step { pendingState (task [.received] (some f)) State.reset with script := [.resume 0] } with
  | .next u =>
    match u.host.reply with
    | some ⟨_, .received (some r) _⟩ => some (r.frame, r.dlc, r.isErrorFrame, u.trace.length)
    | _ => none
  | _ => none

/-- S6: the frame with the wrong DLC is returned, with the flag set, and the mismatch is in the trace. -/
theorem test_recv :
    receivedBy [0x40, 0, 1, 0, 0x14, 0, 0, 0, 0, 0, 0x23, 1, 0, 0, 0, 0, 0, 0, 0, 0, 0, 0, 3, 0, 0xAA, 0xBB]
        = some (⟨0x123, false, false, [0xAA, 0xBB]⟩, 3, true, 1)
      ∧ resumed (task [.received] none) State.reset = some (.received none false)
      ∧ outcome (.recv 1) State.reset = some (.pending, Engine.reset) := by
  decide

/-! ### Witnesses: a state and operands that meet the hypotheses of each statement -/

/-- A sound check of the invariant, for the witnesses. -/
def invCheck (p : Params) (e : Engine) : Bool :=
  decide (e.acc.length = e.cnt) && decide (e.cnt ≤ p.accCap)
    && decide (1 ≤ e.cnt → byteAt e.acc 0 ≠ 0x00 ∧ e.hlen = hlen p e.acc)
    && decide (1 ≤ e.cnt → e.cnt < e.hlen → e.total = e.hlen)
    && decide (1 ≤ e.cnt → e.hlen ≤ e.cnt → e.total = e.hlen + plen p e.acc ∧ e.cnt < e.total)
    && decide (e.cq = []) && decide (e.mq = []) && decide (e.lenWarn = 0)
    && decide (e.portOpen = false → e.run = false) && decide (e.fatal = true → e.run = false)
    && decide (e.inflight = true → e.run = true)

theorem engineInv_of_check {p : Params} {e : Engine} (h : invCheck p e = true) : EngineInv p e := by
  simp only [invCheck, Bool.and_eq_true, decide_eq_true_eq] at h
  obtain ⟨⟨⟨⟨⟨⟨⟨⟨⟨⟨h1, h2⟩, h3⟩, h4⟩, h5⟩, h6⟩, h7⟩, h8⟩, h9⟩, h10⟩, h11⟩ := h
  exact
    { count := h1, bound := h2, start := h3, header := h4, payload := h5
      cqBound := by rw [h6]; exact Nat.zero_le _
      mqBound := by rw [h7]; exact Nat.zero_le _
      cqFrames := by rw [h6]; intro f hf; cases hf
      mqFrames := by rw [h7]; intro f hf; cases hf
      noLenWarn := h8, closedStopped := h9, fatalStopped := h10, inflightRuns := h11 }

theorem reset_inv : Inv State.reset :=
  { engine := engineInv_of_check (by decide), noDetached := rfl }

theorem ticketsFresh_none {s : State} (h : s.host.tasks = []) : TicketsFresh s := by
  constructor <;> simp [h]

theorem ticketsFresh_pending (t : Machine.Task) (h : t.ticket = 0) (s : State) : TicketsFresh (pendingState t s) := by
  constructor <;> simp [pendingState, h]

theorem witness_default_parameters : Params.default.ok = true := by decide

theorem witness_default_headers_and_body :
    Params.default.headersFit = true ∧ Params.default.bodyFits = true := by
  decide

theorem witness_DecodeReversesEncode :
    Params.default.ok = true
      ∧ ([.byteCtrl 0x01, .byteCtrl 0x7F, .byteCtrlAck 0x00, .byteCtrlAck 0x7E, .encSync 9 9 [1], .encCtrl 1 0 0 [],
          .encCtrl 0x7F 255 1 [9], .encMsg 65535 1 [9], .encBadCommand 0 0 0 [], .encBadField 1 256 0 [],
          .decShort [1, 0, 0], .decF6 (0x40 :: List.replicate 23 0), .recv 0] : List Instr).all
          (fun i => i.wf Params.default) = true := by
  decide

theorem witness_EncodeReversesImageDecode :
    Params.default.ok = true
      ∧ (let bytes : List Byte := [0x7F, 0x09, 0xFF, 0x01, 0xAA];
        Params.default.inRange (byteAt bytes 0).toNat = true ∧ byteAt bytes 0 ≠ Params.default.cmdMessage
          ∧ 4 ≤ bytes.length ∧ bytes.length = 4 + (byteAt bytes 3).toNat)
      ∧ (let bytes : List Byte := [0x40, 0x09, 0xFF, 0x01, 0x00, 0x00];
        Params.default.inRange (byteAt bytes 0).toNat = true ∧ byteAt bytes 0 = Params.default.cmdMessage
          ∧ 6 ≤ bytes.length ∧ bytes.length = 6 + ((byteAt bytes 4).toNat + 256 * (byteAt bytes 5).toNat)) := by
  decide

theorem witness_StepRunsTheDecodedInstruction :
    State.reset.par.ok = true ∧ decode Params.default (.rx 0x40) = .byteMessage
      ∧ ({ State.reset with script := [.issue (.rx 0x40)] }).script = .issue (.rx 0x40) :: []
      ∧ decode State.reset.par (packetOfWord State.reset.par 8 0xFE) = .byteCtrlAck 0x7E
      ∧ ({ State.reset with script := [.resume 0] }).script = .resume 0 :: [] ∧ State.reset.script = [] :=
  ⟨witness_default_parameters, rfl, rfl, rfl, rfl, rfl⟩

/-- A record that R9 admits and one that it does not. -/
theorem witness_OnlyBadInputStops :
    State.reset.par.ok = true ∧ ({ Params.default with mqDepth := 0 }).ok = false := by
  decide

theorem witness_EncCtrlReturnsTheF4Frame :
    (withSeq 255).par.ok = true ∧ (withSeq 255).par.inRange 1 = true ∧ (withSeq 255).par.inRange 0x7F = true
      ∧ 0x7F ≠ (withSeq 255).par.cmdMessage.toNat ∧ 255 ≤ 255 ∧ (255 > 0 → (List.replicate 255 (7 : Byte)).length = 255) := by
  decide +kernel

theorem witness_EncMsgReturnsTheF6Frame :
    (withSeq 255).par.ok = true ∧ (65535 ≤ 65535) ∧ (65535 > 0 → (List.replicate 65535 (7 : Byte)).length = 65535) :=
  ⟨witness_default_parameters, Nat.le_refl _, fun _ => List.length_replicate⟩

theorem witness_EncRejectsWithoutWriting :
    State.reset.par.ok = true
      ∧ (0 ≠ State.reset.par.cmdSync.toNat ∧ 0 < State.reset.par.cmdMin.toNat)
      ∧ (0x80 ≠ State.reset.par.cmdSync.toNat ∧ State.reset.par.cmdMax.toNat < 0x80)
      ∧ (State.reset.par.inRange 1 = true ∧ 255 = (if 1 = State.reset.par.cmdMessage.toNat then 65535 else 255)
          ∧ 256 > 255)
      ∧ (State.reset.par.inRange 0x40 = true ∧ 65535 = (if 0x40 = State.reset.par.cmdMessage.toNat then 65535 else 255)
          ∧ 65536 > 65535)
      ∧ (1 > 0 ∧ ([] : List Byte).length ≠ 1) := by
  decide

theorem witness_SequenceTagsAreConsecutive :
    State.reset.par.ok = true
      ∧ (∀ j ∈ ([.encCtrl 1 0 0 [], .encBadCommand 0 0 0 [], .encMsg 0 0 []] : List Instr),
          taggedOrRejected j = true ∧ j.wf State.reset.par = true)
      ∧ acceptedTagged (.encCtrl 0x7F 255 0 []) = true
      ∧ (Instr.encCtrl 0x7F 255 0 []).wf State.reset.par = true := by
  decide

theorem witness_ImageIsTheFrameReturned :
    State.reset.par.ok = true ∧ (Instr.encMsg 65535 1 [9]).wf State.reset.par = true
      ∧ encode State.reset.par State.reset.eng.seqTx (.encMsg 65535 1 [9]) = .image [0x40, 0, 0xFF, 0xFF, 1, 0, 9] := by
  decide

theorem witness_DecRejectsInOrder :
    State.reset.par.ok = true
      ∧ ((0x01 : Byte) ≠ 0x00 ∧ ([0, 0] : List Byte).length + 1 < (if (0x01 : Byte) = State.reset.par.cmdMessage then 6 else 4))
      ∧ ((0x40 : Byte) ≠ 0x00
          ∧ ([0, 0, 0, 0] : List Byte).length + 1 < (if (0x40 : Byte) = State.reset.par.cmdMessage then 6 else 4))
      ∧ (6 ≤ (List.replicate 22 (0 : Byte)).length + 1
          ∧ (List.replicate 22 (0 : Byte)).length + 1 < 6 + State.reset.par.bodyPrefix)
      ∧ (6 ≤ (List.replicate 5 (0 : Byte)).length + 1
          ∧ (List.replicate 5 (0 : Byte)).length + 1 < 6 + State.reset.par.bodyPrefix) := by
  decide

theorem witness_DecFsRecord :
    State.reset.par.ok = true
      ∧ ([[0xA5, 0, 0xA5, 0], [0x5A, 0, 0x5A, 0], [0x5A, 0, 0, 7, 9]] : List (List Byte)).all
          (fun raw => decide (1 ≤ raw.length) && decide (State.reset.par.hlenShort ≤ raw.length)
            && (byteAt raw 0 == State.reset.par.cmdSync || byteAt raw 0 == State.reset.par.cmdSyncAnswer)) = true := by
  decide

theorem witness_DecF4Record :
    State.reset.par.ok = true
      ∧ ([[0x01, 0, 0, 0], [0x80, 0, 0, 0], [0xC0, 0, 0, 0], [0xFF, 0, 0, 0, 9]] : List (List Byte)).all
          (fun raw => decide (1 ≤ raw.length) && decide (State.reset.par.hlenShort ≤ raw.length) && byteAt raw 0 != 0
            && byteAt raw 0 != State.reset.par.cmdMessage && byteAt raw 0 != State.reset.par.cmdSync
            && byteAt raw 0 != State.reset.par.cmdSyncAnswer) = true := by
  decide

theorem witness_DecF6Record :
    State.reset.par.ok = true ∧ byteAt (0x40 :: List.replicate 23 (0 : Byte)) 0 = State.reset.par.cmdMessage
      ∧ List.replicate 18 0 = (0x40 :: List.replicate 23 (0 : Byte)).drop State.reset.par.hlenLong
      ∧ State.reset.par.bodyPrefix ≤ (List.replicate 18 (0 : Byte)).length := by
  decide

theorem witness_DecReversesEnc :
    Params.default.ok = true ∧ (Params.default.hlenShort = 4 ∧ Params.default.hlenLong = 6)
      ∧ 0x7F ≠ Params.default.cmdSyncAnswer.toNat ∧ 0x7F ≠ Params.default.cmdSync.toNat
      ∧ BitVec.ofNat 8 0x7F &&& Params.default.answerBit = 0
      ∧ (0x7F = Params.default.cmdMessage.toNat → Params.default.bodyPrefix ≤ 1)
      ∧ encodeFrame Params.default 255 0x7F 255 1 [9] = .ok ([0x7F, 255, 255, 1, 9], 0)
      ∧ (0x40 = Params.default.cmdMessage.toNat → Params.default.bodyPrefix ≤ 18)
      ∧ encodeFrame Params.default 0 0x40 0 18 (List.replicate 18 0)
        = .ok ([0x40, 0, 0, 0, 18, 0] ++ List.replicate 18 0, 1) := by
  refine ⟨by decide, by decide, by decide, by decide, by decide, by decide, rfl, by decide, rfl⟩

theorem witness_QueuedFramesDecode :
    Params.default.ok = true ∧ ControlFrame Params.default [0x81, 0, 0, 1, 9]
      ∧ (MessageFrame Params.default [0x40, 0, 0, 0, 0, 0] ∧ memRead [0x40, 0, 0, 0, 0, 0] 4 2 < Params.default.bodyPrefix)
      ∧ MessageFrame Params.default ([0x40, 0, 0, 0, 18, 0] ++ List.replicate 18 0)
      ∧ ¬memRead ([0x40, 0, 0, 0, 18, 0] ++ List.replicate 18 0) 4 2 < Params.default.bodyPrefix := by
  unfold ControlFrame MessageFrame
  decide

/-- One state for each row of the dispatch of R161, at a boundary of its range. -/
def dispatchStates : List State :=
  [mid [] 4 9, mid [1] 4 4, mid [0x40, 0, 0, 0] 6 6, mid [1, 0, 0] 4 4, mid [0x5A, 0, 0x5A] 4 4, mid [0x40, 0, 0, 0, 1] 6 6,
    mid [1, 0, 0, 2] 4 6, mid [1, 0, 0, 2, 9] 4 6]

theorem witness_dispatch_invariant :
    ∀ s ∈ dispatchStates, s.par.ok = true ∧ s.par.headersFit = true
      ∧ EngineInv s.par s.eng ∧ s.eng.run = true ∧ s.eng.inflight = true
      ∧ s.detached = none := by
  have h : dispatchStates.all (fun s => s.par.ok && s.par.headersFit && invCheck s.par s.eng && s.eng.run && s.eng.inflight
      && decide (s.detached = none)) = true := by decide
  intro s hs
  have := List.all_eq_true.1 h s hs
  simp only [Bool.and_eq_true, decide_eq_true_eq] at this
  exact ⟨this.1.1.1.1.1, this.1.1.1.1.2, engineInv_of_check this.1.1.1.2, this.1.1.2, this.1.2, this.2⟩

/-- The other three clauses: at the top of the loop with and without a stop request, and stopped. -/
theorem witness_ByteRowsOfferTheirByte :
    EngineInv State.reset.par State.reset.eng
      ∧ (State.reset.eng.run = true ∧ State.reset.eng.inflight = false ∧ State.reset.eng.stopReq = false)
      ∧ EngineInv Params.default { Engine.reset with stopReq := true }
      ∧ EngineInv Params.default { Engine.reset with run := false, portOpen := false } :=
  ⟨reset_inv.engine, by decide, engineInv_of_check (by decide), engineInv_of_check (by decide +kernel)⟩

theorem witness_FirstByteRowsStartFrames :
    (mid [] 0 0).par.ok = true ∧ (mid [] 0 0).eng.run = true ∧ (mid [] 0 0).eng.inflight = true ∧ (mid [] 0 0).eng.cnt = 0
      ∧ ((0x7F : BitVec 7) ≠ 0 ∧ (0#1 ++ (0x7F : BitVec 7) : Byte) ≠ (mid [] 0 0).par.cmdMessage)
      ∧ ((0x01 : BitVec 7) ≠ 0 ∧ (0#1 ++ (0x01 : BitVec 7) : Byte) ≠ (mid [] 0 0).par.cmdMessage)
      ∧ (1#1 ++ (0x00 : BitVec 7) : Byte) ≠ (mid [] 0 0).par.cmdMessage := by
  decide

theorem witness_StepsThatConsumeNoByte :
    (State.reset.eng.run = true ∧ State.reset.eng.inflight = false ∧ State.reset.eng.stopReq = false)
      ∧ (({ Engine.reset with stopReq := true }).run = true ∧ ({ Engine.reset with stopReq := true }).inflight = false)
      ∧ ((mid [1] 4 4).eng.run = true ∧ (mid [1] 4 4).eng.inflight = true) := by
  decide

theorem witness_FirstByteIsSkippedOrFixesTheHeader :
    (mid [] 6 9).par.ok = true ∧ (mid [] 6 9).eng.run = true ∧ (mid [] 6 9).eng.inflight = true ∧ (mid [] 6 9).eng.cnt = 0
      ∧ (0x01 : Byte) ≠ 0x00 ∧ (0x40 : Byte) ≠ 0x00 ∧ (0xFF : Byte) ≠ 0x00 := by
  decide

theorem witness_RxHdrBuffers :
    ([mid [1] 4 4, mid [1, 0] 4 4, mid [0x40, 0, 0, 0] 6 6] : List State).all
      (fun s => s.eng.run && s.eng.inflight && decide (s.eng.acc.length = s.eng.cnt) && decide (1 ≤ s.eng.cnt)
        && decide (s.eng.cnt + 1 < s.eng.hlen)) = true := by
  decide

/-- What the three length steps ask of a state. -/
def atLastHeaderByte (s : State) : Bool :=
  s.par.ok && s.eng.run && s.eng.inflight && decide (s.eng.acc.length = s.eng.cnt) && decide (1 ≤ s.eng.cnt)
    && decide (s.eng.cnt + 1 = s.eng.hlen)

/-- An error frame and a MESSAGE-like answer at the default header length, and a header of five bytes. -/
theorem witness_RxLen4ReadsTheLength :
    ([mid [0xC0, 0, 0] 4 4, mid [0xFF, 0, 0] 4 4,
        { mid [1, 0, 0, 2] 5 5 with par := { Params.default with hlenShort := 5 } }] : List State).all
      (fun s => atLastHeaderByte s && decide (s.eng.hlen = s.par.hlenShort)
        && byteAt s.eng.acc 0 != s.par.cmdMessage && byteAt s.eng.acc 0 != s.par.cmdSync
        && byteAt s.eng.acc 0 != s.par.cmdSyncAnswer) = true
      ∧ Params.default.hlenShort = 4 := by
  decide

theorem witness_RxLenSyncCompletes :
    ([mid [0xA5, 0, 0] 4 4, mid [0x5A, 0, 0] 4 4] : List State).all
      (fun s => atLastHeaderByte s && decide (s.eng.hlen = s.par.hlenShort)
        && (byteAt s.eng.acc 0 == s.par.cmdSync || byteAt s.eng.acc 0 == s.par.cmdSyncAnswer)) = true := by
  decide

theorem witness_RxLen6ReadsTheLength :
    (let s := mid [0x40, 0, 0, 0, 0] 6 6;
      atLastHeaderByte s = true ∧ s.eng.hlen = s.par.hlenLong ∧ s.par.hlenLong ≠ s.par.hlenShort
        ∧ byteAt s.eng.acc 0 = s.par.cmdMessage ∧ s.par.hlenLong = 6) := by
  decide

/-- One byte that completes the frame, and one that does not. -/
theorem witness_RxPayBuffersOrCompletes :
    mid [1, 0, 0, 2, 9] 4 6 ∈ dispatchStates ∧ mid [1, 0, 0, 2] 4 6 ∈ dispatchStates
      ∧ (mid [1, 0, 0, 2, 9] 4 6).eng.cnt + 1 = (mid [1, 0, 0, 2, 9] 4 6).eng.total
      ∧ (mid [1, 0, 0, 2] 4 6).eng.hlen ≤ (mid [1, 0, 0, 2] 4 6).eng.cnt := by
  decide

theorem witness_CompletionDeliversTheFrame :
    (mid [1, 0, 0, 0] 4 4).par.ok = true ∧ (mid [1, 0, 0, 0] 4 4).eng.run = true
      ∧ (mid [1, 0, 0, 0] 4 4).eng.cnt = 4 ∧ (mid [1, 0, 0, 0] 4 4).eng.total = 4
      ∧ (mid [1, 0, 0, 0] 4 4).eng.hlen = hlen Params.default [1, 0, 0, 0]
      ∧ 4 = hlen Params.default [1, 0, 0, 0] + plen Params.default [1, 0, 0, 0]
      ∧ ({ State.reset with detached := some [1, 0, 0, 0] }).detached = some [1, 0, 0, 0] := by
  decide

theorem witness_FramerComputesDelimit :
    ∃ s : State, s.par.ok = true ∧ s.par.headersFit = true ∧ s.eng.run = true ∧ s.eng.stopReq = false ∧ s.eng.cnt = 0
      ∧ s.eng.acc = []
      ∧ s.detached = none ∧ s.script = ([0x00, 0x01, 0x00] : List Byte).map (fun b => .issue (.rx b)) ++ [] :=
  ⟨{ State.reset with script := [.issue (.rx 0x00), .issue (.rx 0x01), .issue (.rx 0x00)] }, by decide⟩

theorem witness_StoppedReaderTakesNoStep :
    ({ Engine.reset with run := false }).run = false ∧ State.reset.script = [] ∧ State.reset.par.ok = true := by
  decide

theorem witness_StopRequestEndsReading :
    ∃ s t : State, s.eng.stopReq = true ∧ s.eng.run = true ∧ s.eng.inflight = false ∧ s.par.ok = true ∧ s.script = []
      ∧ step s = .next t :=
  ⟨{ State.reset with eng.stopReq := true }, { State.reset with eng.stopReq := true, eng.run := false }, rfl, rfl, rfl,
    witness_default_parameters, rfl, rfl⟩

theorem witness_WrOutcomes :
    (∃ s : State, s.eng.portOpen = true ∧ s.ch.wrAnswers = .ok :: [])
      ∧ (∃ s : State, s.eng.portOpen = false)
      ∧ (∃ s : State, s.eng.portOpen = true ∧ s.ch.wrAnswers = .writeError 0 :: [])
      ∧ (∃ s : State, s.eng.portOpen = true ∧ s.ch.wrAnswers = .flushError 1 :: [])
      ∧ (State.reset.eng.portOpen = true ∧ State.reset.ch.wrAnswers = []) :=
  ⟨⟨{ State.reset with ch.wrAnswers := [.ok] }, rfl, rfl⟩, ⟨{ State.reset with eng.portOpen := false }, rfl⟩,
    ⟨{ State.reset with ch.wrAnswers := [.writeError 0] }, rfl, rfl⟩,
    ⟨{ State.reset with ch.wrAnswers := [.flushError 1] }, rfl, rfl⟩, rfl, rfl⟩

theorem witness_PopTakesTheHead :
    TicketsFresh (queued [[1, 0, 0, 0]] [[0x40, 0, 0, 0, 0, 0]])
      ∧ (queued [[1, 0, 0, 0]] [[0x40, 0, 0, 0, 0, 0]]).eng.cq = [1, 0, 0, 0] :: []
      ∧ (queued [[1, 0, 0, 0]] [[0x40, 0, 0, 0, 0, 0]]).eng.mq = [0x40, 0, 0, 0, 0, 0] :: [] :=
  ⟨ticketsFresh_none rfl, rfl, rfl⟩

theorem witness_PopWaitsForAFrameOrGivesUp :
    State.reset.eng.cq = [] ∧ State.reset.eng.mq = []
      ∧ (∃ (u : State) (t : Machine.Task), TicketsFresh u ∧ t ∈ u.host.tasks ∧ t.waiting = true
          ∧ t.acts = [.pop .control 5, .deliver])
      ∧ (∃ (u : State) (t : Machine.Task), TicketsFresh u ∧ t ∈ u.host.tasks ∧ t.waiting = true
          ∧ t.acts = [.pop .message 5, .deliver]) :=
  ⟨rfl, rfl,
    ⟨_, task [.pop .control 5, .deliver] none, ticketsFresh_pending _ rfl State.reset, List.mem_singleton.2 rfl, rfl, rfl⟩,
    ⟨_, task [.pop .message 5, .deliver] none, ticketsFresh_pending _ rfl State.reset, List.mem_singleton.2 rfl, rfl, rfl⟩⟩

theorem witness_StopPhases :
    (TicketsFresh State.reset ∧ State.reset.eng.run = true)
      ∧ (∃ s : State, TicketsFresh s ∧ s.eng.run = false ∧ s.eng.portOpen = false)
      ∧ (∃ s : State, TicketsFresh s ∧ s.eng.run = false ∧ s.eng.portOpen = true ∧ s.ch.closeAnswers = true :: [])
      ∧ (∃ s : State, TicketsFresh s ∧ s.eng.run = false ∧ s.eng.portOpen = true ∧ s.ch.closeAnswers = false :: [])
      ∧ (∃ s : State, TicketsFresh s ∧ s.eng.run = false ∧ s.eng.portOpen = true ∧ s.ch.closeAnswers = []) :=
  ⟨⟨ticketsFresh_none rfl, rfl⟩,
    ⟨{ State.reset with eng.run := false, eng.portOpen := false }, ticketsFresh_none rfl, rfl, rfl⟩,
    ⟨{ State.reset with eng.run := false, ch.closeAnswers := [true] }, ticketsFresh_none rfl, rfl, rfl, rfl⟩,
    ⟨{ State.reset with eng.run := false, ch.closeAnswers := [false] }, ticketsFresh_none rfl, rfl, rfl, rfl⟩,
    ⟨{ State.reset with eng.run := false }, ticketsFresh_none rfl, rfl, rfl, rfl⟩⟩

/-- A STOP that has not begun (a shutdown's) and one that waits, with the reader running and with it stopped. -/
theorem witness_StopJoinsBeforeClosing :
    ∀ run waiting : Bool, ∃ (s : State) (t : Machine.Task), TicketsFresh s ∧ t ∈ s.host.tasks
      ∧ t.acts = [.stop, .session .portClosed] ∧ t.handler = .closePort ∧ t.waiting = waiting ∧ s.eng.run = run :=
  fun run waiting =>
    ⟨_, { task [.stop, .session .portClosed] none with handler := .closePort, waiting := waiting },
      ticketsFresh_pending _ rfl { State.reset with eng.run := run }, List.mem_singleton.2 rfl, rfl, rfl, rfl, rfl⟩

theorem witness_RstResetsTheEngine : ∃ s : State, s.eng.run = false ∧ s.host.tasks = [] :=
  ⟨{ State.reset with eng.run := false }, rfl, rfl⟩

theorem witness_RequestsBeginWithTheirFrame :
    State.reset.par.ok = true ∧ TicketsFresh State.reset
      ∧ encodeFrame State.reset.par State.reset.eng.seqTx 0x7F 255 0 [] = .ok ([0x7F, 0, 255, 0], 1)
      ∧ encodeFrame State.reset.par State.reset.eng.seqTx 0x80 0 0 [] = .error (.badCommand 0x80) :=
  ⟨witness_default_parameters, ticketsFresh_none rfl, rfl, rfl⟩

theorem witness_ConfigurationRequestsCarryTheirPayload :
    State.reset.par.ok = true ∧ State.reset.par.bitrateTable.lookup 500000 = some 5 ∧ State.reset.par.configFlags ≤ 255
      ∧ State.reset.par.modeFlags ≤ 255 ∧ State.reset.par.filterFlags ≤ 255
      ∧ ([1, 0, 0, 0, 1, 0, 0, 0, 2, 0, 0, 0, 0xFF, 0xFF, 0xFF, 0xFF] : List Byte).length = 16
      ∧ memRead [1, 0, 0, 0, 1, 0, 0, 0, 2, 0, 0, 0, 0xFF, 0xFF, 0xFF, 0xFF] 0 4 = (1 : BitVec 32).toNat
      ∧ memRead [1, 0, 0, 0, 1, 0, 0, 0, 2, 0, 0, 0, 0xFF, 0xFF, 0xFF, 0xFF] 4 4 = State.reset.par.filterType29.toNat
      ∧ memRead [1, 0, 0, 0, 1, 0, 0, 0, 2, 0, 0, 0, 0xFF, 0xFF, 0xFF, 0xFF] 8 4 = (2 : BitVec 32).toNat
      ∧ memRead [1, 0, 0, 0, 1, 0, 0, 0, 2, 0, 0, 0, 0xFF, 0xFF, 0xFF, 0xFF] 12 4 = (0xFFFFFFFF : BitVec 32).toNat := by
  decide

theorem witness_ConfigurationErrorsSendNothing :
    TicketsFresh State.reset ∧ State.reset.par.bitrateTable.lookup 499999 = none :=
  ⟨ticketsFresh_none rfl, by decide⟩

/-- Constructions with a rate, with a BTR register and with neither, and with filters. -/
theorem witness_SyncAndConstructBegin :
    (let s := { State.reset with eng.run := false };
      s.par.ok = true ∧ s.eng.run = false ∧ s.host.tasks = [])
      ∧ ([⟨some 500000, none, some (.mode .listen), [⟨.std11, 0, 0⟩, ⟨.ext29, 1, 2⟩]⟩, ⟨some 1, none, none, []⟩,
            ⟨none, some 7, some (.other 9), []⟩, ⟨none, none, none, []⟩] : List BusConfig).all
          (fun c => decide (c.bitrate = none ∨ c.btr = none)) = true := by
  decide

theorem witness_SendBuildsTheBody :
    State.reset.par.ok = true ∧ TicketsFresh State.reset ∧ State.reset.par.channelFlags ≤ 65535
      ∧ State.reset.par.bodyFits = true
      ∧ State.reset.par.bodyPrefix + (List.replicate 65517 (7 : Byte)).length ≤ 65535
      ∧ 65535 < State.reset.par.bodyPrefix + (List.replicate 65518 (7 : Byte)).length
      ∧ (∃ s : State, s.par.ok = true ∧ TicketsFresh s ∧ s.eng.portOpen = true ∧ s.ch.wrAnswers = .ok :: []) := by
  rw [List.length_replicate, List.length_replicate]
  exact ⟨witness_default_parameters, ticketsFresh_none rfl, by decide, by decide, by decide, by decide,
    { State.reset with ch.wrAnswers := [.ok] }, witness_default_parameters, ticketsFresh_none rfl, rfl, rfl⟩

theorem witness_RecvReturnsTheCanFrame :
    TicketsFresh State.reset ∧ State.reset.eng.mq = []
      ∧ (queued [] [[0x40, 0, 0, 0, 0, 0]]).eng.mq = [0x40, 0, 0, 0, 0, 0] :: []
      ∧ decodeFrame State.reset.par [0x40, 0, 0, 0, 0, 0] = .error (.bodyShort 0)
      ∧ (∃ d b, decodeFrame State.reset.par ([0x40, 0, 0, 0, 18, 0] ++ List.replicate 18 0) = .ok d ∧ d.body = some b)
      ∧ (∀ mq ∈ ([[], [[0x40, 0, 0, 0, 0, 0]]] : List (List Frame)), ∃ (s : State) (t : Machine.Task), TicketsFresh s
          ∧ t ∈ s.host.tasks ∧ t.acts = [.pop .message 5, .received] ∧ t.waiting = true ∧ s.eng.mq = mq)
      ∧ (∀ f : Frame, ∃ (s : State) (t : Machine.Task), TicketsFresh s ∧ t ∈ s.host.tasks ∧ t.acts = [.received]
          ∧ t.got = some f) :=
  ⟨ticketsFresh_none rfl, rfl, rfl, rfl, ⟨_, _, rfl, rfl⟩,
    fun mq _ => ⟨_, task [.pop .message 5, .received] none, ticketsFresh_pending _ rfl (queued [] mq),
      List.mem_singleton.2 rfl, rfl, rfl, rfl⟩,
    fun f => ⟨_, task [.received] (some f), ticketsFresh_pending _ rfl State.reset, List.mem_singleton.2 rfl, rfl, rfl⟩⟩

/-- One witness for each of the three results: positive answer, negative answer, another command. -/
theorem witness_ExchangeIsDecidedByTheHeadOfCQ :
    ∃ s : State, s.par.ok = true ∧ TicketsFresh s ∧ s.eng.portOpen = true ∧ s.ch.wrAnswers = .ok :: []
      ∧ s.par.inRange 2 = true ∧ 2 ≠ s.par.cmdMessage.toNat ∧ s.eng.cq = [0x82, 1, 0, 0] :: []
      ∧ (∃ d, decodeFrame s.par [0x82, 1, 0, 0] = .ok d ∧ d.command.toNat = 2 ∧ d.isPositiveAnswer = true)
      ∧ (∃ d, decodeFrame s.par [0x02, 1, 0, 0] = .ok d ∧ d.command.toNat = 2 ∧ d.isPositiveAnswer = false)
      ∧ (∃ d, decodeFrame s.par [0x83, 1, 0, 0] = .ok d ∧ d.command.toNat ≠ 2) :=
  ⟨{ queued [[0x82, 1, 0, 0]] [] with ch.wrAnswers := [.ok] }, witness_default_parameters, ticketsFresh_none rfl, rfl, rfl,
    by decide, by decide, rfl, ⟨_, rfl, by decide, by decide⟩, ⟨_, rfl, by decide, by decide⟩, ⟨_, rfl, by decide⟩⟩

/-- The pieces of an exchange, under every handler: its ENC accepted and rejected, its WR with each answer and on a closed port,
last of its operation and with more left, its pop with and without a frame, begun and waiting, and its answer with a frame that
does not parse and a positive one (those that compare wrong are in the witness above). -/
theorem witness_exchange_pieces :
    ∀ h ∈ ([.surface, .transition .deviceOpen, .closeChannel, .shutdown, .closePort, .init] : List Handler),
      (∃ (s : State) (t : Machine.Task), TicketsFresh s ∧ t ∈ s.host.tasks ∧ t.handler = h
          ∧ t.acts = .enc 2 0 0 [] :: [.wr]
          ∧ encodeFrame s.par s.eng.seqTx 2 0 0 [] = .ok ([2, 0, 0, 0], 1))
        ∧ (∃ (s : State) (t : Machine.Task), TicketsFresh s ∧ t ∈ s.host.tasks ∧ t.handler = h
          ∧ t.acts = .enc 2 256 0 [] :: [.wr]
          ∧ encodeFrame s.par s.eng.seqTx 2 256 0 [] = .error (.badField true false false))
        ∧ (∀ rest ∈ ([[], [.pop .control 5, .answer 2]] : List (List Act)),
          ∀ answers ∈ ([[.ok], [.writeError 0], [.flushError 1]] : List (List WrAnswer)), ∀ portOpen : Bool,
          ∃ (s : State) (t : Machine.Task), TicketsFresh s ∧ t ∈ s.host.tasks ∧ t.handler = h ∧ t.acts = .wr :: rest
            ∧ s.eng.portOpen = portOpen ∧ s.ch.wrAnswers = answers)
        ∧ (∀ cq ∈ ([[], [[0x82, 1, 0, 0]]] : List (List Frame)), ∀ waiting : Bool,
          ∃ (s : State) (t : Machine.Task), TicketsFresh s ∧ t ∈ s.host.tasks ∧ t.handler = h
            ∧ t.acts = .pop .control 5 :: [.answer 2] ∧ t.waiting = waiting ∧ s.eng.cq = cq)
        ∧ (∃ (s : State) (t : Machine.Task), TicketsFresh s ∧ t ∈ s.host.tasks ∧ t.handler = h ∧ t.acts = .answer 2 :: []
          ∧ t.got = some [0, 1] ∧ decodeFrame s.par [0, 1] = .error .zeroStart)
        ∧ (∃ (s : State) (t : Machine.Task) (d : Decoded), TicketsFresh s ∧ t ∈ s.host.tasks ∧ t.handler = h
          ∧ t.acts = .answer 2 :: [.session .configured] ∧ t.got = some [0x82, 1, 0, 0]
          ∧ decodeFrame s.par [0x82, 1, 0, 0] = .ok d ∧ d.command.toNat = 2 ∧ d.isPositiveAnswer = true) :=
  fun h _ =>
    ⟨⟨_, { task [.enc 2 0 0 [], .wr] none with handler := h }, ticketsFresh_pending _ rfl State.reset,
        List.mem_singleton.2 rfl, rfl, rfl, rfl⟩,
      ⟨_, { task [.enc 2 256 0 [], .wr] none with handler := h }, ticketsFresh_pending _ rfl State.reset,
        List.mem_singleton.2 rfl, rfl, rfl, rfl⟩,
      fun rest _ answers _ portOpen => ⟨_, { task (.wr :: rest) none with handler := h },
        ticketsFresh_pending _ rfl { State.reset with eng.portOpen := portOpen, ch.wrAnswers := answers },
        List.mem_singleton.2 rfl, rfl, rfl, rfl, rfl⟩,
      fun cq _ waiting => ⟨_, { task [.pop .control 5, .answer 2] none with handler := h, waiting := waiting },
        ticketsFresh_pending _ rfl (queued cq []), List.mem_singleton.2 rfl, rfl, rfl, rfl, rfl⟩,
      ⟨_, { task [.answer 2] (some [0, 1]) with handler := h }, ticketsFresh_pending _ rfl State.reset,
        List.mem_singleton.2 rfl, rfl, rfl, rfl, rfl⟩,
      ⟨_, { task [.answer 2, .session .configured] (some [0x82, 1, 0, 0]) with handler := h }, _,
        ticketsFresh_pending _ rfl State.reset, List.mem_singleton.2 rfl, rfl, rfl, rfl, rfl,
        show (decF4Row Params.default [0x82, 1, 0, 0]).command.toNat = 2 by decide,
        show (decF4Row Params.default [0x82, 1, 0, 0]).isPositiveAnswer = true by decide⟩⟩

theorem witness_SyncSucceedsOnTheCanonicalAnswer :
    ∃ s : State, s.par.ok = true ∧ TicketsFresh s ∧ s.eng.portOpen = true ∧ s.ch.wrAnswers = .ok :: []
      ∧ s.eng.cq = [0x5A, 0, 0x5A, 0] :: [] ∧ (∃ d, decodeFrame s.par [0x5A, 0, 0x5A, 0] = .ok d)
      ∧ (∃ d, decodeFrame s.par [0x5A, 0, 0x5A, 1] = .ok d)
      ∧ [0x5A, 0, 0x5A, 1] ≠ [s.par.cmdSyncAnswer, 0x00, s.par.cmdSyncAnswer, 0x00] :=
  ⟨{ queued [[0x5A, 0, 0x5A, 0]] [] with ch.wrAnswers := [.ok] }, witness_default_parameters, ticketsFresh_none rfl, rfl, rfl,
    rfl, ⟨_, rfl⟩, ⟨_, rfl⟩, by decide⟩

/-- The pieces of a sync, as in a construct: an answer that is canonical, another, one that does not parse; and SEQCLR. -/
theorem witness_sync_pieces :
    (∀ f : Frame, ∃ (s : State) (t : Machine.Task), s.par.ok = true ∧ TicketsFresh s ∧ t ∈ s.host.tasks ∧ t.handler = .init
        ∧ t.acts = .syncAnswer :: [.seqClr, .session .synced, .rst] ∧ t.got = some f)
      ∧ (∃ d, decodeFrame Params.default [0x5A, 0, 0x5A, 0] = .ok d)
      ∧ (∃ d, decodeFrame Params.default [0x5A, 0, 0x5A, 1] = .ok d)
      ∧ decodeFrame Params.default [0x5A, 0, 0x5A] = .error (.short 3 4)
      ∧ (∃ (s : State) (t : Machine.Task), TicketsFresh s ∧ t ∈ s.host.tasks
        ∧ t.acts = .seqClr :: .session .synced :: [.rst]) :=
  ⟨fun f => ⟨_, { task [.syncAnswer, .seqClr, .session .synced, .rst] (some f) with handler := .init },
      witness_default_parameters, ticketsFresh_pending _ rfl State.reset, List.mem_singleton.2 rfl, rfl, rfl, rfl⟩,
    ⟨_, rfl⟩, ⟨_, rfl⟩, rfl,
    ⟨_, task [.seqClr, .session .synced, .rst] none, ticketsFresh_pending _ rfl State.reset, List.mem_singleton.2 rfl, rfl⟩⟩

theorem witness_NoAnswerIsATimeout :
    (∃ (s : State) (t : Machine.Task), TicketsFresh s ∧ t ∈ s.host.tasks ∧ t.handler = .surface ∧ t.got = none
        ∧ t.acts = .answer 2 :: [])
      ∧ (∃ (s : State) (t : Machine.Task), TicketsFresh s ∧ t ∈ s.host.tasks ∧ t.handler = .transition .unsynced
        ∧ t.got = none ∧ t.acts = .syncAnswer :: []) :=
  ⟨⟨_, task [.answer 2] none, ticketsFresh_pending _ rfl State.reset, List.mem_singleton.2 rfl, rfl, rfl, rfl⟩,
    ⟨_, { task [.syncAnswer] none with handler := .transition .unsynced }, ticketsFresh_pending _ rfl State.reset,
      List.mem_singleton.2 rfl, rfl, rfl, rfl⟩⟩

/-- A piece that fails under each handler: an answer that does not come, inside an exchange, a channelClose, a shutdown, its
second half and a construct; a configuration that cannot be sent; and a shutdown whose answer is positive. -/
theorem witness_ShutdownGoesOnAndConstructAborts :
    (∀ h ∈ ([.surface, .transition .deviceOpen, .closeChannel, .shutdown, .closePort, .init] : List Handler),
      ∃ (s u : State) (t : Machine.Task) (a : Act) (rest : List Act) (e : HostError), TicketsFresh s ∧ t ∈ s.host.tasks
        ∧ t.acts = a :: rest ∧ runAct a t s = .fail e u ∧ t.handler = h)
      ∧ (∃ (s : State) (t : Machine.Task), TicketsFresh s ∧ t ∈ s.host.tasks
        ∧ t.acts = .fail .unimplemented :: [.session .configured] ∧ t.handler = .init)
      ∧ ∃ (s : State) (t : Machine.Task) (d : Decoded), TicketsFresh s ∧ t ∈ s.host.tasks
        ∧ t.acts = [.answer 5, .session .channelClosed, .closing, .stop, .session .portClosed]
        ∧ t.got = some [0x85, 1, 0, 0] ∧ decodeFrame s.par [0x85, 1, 0, 0] = .ok d ∧ d.command.toNat = 5
        ∧ d.isPositiveAnswer = true :=
  ⟨fun h _ => ⟨_, _, { task [.answer 5] none with handler := h }, .answer 5, [], .timeout,
      ticketsFresh_pending _ rfl State.reset, List.mem_singleton.2 rfl, rfl, rfl, rfl⟩,
    ⟨_, { task [.fail .unimplemented, .session .configured] none with handler := .init },
      ticketsFresh_pending _ rfl State.reset, List.mem_singleton.2 rfl, rfl, rfl⟩,
    ⟨_, task [.answer 5, .session .channelClosed, .closing, .stop, .session .portClosed] (some [0x85, 1, 0, 0]), _,
      ticketsFresh_pending _ rfl State.reset, List.mem_singleton.2 rfl, rfl, rfl, rfl, by decide, by decide⟩⟩

/-- For the statements about every step: a step of the reader, a byte that starts a frame, and RST. -/
theorem witness_steps :
    (Inv State.reset ∧ TicketsFresh State.reset ∧ State.reset.detached = none ∧ State.reset.par.headersFit = true)
      ∧ (∃ t, step State.reset = .next t) ∧ (∃ t, step (State.reset.withFetchWord 8 0x40) = .next t)
      ∧ (∃ t, step { State.reset with script := [.issue (.call .rst)] } = .next t) :=
  ⟨⟨reset_inv, ticketsFresh_none rfl, rfl, witness_default_headers_and_body.1⟩, ⟨_, rfl⟩, ⟨_, rfl⟩, ⟨_, rfl⟩⟩

/-- For the session that is never usable: a state with such a session and an operation pending that begins none. -/
theorem witness_OnlyRstRevives :
    ∃ s t : State, step s = .next t ∧ SessionsBegun s ∧ s.host.session.phase = .failed ∧ s.host.tasks ≠ [] :=
  ⟨{ pendingState (task [.seqClr, .session .synced] none) State.reset with
      host.session.phase := .failed, script := [.resume 0] }, _, rfl,
    by intro t ht; rw [List.mem_singleton.1 ht]; decide, rfl, by simp [pendingState]⟩

/-- Turns that are a reset: RST, a construct, and a construct's first piece. And one that is none. -/
theorem witness_ResetTurn :
    ResetTurn { State.reset with script := [.issue (.call .rst)] }
      ∧ ResetTurn { State.reset with script := [.issue (.call (.construct ⟨some 500000, none, none, []⟩))] }
      ∧ ResetTurn { pendingState (task [.rst, .session .begin] none) State.reset with script := [.resume 0] }
      ∧ ¬ResetTurn State.reset ∧ ¬ResetTurn { State.reset with script := [.issue (.rx 0x40)] } := by
  refine ⟨.inl rfl, .inr ⟨_, rfl⟩, ⟨_, List.mem_singleton.2 rfl, rfl, rfl⟩, id, ?_⟩
  rintro (h | ⟨c, h⟩) <;> exact absurd h (by simp [decode, classOf, Params.default, State.reset])

/-- A row of its own, and a piece of an operation in progress that is no RST. -/
theorem witness_HostOperationsLeaveTheFramer :
    (∃ t, exec .seqClr State.reset = .next t)
      ∧ ∀ t ∈ (pendingState (task [.wr] none) State.reset).host.tasks, t.ticket = 0 → t.acts.head? ≠ some .rst :=
  ⟨⟨_, rfl⟩, by decide⟩

/-- Whatever is left of an operation after its answer, at its end or in the middle of a construct, with the answer's frame
positive. -/
theorem witness_PositiveAnswersWriteTheSession :
    ∀ (rest : List Act) (h : Handler),
      ∃ (s : State) (t : Machine.Task) (d : Decoded), TicketsFresh s ∧ t ∈ s.host.tasks ∧ t.got = some [0x82, 1, 0, 0]
        ∧ decodeFrame s.par [0x82, 1, 0, 0] = .ok d ∧ d.command.toNat = 2 ∧ d.isPositiveAnswer = true
        ∧ t.acts = .answer 2 :: rest ∧ t.handler = h :=
  fun rest h =>
    ⟨_, { task (.answer 2 :: rest) (some [0x82, 1, 0, 0]) with handler := h }, _, ticketsFresh_pending _ rfl State.reset,
      List.mem_singleton.2 rfl, rfl, rfl, show (decF4Row Params.default [0x82, 1, 0, 0]).command.toNat = 2 by decide,
      show (decF4Row Params.default [0x82, 1, 0, 0]).isPositiveAnswer = true by decide, rfl, rfl⟩

end Sys2Proof.Tests
end

section
/-!
PROOFS. One step, by the turn that the script presents (R17): the turn is used up and its one action is made.
-/

namespace Sys2Proof.Machine

open Sys2Proof

theorem fetchTurn_nil {s : State} (h : s.script = []) : fetchTurn s = .reader := by
  simp only [fetchTurn, h]

theorem fetchTurn_resume {s : State} {ticket : Nat} {rest : List Turn} (h : s.script = .resume ticket :: rest) :
    fetchTurn s = .resume ticket := by
  simp only [fetchTurn, h]

theorem fetchTurn_issue {s : State} {p : Packet} {rest : List Turn} (h : s.script = .issue p :: rest) :
    fetchTurn s = .packet p := by
  simp only [fetchTurn, h]

theorem dropTurn_of_cons {s : State} {u : Turn} {rest : List Turn} (h : s.script = u :: rest) :
    dropTurn s = { s with script := rest } := by
  rw [dropTurn, h, List.tail_cons]

/-- Presenting a turn and using it up again does nothing else to the state. -/
@[simp] theorem dropTurn_presentTurn (u : Turn) (s : State) : dropTurn (presentTurn u s) = s := rfl

theorem fetchTurn_withFetchWord (s : State) (nbits w : Nat) :
    fetchTurn (s.withFetchWord nbits w) = .packet (packetOfWord s.par nbits w) := rfl

/-- The reader's micro-step, where no turn is left. -/
theorem step_of_reader {s : State} (hok : s.par.ok = true) (h : fetchTurn s = .reader) :
    step s = .next (readerTurn s) := by
  rw [step_eq, if_pos hok, h]

theorem step_of_resume {s : State} {ticket : Nat} (hok : s.par.ok = true) (h : fetchTurn s = .resume ticket) :
    step s = .next (resumeTask ticket (dropTurn s)) := by
  rw [step_eq, if_pos hok, h]

theorem step_of_packet {s : State} {p : Packet} (hok : s.par.ok = true) (h : fetchTurn s = .packet p) :
    step s = exec (decode s.par p) (dropTurn s) := by
  rw [step_eq, if_pos hok, h]

/-- A row's bits put at the next turn are run from the state as it was. -/
theorem step_withFetchWord {s : State} (hok : s.par.ok = true) (nbits w : Nat) :
    step (s.withFetchWord nbits w) = exec (decode s.par (packetOfWord s.par nbits w)) s :=
  step_of_packet (s := s.withFetchWord nbits w) hok (fetchTurn_withFetchWord s nbits w)

/-- Settles O4, by the kind of the next turn: a presented packet, a row's bits, a resumed operation, or none. -/
theorem stepRunsTheDecodedInstruction : Obligations.StepRunsTheDecodedInstruction := by
  unfold Obligations.StepRunsTheDecodedInstruction
  intro s i hok
  refine ⟨?packet, ?word, ?resume, ?reader⟩
  case packet =>
    intro p rest hscript hdecode
    rw [step_of_packet hok (fetchTurn_issue hscript), hdecode, dropTurn_of_cons hscript]
  case word =>
    intro nbits w hdecode
    rw [step_withFetchWord hok, hdecode]
  case resume =>
    intro ticket rest hscript
    rw [step_of_resume hok (fetchTurn_resume hscript), dropTurn_of_cons hscript]
  case reader =>
    intro hscript
    exact step_of_reader hok (fetchTurn_nil hscript)

end Sys2Proof.Machine
end

section
/-!
PROOFS. The state after reset (R39, R310): every engine that RST leaves meets the invariants of R40; the two host rows that touch
`SEQ_TX` alone or nothing (R32, R116).
-/

namespace Sys2Proof.Machine

open Sys2Proof Sys2Proof.Safety

/-- An engine that has just been reset meets the invariants of R40, whatever `HLEN` and `TOTAL` hold (log 10). -/
theorem engineInv_of_justReset (p : Params) {e : Engine} (h : JustReset e) : EngineInv p e := by
  rw [JustReset] at h
  rw [h]
  exact
    { count := rfl, bound := Nat.zero_le _, start := nofun, header := nofun, payload := nofun
      cqBound := Nat.zero_le _, mqBound := Nat.zero_le _, cqFrames := nofun, mqFrames := nofun
      noLenWarn := rfl, closedStopped := nofun, fatalStopped := nofun, inflightRuns := nofun }

theorem justReset_resetEngine (s : State) : JustReset (resetEngine s).eng := rfl

/-- Where nothing is pending, the numbers of pending operations are distinct. -/
theorem ticketsFresh_of_tasks_nil {s : State} (h : s.host.tasks = []) : TicketsFresh s := by
  simp [TicketsFresh, h]

/-- Where nothing is pending, no pending operation has still to begin a session. -/
theorem sessionsBegun_of_tasks_nil {s : State} (h : s.host.tasks = []) : SessionsBegun s := by
  simp [SessionsBegun, h]

/-- Settles O13: both rows are done at once, SEQCLR after its one write. -/
theorem seqClrAndStatus : Obligations.SeqClrAndStatus := by
  unfold Obligations.SeqClrAndStatus
  intro s
  constructor
  · show Host.Outcome.next (hostReturn .ok (clearSeq s)) = _
    rw [hostReturn_eq, clearSeq]
  · show Host.Outcome.next (hostReturn (.snapshot (snapshot s)) s) = _
    rw [hostReturn_eq, snapshot]

/-- Settles O40: RST is the reset of the engine and then the result `ok`, which touches the host's side only. -/
theorem rstResetsTheEngine : Obligations.RstResetsTheEngine := by
  unfold Obligations.RstResetsTheEngine
  intro s _ htasks
  have hhost := hostOnly_returned .ok (resetEngine s)
  refine ⟨returned .ok (resetEngine s), rfl, ?_, hhost.ch, hhost.par, hhost.script, hhost.trace, hhost.detached, rfl,
    htasks, rfl⟩
  rw [hhost.eng]
  exact justReset_resetEngine s

/-- Settles O51: the engine is as after RST, and nothing is detached or pending. -/
theorem resetMeetsTheInvariant : Obligations.ResetMeetsTheInvariant := by
  unfold Obligations.ResetMeetsTheInvariant
  exact ⟨⟨engineInv_of_justReset _ rfl, rfl⟩, ticketsFresh_of_tasks_nil rfl, sessionsBegun_of_tasks_nil rfl⟩

end Sys2Proof.Machine
end

section
/-!
PROOFS. What the reader's steps write, in every state (R160 to R173, R194): the laws of the framer that need no invariant.
-/

namespace Sys2Proof.Machine

open Sys2Proof Sys2Proof.Safety

/-- The state with one byte more counted, nothing completed: `ACC`, `HLEN` and `TOTAL` as the step leaves them. -/
def counted (acc : List Byte) (hlen total : Nat) (s : State) : State :=
  { s with eng.acc := acc, eng.cnt := s.eng.cnt + 1, eng.hlen := hlen, eng.total := total }

/-- The length check writes `LENWARN` and the trace only (R177). -/
theorem lengthCheck_eq (f : Frame) (s : State) :
    ∃ n trace, lengthCheck f s = { s with eng.lenWarn := n, trace := trace } := by
  unfold lengthCheck
  split_ifs
  · exact ⟨_, _, rfl⟩
  · exact ⟨_, _, rfl⟩
  · exact ⟨_, _, rfl⟩

/-- RX.COMPLETE of whatever is buffered (R173): the accumulator is emptied and the frame arrives. -/
theorem completeFrame_eq (s : State) :
    ∃ f n trace, completeFrame s =
      { s with
        eng := arrive s.par f { s.eng with acc := [], cnt := 0, lenWarn := n }, trace := trace, detached := none } := by
  obtain ⟨n, trace, hl⟩ := lengthCheck_eq (s.eng.acc.take s.eng.cnt) (detach s)
  have hc : completeFrame s =
      pushDetached (emit (.rx (s.eng.acc.take s.eng.cnt)) (lengthCheck (s.eng.acc.take s.eng.cnt) (detach s))) := rfl
  rw [hc, hl]
  exact ⟨_, n, _, pushFrame_eq _ _⟩

/-- A byte is discarded, or counted; where it completes a frame, RX.COMPLETE follows at once (R161, R165 to R172). -/
theorem byteStep_eq (b : Byte) (s : State) :
    byteStep b s = s ∨ ∃ acc hlen total,
      byteStep b s = counted acc hlen total s ∨ byteStep b s = completeFrame (counted acc hlen total s) := by
  have whole : ∀ acc hlen total, completeIfWhole (counted acc hlen total s) = counted acc hlen total s
      ∨ completeIfWhole (counted acc hlen total s) = completeFrame (counted acc hlen total s) := by
    intro acc hlen total
    unfold completeIfWhole
    split_ifs
    · exact .inr rfl
    · exact .inl rfl
  unfold byteStep
  split_ifs with h0 hb hh hl hm hs
  · exact .inl rfl
  · refine .inr ⟨[b], hlenOf s.par b, hlenOf s.par b, .inl ?_⟩
    rw [first, counted, h0]
  · exact .inr ⟨_, _, _, .inl rfl⟩
  · exact .inr ⟨_, _, _, .inr rfl⟩
  · exact .inr ⟨_, _, _, whole _ _ _⟩
  · exact .inr ⟨_, _, _, whole _ _ _⟩
  · exact .inr ⟨_, _, _, whole _ _ _⟩

/-- All that the reader writes of what others read (R64): `SEQ_TX`, `STOP_REQ`, the port and the host's side stay; `RUN` is only
cleared and `FATAL` only set; a drop counter advances by at most one; `CNT` advances only with a byte read. -/
structure ReaderWrites (s t : State) : Prop where
  par : t.par = s.par
  host : t.host = s.host
  seqTx : t.eng.seqTx = s.eng.seqTx
  stopReq : t.eng.stopReq = s.eng.stopReq
  portOpen : t.eng.portOpen = s.eng.portOpen
  run : s.eng.run = false → t.eng.run = false
  fatal : s.eng.fatal = true → t.eng.fatal = true
  dropC : t.eng.dropC = s.eng.dropC ∨ t.eng.dropC = s.eng.dropC + 1
  dropM : t.eng.dropM = s.eng.dropM ∨ t.eng.dropM = s.eng.dropM + 1
  cnt : t.eng.cnt = s.eng.cnt ∨ t.eng.cnt = 0 ∨ (t.eng.cnt = s.eng.cnt + 1 ∧ ∃ b, t.ch.rxStream = s.ch.rxStream ++ [b])

theorem ReaderWrites.refl (s : State) : ReaderWrites s s :=
  ⟨rfl, rfl, rfl, rfl, rfl, id, id, .inl rfl, .inl rfl, .inl rfl⟩

/-- An arrival advances at most one drop counter, by one (R194). -/
theorem arrive_drops (p : Params) (f : Frame) (e : Engine) :
    ((arrive p f e).dropC = e.dropC ∨ (arrive p f e).dropC = e.dropC + 1)
      ∧ ((arrive p f e).dropM = e.dropM ∨ (arrive p f e).dropM = e.dropM + 1) := by
  obtain ⟨-, -, h⟩ | ⟨-, -, h⟩ | ⟨-, -, h⟩ | ⟨-, -, h⟩ := arrive_cases p f e <;> rw [h]
  · exact ⟨.inl rfl, .inl rfl⟩
  · exact ⟨.inl rfl, .inr rfl⟩
  · exact ⟨.inl rfl, .inl rfl⟩
  · exact ⟨.inr rfl, .inl rfl⟩

theorem completeFrame_cnt (s : State) : (completeFrame s).eng.cnt = 0 := by
  obtain ⟨f, n, trace, h⟩ := completeFrame_eq s
  rw [h]
  exact (arrive_frame _ _ _).2.1

theorem completeFrame_writes (s : State) : ReaderWrites s (completeFrame s) := by
  have hcnt := completeFrame_cnt s
  obtain ⟨f, n, trace, h⟩ := completeFrame_eq s
  obtain ⟨-, -, -, -, hseq, hrun, hstop, hfatal, hport, -, -⟩ :=
    arrive_frame s.par f { s.eng with acc := [], cnt := 0, lenWarn := n }
  obtain ⟨hdropC, hdropM⟩ := arrive_drops s.par f { s.eng with acc := [], cnt := 0, lenWarn := n }
  rw [h] at hcnt ⊢
  exact ⟨rfl, rfl, hseq, hstop, hport, hrun.trans, hfatal.trans, hdropC, hdropM, .inr (.inl hcnt)⟩

theorem pushFrame_writes (f : Frame) (s : State) : ReaderWrites s (pushFrame f { s with detached := none }) := by
  obtain ⟨-, hcnt, -, -, hseq, hrun, hstop, hfatal, hport, -, -⟩ := arrive_frame s.par f s.eng
  obtain ⟨hdropC, hdropM⟩ := arrive_drops s.par f s.eng
  rw [pushFrame_eq]
  exact ⟨rfl, rfl, hseq, hstop, hport, hrun.trans, hfatal.trans, hdropC, hdropM, .inl hcnt⟩

/-- A byte that is read and then discarded, counted, or counted and followed by RX.COMPLETE. -/
theorem byteStep_writes (b : Byte) (s : State) : ReaderWrites s (byteStep b (takeByte b s)) := by
  obtain h | ⟨acc, hlen, total, h | h⟩ := byteStep_eq b (takeByte b s)
  · rw [h]
    exact ⟨rfl, rfl, rfl, rfl, rfl, id, id, .inl rfl, .inl rfl, .inl rfl⟩
  · rw [h]
    exact ⟨rfl, rfl, rfl, rfl, rfl, id, id, .inl rfl, .inl rfl, .inr (.inr ⟨rfl, b, rfl⟩)⟩
  · rw [h]
    have hw := completeFrame_writes (counted acc hlen total (takeByte b s))
    exact { hw with cnt := .inr (.inl (completeFrame_cnt _)) }

theorem ReaderMove.writes {s t : State} (h : ReaderMove s t) : ReaderWrites s t := by
  have hs := ReaderWrites.refl s
  cases h with
  | stay => exact hs
  | arm _ => exact { hs with }
  | stopChk _ _ _ => exact { hs with run := fun _ => rfl }
  | idle => exact { hs with }
  | readError _ => exact { hs with run := fun _ => rfl, fatal := fun _ => rfl }
  | byte b _ _ => exact byteStep_writes b s

theorem Delivery.writes {s t : State} (h : Delivery s t) : ReaderWrites s t := by
  cases h with
  | complete _ => exact completeFrame_writes s
  | push f _ => exact pushFrame_writes f s

/-- What one step can do in every state: a host operation's move, RST in a turn that is a reset, or the reader's writes. -/
theorem step_writes {s t : State} (h : step s = .next t) :
    (∃ script fresh, HostMove (turned script fresh s) t) ∨ (ResetTurn s ∧ JustReset t.eng ∧ t.par = s.par)
      ∨ ReaderWrites s t := by
  obtain ⟨-, script, fresh, hm | ⟨hm, hr⟩ | hm | hm⟩ := step_move h
  · exact .inl ⟨script, fresh, hm⟩
  · exact .inr (.inl ⟨hr, hm.eng, hm.par⟩)
  · exact .inr (.inr { hm.writes with })
  · exact .inr (.inr { hm.writes with })

/-- What a host operation's move leaves of the reader's registers, by name. -/
theorem HostMove.framer {s t : State} (h : HostMove s t) :
    t.eng.cnt = s.eng.cnt ∧ t.eng.dropC = s.eng.dropC ∧ t.eng.dropM = s.eng.dropM ∧ t.eng.run = s.eng.run
      ∧ t.eng.fatal = s.eng.fatal := by
  rw [h.eng]
  exact ⟨rfl, rfl, rfl, rfl, rfl⟩

/-- A closed port stays closed under a host operation's move. -/
theorem HostMove.port_closed {s t : State} (h : HostMove s t) (hc : s.eng.portOpen = false) : t.eng.portOpen = false :=
  h.port.elim (·.trans hc) (·.1)

/-- Settles O56, by what one step can do: a host operation's move, RST, or the reader's writes. -/
theorem countersMoveAsStated : Obligations.CountersMoveAsStated := by
  unfold Obligations.CountersMoveAsStated
  intro s t hstep
  obtain ⟨script, fresh, hm⟩ | ⟨hturn, hreset, hpar⟩ | hw := step_writes hstep
  · obtain ⟨-, hdropC, hdropM, -, -⟩ := hm.framer
    exact ⟨hm.par, hm.seqTx, .inr ⟨.inl hdropC, .inl hdropM⟩⟩
  · have hseq : t.eng.seqTx = 0 := by rw [hreset]; rfl
    exact ⟨hpar, .inr (.inr hseq), .inl ⟨hturn, hreset⟩⟩
  · exact ⟨hw.par, .inl hw.seqTx, .inr ⟨hw.dropC, hw.dropM⟩⟩

/-- Settles O57, by what one step can do: a host operation's move, RST, or the reader's writes. -/
theorem countAdvancesByOneByte : Obligations.CountAdvancesByOneByte := by
  unfold Obligations.CountAdvancesByOneByte
  intro s t hstep
  obtain ⟨script, fresh, hm⟩ | ⟨-, hreset, -⟩ | hw := step_writes hstep
  · obtain ⟨hcnt, -, -, -, -⟩ := hm.framer
    exact .inl hcnt
  · have hcnt : t.eng.cnt = 0 := by rw [hreset]; rfl
    exact .inr (.inl hcnt)
  · exact hw.cnt

end Sys2Proof.Machine
end

section
/-!
PROOFS. The invariants of R40, kept by each move that a step can make: a host operation's, RST, the reader's, a delivery.
-/

namespace Sys2Proof.Machine

open Sys2Proof Sys2Proof.Safety

/-- A step that ends the read in flight, and else writes the framer's registers only, keeps the whole invariant when it keeps the
framer's part of it. -/
theorem engineInv_of_framerInv {p : Params} {e e' : Engine} (hw : p.Headers) (h : EngineInv p e) (hf : FramerInv p e')
    (heq : e' = { e with acc := e'.acc, cnt := e'.cnt, hlen := e'.hlen, total := e'.total, inflight := false }) :
    EngineInv p e' := by
  have hbound := framerInv_bound hw hf
  obtain ⟨hcount, hstart, hheader, hpayload⟩ := hf
  generalize e'.acc = acc, e'.cnt = cnt, e'.hlen = hlen, e'.total = total at *
  subst heq
  exact
    { h with
      count := hcount, bound := hbound, start := hstart, header := hheader, payload := hpayload, inflightRuns := nofun }

/-- A host operation's move takes frames from the queues and adds none. -/
theorem HostMove.queue_sub {s t : State} (h : HostMove s t) :
    (t.eng.cq.length ≤ s.eng.cq.length ∧ ∀ f ∈ t.eng.cq, f ∈ s.eng.cq)
      ∧ (t.eng.mq.length ≤ s.eng.mq.length ∧ ∀ f ∈ t.eng.mq, f ∈ s.eng.mq) := by
  obtain ⟨hc, hm⟩ | ⟨hc, f, hm⟩ | ⟨hm, f, hc⟩ := h.queues <;> rw [hc, hm] <;> simp +contextual

/-- A host operation's move keeps the invariant: it takes frames, sets `STOP_REQ`, and closes the port of a stopped reader. -/
theorem HostMove.inv {s t : State} (h : HostMove s t) (hi : Inv s) : Inv t := by
  obtain ⟨⟨hcl, hcm⟩, hml, hmm⟩ := h.queue_sub
  obtain ⟨he, hd⟩ := hi
  refine ⟨?_, h.detached.trans hd⟩
  have hport : t.eng.portOpen = false → s.eng.run = false := fun hc =>
    h.port.elim (fun e => he.closedStopped (e ▸ hc)) (·.2)
  rw [h.par, h.eng]
  exact
    { he with
      cqBound := hcl.trans he.cqBound, mqBound := hml.trans he.mqBound
      cqFrames := fun f hf => he.cqFrames f (hcm f hf), mqFrames := fun f hf => he.mqFrames f (hmm f hf)
      closedStopped := hport }

theorem RstMove.inv {s t : State} (h : RstMove s t) : Inv t :=
  ⟨engineInv_of_justReset _ h.eng, h.detached⟩

/-- Reading a byte ends the read in flight and touches no register of R40 besides. -/
theorem takeByte_inv (b : Byte) {s : State} (hi : Inv s) : Inv (takeByte b s) :=
  ⟨{ hi.engine with inflightRuns := nofun }, hi.noDetached⟩

/-- The invariant with an empty accumulator, on which a whole frame's arrival rests. -/
theorem engineInv_emptied {p : Params} {e : Engine} (h : EngineInv p e) (total : Nat) :
    EngineInv p { e with acc := [], cnt := 0, total := total } :=
  { h with count := rfl, bound := Nat.zero_le _, start := nofun, header := nofun, payload := nofun }

/-- A byte keeps the invariant whatever it does (R161): it is skipped, buffered, or makes a whole frame. -/
theorem byteStep_inv {b : Byte} {s : State} (hp : s.par.Facts) (hw : s.par.Headers) (hi : Inv s)
    (hq : s.eng.inflight = false) : Inv (byteStep b s) := by
  obtain ⟨he, hd⟩ := hi
  obtain ⟨-, -, h⟩ | ⟨total, -, h, hf⟩ | ⟨h0, -, hl, h⟩ := byteStep_cases (b := b) hw (framerInv_of_engineInv he)
  · rw [h]
    exact ⟨he, hd⟩
  · rw [h]
    refine ⟨engineInv_of_framerInv hw he hf ?_, hd⟩
    rw [bufferedAt, ← hq]
  · rw [h]
    exact ⟨arrive_inv hp (engineInv_emptied he _) h0 hl, rfl⟩

theorem ReaderMove.inv {s t : State} (hp : s.par.Facts) (hw : s.par.Headers) (h : ReaderMove s t) (hi : Inv s) : Inv t := by
  obtain ⟨he, hd⟩ := hi
  cases h with
  | stay => exact ⟨he, hd⟩
  | arm hrun => exact ⟨{ he with inflightRuns := fun _ => hrun }, hd⟩
  | stopChk _ hidle _ =>
    exact ⟨{ he with
      closedStopped := fun _ => rfl, fatalStopped := fun _ => rfl
      inflightRuns := fun hf => absurd (hidle.symm.trans hf) (by simp) }, hd⟩
  | idle => exact ⟨{ he with inflightRuns := nofun }, hd⟩
  | readError _ =>
    exact ⟨{ he with closedStopped := fun _ => rfl, fatalStopped := fun _ => rfl, inflightRuns := nofun }, hd⟩
  | byte b _ _ => exact byteStep_inv (s := takeByte b s) hp hw (takeByte_inv b ⟨he, hd⟩) rfl

/-- Between steps no frame is complete and none is detached, so none is delivered (R25, R173, log 18). -/
theorem not_delivery_of_inv {s t : State} (hi : Inv s) : ¬Delivery s t := by
  rintro (hc | ⟨f, hf⟩)
  · simp only [atComplete, Bool.and_eq_true, decide_eq_true_eq] at hc
    obtain ⟨⟨⟨-, hpos⟩, hheader⟩, htotal⟩ := hc
    have := (hi.engine.payload hpos hheader).2
    omega
  · exact absurd (hi.noDetached.symm.trans hf) (by simp)

theorem turned_inv {s : State} (hi : Inv s) (script : List Turn) (fresh : Nat) : Inv (turned script fresh s) :=
  ⟨hi.engine, hi.noDetached⟩

/-- Settles O52, by the move that the step makes: a host operation's, RST, or the reader's; a delivery cannot be. -/
theorem everyStepKeepsTheInvariant : Obligations.EveryStepKeepsTheInvariant := by
  unfold Obligations.EveryStepKeepsTheInvariant
  intro s t hfit hi hstep
  obtain ⟨hp, script, fresh, hm | ⟨hm, -⟩ | hm | hm⟩ := step_move hstep
  · exact hm.inv (turned_inv hi script fresh)
  · exact hm.inv
  · exact hm.inv (s := turned script fresh s) hp (Params.headers hfit) (turned_inv hi script fresh)
  · exact absurd hm (not_delivery_of_inv (turned_inv hi script fresh))

end Sys2Proof.Machine
end

section
/-!
PROOFS. What one instruction, and one step, does to the host's side: nothing, one result at once, or a host operation that begins
or goes on. Only a construct begins a new session (R229, R231), and no step reuses a number (log 29).
-/

namespace Sys2Proof.Machine

open Sys2Proof Sys2Proof.Safety

/-- What an instruction does to the host's side; `u` is the state before the host's side is written. -/
inductive HostEffect (i : Instr) (s : State) : State → Prop where
  | none {t : State} : t.host = s.host → HostEffect i s t
  | returned (v : Value) (u : State) : u.host = s.host → HostEffect i s (returned v u)
  | task (acts : List Act) (handler : Handler) (u : State) : u.host = s.host → Act.session .begin ∉ acts →
      HostEffect i s (beginTask acts handler u)
  | construct (c : BusConfig) : i = .construct c → HostEffect i s (beginTask (constructActs s.par c) .init s)

/-! ### The pieces that begin no session -/

theorem begin_notMem_xchgActs (p : Params) (command flags length : Nat) (payload : List Byte) :
    Act.session .begin ∉ xchgActs p command flags length payload := by
  simp [xchgActs]

theorem begin_notMem_setBitrateActs (p : Params) (bps : Nat) : Act.session .begin ∉ setBitrateActs p bps := by
  unfold setBitrateActs
  split
  · simp [begin_notMem_xchgActs]
  · simp

theorem begin_notMem_setModeActs (p : Params) (mode : ModeArg) : Act.session .begin ∉ setModeActs p mode := by
  cases mode with
  | mode m => simp [setModeActs, begin_notMem_xchgActs]
  | other _ => simp [setModeActs]

theorem begin_notMem_filtersActs (p : Params) (i : Nat) (filters : List Filter) :
    Act.session .begin ∉ filtersActs p i filters := by
  induction filters generalizing i with
  | nil => simp [filtersActs]
  | cons f rest ih => simp [filtersActs, setFilterActs, begin_notMem_xchgActs, ih]

theorem begin_notMem_rateActs (p : Params) (c : BusConfig) : Act.session .begin ∉ rateActs p c := by
  unfold rateActs
  split
  · exact begin_notMem_setBitrateActs p _
  · simp
  · simp

theorem begin_notMem_modeActs (p : Params) (c : BusConfig) : Act.session .begin ∉ modeActs p c := by
  unfold modeActs
  split
  · exact begin_notMem_setModeActs p _
  · simp

/-- A construct is refused at once, or begins with RST and its new session, and begins no other (R228, R229). -/
theorem constructActs_cases (p : Params) (c : BusConfig) :
    constructActs p c = [.fail .bitrateAndBtr]
      ∨ ∃ rest, constructActs p c = .rst :: .session .begin :: rest ∧ Act.session .begin ∉ rest := by
  unfold constructActs
  split_ifs
  · exact .inl rfl
  · refine .inr ⟨_, rfl, ?_⟩
    simp [syncActs, deviceOpenActs, channelOpenActs, begin_notMem_xchgActs, begin_notMem_rateActs, begin_notMem_modeActs,
      begin_notMem_filtersActs]

/-! ### The host's side under one instruction -/

theorem hostEnc_effect (i : Instr) (command flags length : Nat) (payload : List Byte) (s : State) :
    HostEffect i s (hostEnc command flags length payload s) := by
  unfold hostEnc
  split
  · exact .returned (.bytes _) { s with eng.seqTx := _ } rfl
  · exact .returned _ _ rfl

theorem hostDec_effect (i : Instr) (raw : List Byte) (s : State) : HostEffect i s (hostDec raw s) := by
  unfold hostDec
  split
  · exact .returned _ _ rfl
  · exact .returned _ _ rfl

theorem completeIfWhole_host (s : State) : (completeIfWhole s).host = s.host := by
  unfold completeIfWhole
  split_ifs
  · exact (completeFrame_writes s).host
  · rfl

theorem pushDetached_host (s : State) : (pushDetached s).host = s.host := by
  unfold pushDetached
  split
  · exact (pushFrame_writes _ s).host
  · rfl

/-- The host's side under one instruction: the reader's rows leave it, the transport's and the codec's rows hand over a result,
the others begin an operation. -/
theorem exec_hostEffect {i : Instr} {s t : State} (h : exec i s = .next t) : HostEffect i s t := by
  have offered : ∀ b, Host.Outcome.next (offerByte b s) = (.next t : Result) → HostEffect i s t := by
    intro b hb
    obtain rfl := Host.Outcome.next.inj hb
    exact .none (offerByte_move b s).writes.host
  have row : ∀ {enabled : Bool} {u : State}, whenEnabled enabled u s = .next t → u.host = s.host → HostEffect i s t := by
    intro enabled u hw hu
    obtain ⟨-, rfl⟩ | ⟨-, rfl⟩ := whenEnabled_next hw
    · exact .none hu
    · exact .none rfl
  have outcome : ∀ {u : State}, Host.Outcome.next u = (.next t : Result) → HostEffect i s u → HostEffect i s t := by
    intro u hu he
    exact Host.Outcome.next.inj hu ▸ he
  have task : ∀ {acts : List Act} {handler : Handler} {u : State},
      Host.Outcome.next (beginTask acts handler u) = (.next t : Result) → u.host = s.host → Act.session .begin ∉ acts →
      HostEffect i s t :=
    fun ht hu hb => outcome ht (.task _ _ _ hu hb)
  cases i <;> simp only [exec] at h
  case byteZero | byteMessage | byteSyncAnswer | byteSync | byteError | byteCtrl | byteCtrlAck => exact offered _ h
  case encSync | encCtrl | encMsg | encBadCommand | encBadField => exact outcome h (hostEnc_effect _ _ _ _ _ s)
  case decEmpty | decZeroStart | decShort | decFs | decF4 | decF6 | decBodyShort => exact outcome h (hostDec_effect _ _ s)
  case seqClr => exact outcome h (.returned .ok (clearSeq s) rfl)
  case status => exact outcome h (.returned _ s rfl)
  case rst => exact outcome h (.returned .ok (resetEngine s) rfl)
  case wr raw =>
    have hhost := (writeFlush_move raw s).2.2
    unfold execWr at h
    split at h <;> rename_i e <;> rw [e] at hhost
    · exact outcome h (.returned _ _ hhost)
    · exact outcome h (.returned _ _ hhost)
  case rxArm | rxStopChk | rxIdle | rxErr | rxSkip0 | rxFirst | rxHdr => exact row h rfl
  case rxLen4 | rxLen6 | rxPay => exact row h (completeIfWhole_host _)
  case rxLenSync => exact row h (completeFrame_writes _).host
  case rxComplete => exact row h (completeFrame_writes s).host
  case push => exact row h (pushDetached_host s)
  case construct c => exact outcome h (.construct c rfl)
  case setBitrate bps => exact task h rfl (by simp [begin_notMem_setBitrateActs])
  case setMode mode => exact task h rfl (begin_notMem_setModeActs s.par mode)
  case send => exact task h rfl (by simp [sendActs])
  case popc | popm | stop | xchg | sync | deviceOpen | deviceClose | setFilter | channelOpen | channelClose
      | setBitrateFromRegister | shutdown | recv =>
    exact task h rfl (by
      simp [xchgActs, syncActs, deviceOpenActs, deviceCloseActs, setFilterActs, channelOpenActs, channelCloseActs, shutdownActs])

/-! ### The numbers of pending operations -/

theorem ticketsFresh_of_host {s t : State} (h : t.host = s.host) (hf : TicketsFresh s) : TicketsFresh t := by
  rw [TicketsFresh, h]
  exact hf

theorem ticketsFresh_nextTicket {s : State} (hf : TicketsFresh s) : TicketsFresh (nextTicket s) :=
  ⟨hf.1, fun t ht => Nat.lt_succ_of_lt (hf.2 t ht)⟩

theorem ticketsFresh_returned (v : Value) {s : State} (hf : TicketsFresh s) : TicketsFresh (returned v s) :=
  ticketsFresh_of_host (s := giveResult s.host.nextTicket v (nextTicket s)) rfl (ticketsFresh_nextTicket hf)

/-- Leaving out one number leaves the others distinct and free of it. -/
theorem otherTasks_nodup {n : Nat} {tasks : List Task} (h : (tasks.map (·.ticket)).Nodup) :
    ((otherTasks n tasks).map (·.ticket)).Nodup ∧ n ∉ (otherTasks n tasks).map (·.ticket) := by
  constructor
  · exact h.sublist (List.filter_sublist.map _)
  · simp [otherTasks]

/-- An operation whose number has been given out keeps the numbers fresh: it leaves the list, or is in it once (log 29). -/
theorem ticketsFresh_advance {t : Task} {s : State} (hf : TicketsFresh s) (ht : t.ticket < s.host.nextTicket) :
    TicketsFresh (advance t s) := by
  obtain ⟨hnodup, hlt⟩ := hf
  obtain ⟨hothers, habsent⟩ := otherTasks_nodup (n := t.ticket) hnodup
  have hbound : ∀ x ∈ otherTasks t.ticket s.host.tasks, x.ticket < s.host.nextTicket := fun x hx =>
    hlt x (List.mem_of_mem_filter hx)
  obtain ⟨hnext, htasks | ⟨t', hticket, htasks⟩⟩ := advance_tasks t s <;> rw [TicketsFresh, htasks, hnext]
  · exact ⟨hothers, hbound⟩
  · constructor
    · rw [List.map_append, List.map_singleton, hticket]
      exact hothers.append (List.nodup_singleton _) (by simpa using habsent)
    · intro x hx
      rcases List.mem_append.1 hx with hx | hx
      · exact hbound x hx
      · rw [List.mem_singleton.1 hx, hticket]
        exact ht

theorem ticketsFresh_beginTask (acts : List Act) (handler : Handler) {s : State} (hf : TicketsFresh s) :
    TicketsFresh (beginTask acts handler s) :=
  ticketsFresh_advance (ticketsFresh_nextTicket hf) (Nat.lt_succ_self _)

theorem ticketsFresh_resumeTask (n : Nat) {s : State} (hf : TicketsFresh s) : TicketsFresh (resumeTask n s) := by
  unfold resumeTask
  split
  · rename_i t ht
    exact ticketsFresh_advance hf (hf.2 t (List.mem_of_find?_eq_some ht))
  · exact hf

theorem HostEffect.ticketsFresh {i : Instr} {s t : State} (h : HostEffect i s t) (hf : TicketsFresh s) : TicketsFresh t := by
  cases h with
  | none hhost => exact ticketsFresh_of_host hhost hf
  | returned v u hhost => exact ticketsFresh_returned v (ticketsFresh_of_host hhost hf)
  | task acts handler u hhost _ => exact ticketsFresh_beginTask acts handler (ticketsFresh_of_host hhost hf)
  | construct c _ => exact ticketsFresh_beginTask _ _ hf

/-- The reader's own micro-step leaves the host's side. -/
theorem readerTurn_host (s : State) : (readerTurn s).host = s.host := by
  obtain ⟨n, h⟩ := readerTurn_move s
  exact h.writes.host

/-- One step, seen from the host's side: the reader moves, a pending operation goes on, or an instruction takes effect. -/
theorem step_host {s t : State} (h : step s = .next t) :
    t.host = s.host ∨ (∃ ticket, t = resumeTask ticket (dropTurn s))
      ∨ ∃ p, fetchTurn s = .packet p ∧ HostEffect (decode s.par p) (dropTurn s) t := by
  rw [step_eq] at h
  split_ifs at h
  cases hturn : fetchTurn s with
  | reader =>
    rw [hturn] at h
    obtain rfl := Host.Outcome.next.inj h
    exact .inl (readerTurn_host s)
  | resume ticket =>
    rw [hturn] at h
    exact .inr (.inl ⟨ticket, (Host.Outcome.next.inj h).symm⟩)
  | packet p =>
    rw [hturn] at h
    exact .inr (.inr ⟨p, rfl, exec_hostEffect h⟩)

/-- Settles O53, by what the step does to the host's side. -/
theorem everyStepKeepsTicketsFresh : Obligations.EveryStepKeepsTicketsFresh := by
  unfold Obligations.EveryStepKeepsTicketsFresh
  intro s t hf hstep
  obtain hhost | ⟨ticket, rfl⟩ | ⟨p, -, he⟩ := step_host hstep
  · exact ticketsFresh_of_host hhost hf
  · exact ticketsFresh_resumeTask ticket (s := dropTurn s) hf
  · exact he.ticketsFresh (s := dropTurn s) hf

/-! ### The session that is never usable -/

theorem keepsFailed_beginTask {acts : List Act} (handler : Handler) (h : Act.session .begin ∉ acts) (s : State) :
    KeepsFailed s (beginTask acts handler s) :=
  KeepsFailed.trans (t := nextTicket s) ⟨id, id⟩ (keepsFailed_advance h _)

/-- A pending operation that goes on begins no session, where none has still to be begun. -/
theorem keepsFailed_resumeTask (n : Nat) {s : State} (hb : SessionsBegun s) : KeepsFailed s (resumeTask n s) := by
  unfold resumeTask
  split
  · rename_i t ht
    exact keepsFailed_advance (hb t (List.mem_of_find?_eq_some ht)) s
  · exact .of_host rfl

/-- A construct begins its session in its first step, together with RST, so that none is left to begin (log 27). -/
theorem sessionsBegun_construct (c : BusConfig) {s : State} (hb : SessionsBegun s) :
    SessionsBegun (beginTask (constructActs s.par c) .init s) := by
  obtain hacts | ⟨rest, hacts, hrest⟩ := constructActs_cases s.par c <;> rw [hacts]
  · exact (keepsFailed_beginTask .init (by simp) s).begun hb
  · exact (keepsFailed_goOn hrest _ (writeSession .begin (resetEngine (nextTicket s)))).begun hb

/-- Only a construct makes another session of one that is never usable, and no instruction leaves one to begin (R231). -/
theorem HostEffect.keepsFailed {i : Instr} {s t : State} (h : HostEffect i s t) (hb : SessionsBegun s) :
    SessionsBegun t ∧ (s.host.session.phase = .failed → t.host.session.phase = .failed ∨ ∃ c, i = .construct c) := by
  have kept : KeepsFailed s t →
      SessionsBegun t ∧ (s.host.session.phase = .failed → t.host.session.phase = .failed ∨ ∃ c, i = .construct c) :=
    fun k => ⟨k.begun hb, fun hp => .inl (k.failed hp)⟩
  cases h with
  | none hhost => exact kept (.of_host hhost)
  | returned v u hhost => exact kept (KeepsFailed.trans (.of_host hhost) ⟨id, id⟩)
  | task acts handler u hhost hacts => exact kept (KeepsFailed.trans (.of_host hhost) (keepsFailed_beginTask handler hacts u))
  | construct c hc => exact ⟨sessionsBegun_construct c hb, fun _ => .inr ⟨c, hc⟩⟩

/-- The bits that only RST brings back (R29, R285), under what one step can do. -/
theorem step_revives_only_by_reset {s t : State} (h : step s = .next t) :
    (ResetTurn s ∧ JustReset t.eng)
      ∨ ((s.eng.stopReq = true → t.eng.stopReq = true) ∧ (s.eng.fatal = true → t.eng.fatal = true)
        ∧ (s.eng.run = false → t.eng.run = false) ∧ (s.eng.portOpen = false → t.eng.portOpen = false)) := by
  obtain ⟨script, fresh, hm⟩ | ⟨hturn, hreset, -⟩ | hw := step_writes h
  · obtain ⟨-, -, -, hrun, hfatal⟩ := hm.framer
    exact .inr ⟨hm.stopReq, hfatal.trans, hrun.trans, hm.port_closed⟩
  · exact .inl ⟨hturn, hreset⟩
  · exact .inr ⟨hw.stopReq.trans, hw.fatal, hw.run, hw.portOpen.trans⟩

/-- Settles O55: the bits by what one step can do to the engine, the session by what it does to the host's side. -/
theorem onlyRstRevives : Obligations.OnlyRstRevives := by
  unfold Obligations.OnlyRstRevives
  intro s t hstep
  refine ⟨step_revives_only_by_reset hstep, fun hb => ?_⟩
  obtain hhost | ⟨ticket, rfl⟩ | ⟨p, hp, he⟩ := step_host hstep
  · have hk : KeepsFailed s t := .of_host hhost
    exact ⟨hk.begun hb, fun hf => .inl (hk.failed hf)⟩
  · have hk := keepsFailed_resumeTask ticket (s := dropTurn s) hb
    exact ⟨hk.begun hb, fun hf => .inl (hk.failed hf)⟩
  · obtain ⟨hbegun, hfailed⟩ := he.keepsFailed (s := dropTurn s) hb
    exact ⟨hbegun, fun hf => (hfailed hf).imp id fun ⟨c, hc⟩ => ⟨p, c, hp, hc⟩⟩

end Sys2Proof.Machine
end

section
/-!
PROOFS. The queues and the streams under each move that a step can make (R51, R52, R202, R204): a host operation's, RST, the
reader's, a delivery.
-/

namespace Sys2Proof.Machine

open Sys2Proof Sys2Proof.Safety

/-! ### The queues -/

/-- A queue stays, has one frame more at its tail, or has lost its head (R202). -/
def QueueStep (q q' : List Frame) : Prop :=
  q' = q ∨ (∃ f, q' = q ++ [f]) ∨ ∃ f, q = f :: q'

theorem QueueStep.stay (q : List Frame) : QueueStep q q := .inl rfl
theorem QueueStep.add (q : List Frame) (f : Frame) : QueueStep q (q ++ [f]) := .inr (.inl ⟨f, rfl⟩)
theorem QueueStep.take {q q' : List Frame} {f : Frame} (h : q = f :: q') : QueueStep q q' := .inr (.inr ⟨f, h⟩)

/-- Each queue makes such a step, and at most one of the two changes. -/
structure FifoStep (e e' : Engine) : Prop where
  cq : QueueStep e.cq e'.cq
  mq : QueueStep e.mq e'.mq
  oneStays : e'.cq = e.cq ∨ e'.mq = e.mq

theorem FifoStep.of_eq {e e' : Engine} (hc : e'.cq = e.cq) (hm : e'.mq = e.mq) : FifoStep e e' :=
  ⟨.inl hc, .inl hm, .inl hc⟩

/-- A host operation's move takes at most the head of one queue (R197). -/
theorem HostMove.fifo {s t : State} (h : HostMove s t) : FifoStep s.eng t.eng := by
  obtain ⟨hc, hm⟩ | ⟨hc, f, hm⟩ | ⟨hm, f, hc⟩ := h.queues
  · exact .of_eq hc hm
  · exact ⟨.inl hc, .take hm, .inl hc⟩
  · exact ⟨.take hc, .inl hm, .inr hm⟩

/-- A frame that arrives is the tail of its queue, or is dropped (R194). -/
theorem arrive_fifo (p : Params) (f : Frame) (e : Engine) : FifoStep e (arrive p f e) := by
  obtain ⟨-, -, h⟩ | ⟨-, -, h⟩ | ⟨-, -, h⟩ | ⟨-, -, h⟩ := arrive_cases p f e <;> rw [h]
  · exact ⟨.stay _, .add _ f, .inl rfl⟩
  · exact .of_eq rfl rfl
  · exact ⟨.add _ f, .stay _, .inr rfl⟩
  · exact .of_eq rfl rfl

theorem completeFrame_fifo (s : State) : FifoStep s.eng (completeFrame s).eng := by
  obtain ⟨f, n, trace, h⟩ := completeFrame_eq s
  have ha := arrive_fifo s.par f { s.eng with acc := [], cnt := 0, lenWarn := n }
  rw [h]
  exact ⟨ha.cq, ha.mq, ha.oneStays⟩

theorem pushFrame_fifo (f : Frame) (s : State) : FifoStep s.eng (pushFrame f s).eng := by
  rw [pushFrame_eq]
  exact arrive_fifo s.par f s.eng

/-- A byte completes at most one frame. -/
theorem byteStep_fifo (b : Byte) (s : State) : FifoStep s.eng (byteStep b s).eng := by
  obtain h | ⟨acc, hlen, total, h | h⟩ := byteStep_eq b s <;> rw [h]
  · exact .of_eq rfl rfl
  · exact .of_eq rfl rfl
  · have hc := completeFrame_fifo (counted acc hlen total s)
    exact ⟨hc.cq, hc.mq, hc.oneStays⟩

theorem ReaderMove.fifo {s t : State} (h : ReaderMove s t) : FifoStep s.eng t.eng := by
  cases h with
  | byte b _ _ =>
    have hb := byteStep_fifo b (takeByte b s)
    exact ⟨hb.cq, hb.mq, hb.oneStays⟩
  | stay | arm | stopChk | idle | readError => exact .of_eq rfl rfl

theorem Delivery.fifo {s t : State} (h : Delivery s t) : FifoStep s.eng t.eng := by
  cases h with
  | complete _ => exact completeFrame_fifo s
  | push f _ => exact pushFrame_fifo f { s with detached := none }

/-- Settles O54, by the move that the step makes. That no frame is detached is not needed: PUSH adds a detached frame at a
tail too. -/
theorem queuesAreFifo : Obligations.QueuesAreFifo := by
  unfold Obligations.QueuesAreFifo
  intro s t _ hstep
  have kept : FifoStep s.eng t.eng → (ResetTurn s ∧ JustReset t.eng) ∨ QueueStep s.eng.cq t.eng.cq
      ∧ QueueStep s.eng.mq t.eng.mq ∧ (t.eng.cq = s.eng.cq ∨ t.eng.mq = s.eng.mq) :=
    fun h => .inr ⟨h.cq, h.mq, h.oneStays⟩
  obtain ⟨-, script, fresh, hm | ⟨hm, hturn⟩ | hm | hm⟩ := step_move hstep
  · exact kept hm.fifo
  · exact .inl ⟨hturn, hm.eng⟩
  · exact kept hm.fifo
  · exact kept hm.fifo

/-! ### The streams -/

/-- The streams only grow: RX by at most one byte and only while the reader runs, TX not once the port is closed. -/
structure StreamStep (s t : State) : Prop where
  rx : t.ch.rxStream = s.ch.rxStream ∨ (s.eng.run = true ∧ ∃ b, t.ch.rxStream = s.ch.rxStream ++ [b])
  tx : ∃ bytes, t.ch.txStream = s.ch.txStream ++ bytes
  closed : s.eng.portOpen = false → t.ch.txStream = s.ch.txStream

theorem StreamStep.of_ch {s t : State} (h : t.ch = s.ch) : StreamStep s t := by
  constructor <;> rw [h]
  · exact .inl rfl
  · exact ⟨[], (List.append_nil _).symm⟩
  · exact fun _ => rfl

/-- A host operation's move reads nothing, and writes only through an open port (R190, R204). -/
theorem HostMove.streams {s t : State} (h : HostMove s t) : StreamStep s t :=
  ⟨.inl h.rxStream, h.txStream, h.closed⟩

theorem completeFrame_ch (s : State) : (completeFrame s).ch = s.ch := by
  obtain ⟨f, n, trace, h⟩ := completeFrame_eq s
  rw [h]

/-- What becomes of a byte that has been read touches the channel no more. -/
theorem byteStep_ch (b : Byte) (s : State) : (byteStep b s).ch = s.ch := by
  obtain h | ⟨acc, hlen, total, h | h⟩ := byteStep_eq b s <;> rw [h]
  · rfl
  · exact completeFrame_ch (counted acc hlen total s)

/-- The reader takes a byte from the stream only while it runs (R160). -/
theorem ReaderMove.streams {s t : State} (h : ReaderMove s t) : StreamStep s t := by
  cases h with
  | byte b hrun _ =>
    have hch := byteStep_ch b (takeByte b s)
    constructor <;> rw [hch]
    · exact .inr ⟨hrun, b, rfl⟩
    · exact ⟨[], (List.append_nil _).symm⟩
    · exact fun _ => rfl
  | stay | arm | stopChk | idle | readError => exact .of_ch rfl

theorem Delivery.streams {s t : State} (h : Delivery s t) : StreamStep s t := by
  cases h with
  | complete _ => exact .of_ch (completeFrame_ch s)
  | push f _ => exact .of_ch (by rw [pushFrame_eq])

/-- Settles O58, by the move that the step makes: RST and a delivery leave the channel. -/
theorem streamsOnlyGrow : Obligations.StreamsOnlyGrow := by
  unfold Obligations.StreamsOnlyGrow
  intro s t hstep
  have grown : StreamStep s t →
      (t.ch.rxStream = s.ch.rxStream ∨ (s.eng.run = true ∧ ∃ b, t.ch.rxStream = s.ch.rxStream ++ [b]))
        ∧ (∃ bytes, t.ch.txStream = s.ch.txStream ++ bytes)
        ∧ (s.eng.portOpen = false → t.ch.txStream = s.ch.txStream) :=
    fun ⟨hrx, htx, hclosed⟩ => ⟨hrx, htx, hclosed⟩
  obtain ⟨-, script, fresh, hm | ⟨hm, -⟩ | hm | hm⟩ := step_move hstep
  · exact grown { hm.streams with }
  · exact grown { StreamStep.of_ch hm.ch with }
  · exact grown { hm.streams with }
  · exact grown { hm.streams with }

end Sys2Proof.Machine
end

section
/-!
PROOFS. The host's rows and the framer (R64): a host operation that does no RST leaves all that the reader writes.
-/

namespace Sys2Proof.Machine

open Sys2Proof Sys2Proof.Safety

/-- The rows that a host thread issues and that do not begin with RST. -/
def HostRow : Instr → Prop
  | .byteZero | .byteMessage | .byteSyncAnswer | .byteSync | .byteError | .byteCtrl _ | .byteCtrlAck _ | .rxArm | .rxStopChk
  | .rxIdle | .rxErr | .rxSkip0 | .rxFirst _ | .rxHdr _ | .rxLen4 _ | .rxLenSync _ | .rxLen6 _ | .rxPay _ | .rxComplete
  | .push | .rst | .construct _ => False
  | _ => True

theorem HostMove.framerUntouched {s t : State} (h : HostMove s t) : FramerUntouched s t := by
  rw [FramerUntouched, h.eng]
  exact ⟨rfl, rfl, rfl, rfl, rfl, rfl, rfl, rfl, rfl, rfl, h.rxStream⟩

/-- An operation whose first piece is no RST leaves the framer when it begins. -/
theorem beginTask_framerUntouched {acts : List Act} (handler : Handler) (h : acts.head? ≠ some .rst) (s : State) :
    FramerUntouched s (beginTask acts handler s) := by
  obtain hm | ⟨-, hrst⟩ := beginTask_move acts handler s
  · exact hm.framerUntouched
  · exact absurd hrst h

/-- An operation in progress whose next piece is no RST leaves the framer when it goes on. -/
theorem resumeTask_framerUntouched {s : State} {ticket : Nat}
    (h : ∀ t ∈ s.host.tasks, t.ticket = ticket → t.acts.head? ≠ some .rst) : FramerUntouched s (resumeTask ticket s) := by
  obtain hm | ⟨-, t, ht, hticket, hrst⟩ := resumeTask_move ticket s
  · exact hm.framerUntouched
  · exact absurd hrst (h t ht hticket)

theorem head_xchgActs_append (p : Params) (command flags length : Nat) (payload : List Byte) (rest : List Act) :
    (xchgActs p command flags length payload ++ rest).head? ≠ some .rst := by
  simp [xchgActs]

theorem head_setBitrateActs_append (p : Params) (bps : Nat) (rest : List Act) :
    (setBitrateActs p bps ++ rest).head? ≠ some .rst := by
  unfold setBitrateActs
  split
  · rw [List.append_assoc]
    exact head_xchgActs_append _ _ _ _ _ _
  · simp

theorem head_setModeActs (p : Params) (mode : ModeArg) : (setModeActs p mode).head? ≠ some .rst := by
  cases mode with
  | mode m => exact head_xchgActs_append _ _ _ _ _ _
  | other _ => simp [setModeActs]

/-- A host row other than RST and construct leaves the framer when it is issued: the codec's and the transport's rows end at
once, the others begin an operation with a piece that is no RST. -/
theorem exec_framerUntouched {i : Instr} {s t : State} (hrow : HostRow i) (h : exec i s = .next t) : FramerUntouched s t := by
  have outcome : ∀ {u : State}, Host.Outcome.next u = (.next t : Result) → FramerUntouched s u → FramerUntouched s t :=
    fun hu hf => Host.Outcome.next.inj hu ▸ hf
  cases i <;> simp only [exec] at h
  case byteZero | byteMessage | byteSyncAnswer | byteSync | byteError | byteCtrl | byteCtrlAck | rxArm | rxStopChk | rxIdle
      | rxErr | rxSkip0 | rxFirst | rxHdr | rxLen4 | rxLenSync | rxLen6 | rxPay | rxComplete | push | rst | construct =>
    exact hrow.elim
  case encSync | encCtrl | encMsg | encBadCommand | encBadField => exact outcome h (hostEnc_move _ _ _ _ s).framerUntouched
  case decEmpty | decZeroStart | decShort | decFs | decF4 | decF6 | decBodyShort =>
    exact outcome h (hostDec_move _ s).framerUntouched
  case seqClr => exact outcome h ((seqTx_move s 0 (.inr (.inr rfl))).then (hostOnly_returned .ok _)).framerUntouched
  case status => exact outcome h (hostOnly_returned _ s).move.framerUntouched
  case wr raw =>
    have hw := (writeFlush_move raw s).1
    unfold execWr at h
    split at h <;> rename_i e <;> rw [e] at hw
    · exact outcome h (hw.then (hostOnly_returned _ _)).framerUntouched
    · exact outcome h (hw.then (hostOnly_returned _ _)).framerUntouched
  case setBitrate bps => exact outcome h (beginTask_framerUntouched _ (head_setBitrateActs_append s.par bps _) s)
  case setMode mode => exact outcome h (beginTask_framerUntouched _ (head_setModeActs s.par mode) s)
  case send frame =>
    exact outcome h (beginTask_framerUntouched _ (by simp [sendActs]) { s with fresh := s.fresh + 2 })
  case popc | popm | stop | sync | setBitrateFromRegister | recv =>
    exact outcome h (beginTask_framerUntouched _ (by simp [syncActs]) s)
  case xchg | deviceOpen | deviceClose | setFilter | channelOpen | channelClose | shutdown =>
    exact outcome h (beginTask_framerUntouched _
      (by simp [xchgActs, deviceOpenActs, deviceCloseActs, setFilterActs, channelOpenActs, channelCloseActs, shutdownActs]) s)

/-- Settles O59: a row that is issued, by the kind of row; an operation that goes on, by what its next piece can do. -/
theorem hostOperationsLeaveTheFramer : Obligations.HostOperationsLeaveTheFramer := by
  unfold Obligations.HostOperationsLeaveTheFramer
  refine ⟨fun s t i h hrow => exec_framerUntouched ?_ h, fun s ticket => resumeTask_framerUntouched⟩
  cases i <;> exact hrow

end Sys2Proof.Machine
end

section
/-!
PROOFS. The first-byte map (R87): the class of each byte, and the byte of each class.
-/

namespace Sys2Proof

open Sys2Proof.Machine

/-! ### A byte as its bit 7 and the other bits -/

theorem append_setWidth_of_high : ∀ b : Byte, b.getLsbD 7 = true → (1#1 ++ b.setWidth 7 : Byte) = b := by decide

theorem append_setWidth_of_low : ∀ b : Byte, b.getLsbD 7 = false → (0#1 ++ b.setWidth 7 : Byte) = b := by decide

theorem getLsbD_seven_append (a : BitVec 1) (c : BitVec 7) : (a ++ c : Byte).getLsbD 7 = a.getLsbD 0 :=
  BitVec.getLsbD_append

theorem setWidth_seven_append (a : BitVec 1) (c : BitVec 7) : (a ++ c : Byte).setWidth 7 = c :=
  BitVec.setWidth_append.trans (BitVec.setWidth_eq c)

/-! ### The class of each byte -/

/-- A byte without a class of its own is CTRL's or CTRL_ACK's. -/
theorem notMem_specialBytes_iff (p : Params) (b : Byte) :
    (!(specialBytes p).contains b) = true ↔
      b ≠ 0 ∧ b ≠ p.cmdMessage ∧ b ≠ p.cmdSyncAnswer ∧ b ≠ p.cmdSync ∧ b ≠ p.cmdError := by
  simp [specialBytes]

theorem classOf_zero (p : Params) : classOf p 0x00 = .byteZero := rfl

theorem classOf_message {p : Params} (hp : p.Facts) : classOf p p.cmdMessage = .byteMessage := by
  rw [classOf, if_neg hp.messageNeZero, if_pos rfl]

theorem classOf_syncAnswer {p : Params} (hp : p.Facts) : classOf p p.cmdSyncAnswer = .byteSyncAnswer := by
  rw [classOf, if_neg hp.answerNeZero, if_neg hp.messageNeAnswer.symm, if_pos rfl]

theorem classOf_sync {p : Params} (hp : p.Facts) : classOf p p.cmdSync = .byteSync := by
  rw [classOf, if_neg hp.syncNeZero, if_neg hp.messageNeSync.symm, if_neg hp.syncNeAnswer, if_pos rfl]

theorem classOf_error {p : Params} (hp : p.Facts) : classOf p p.cmdError = .byteError := by
  rw [classOf, if_neg hp.errorNeZero, if_neg hp.messageNeError.symm, if_neg hp.answerNeError.symm,
    if_neg hp.syncNeError.symm, if_pos rfl]

/-- Bit 7 tells the two classes of the remaining bytes apart. -/
theorem classOf_of_notSpecial {p : Params} {b : Byte} (h : (!(specialBytes p).contains b) = true) :
    classOf p b = if b.getLsbD 7 then .byteCtrlAck (b.setWidth 7) else .byteCtrl (b.setWidth 7) := by
  obtain ⟨hzero, hmessage, hanswer, hsync, herror⟩ := (notMem_specialBytes_iff p b).1 h
  rw [classOf, if_neg hzero, if_neg hmessage, if_neg hanswer, if_neg hsync, if_neg herror]

theorem classOf_ctrl {p : Params} {c : BitVec 7} (h : (Instr.byteCtrl c).wf p = true) :
    classOf p (0#1 ++ c) = .byteCtrl c := by
  rw [classOf_of_notSpecial h, getLsbD_seven_append, setWidth_seven_append]
  rfl

theorem classOf_ctrlAck {p : Params} {c : BitVec 7} (h : (Instr.byteCtrlAck c).wf p = true) :
    classOf p (1#1 ++ c) = .byteCtrlAck c := by
  rw [classOf_of_notSpecial h, getLsbD_seven_append, setWidth_seven_append]
  rfl

/-! ### The byte of each class -/

/-- The class of a byte is well-formed, and its byte is that one. -/
theorem classOf_spec (p : Params) (seq : BitVec 8) (b : Byte) :
    (classOf p b).wf p = true ∧ encode p seq (classOf p b) = .rx b := by
  unfold classOf
  split_ifs with hzero hmessage hanswer hsync herror hbit
  · exact ⟨rfl, congrArg Packet.rx hzero.symm⟩
  · exact ⟨rfl, congrArg Packet.rx hmessage.symm⟩
  · exact ⟨rfl, congrArg Packet.rx hanswer.symm⟩
  · exact ⟨rfl, congrArg Packet.rx hsync.symm⟩
  · exact ⟨rfl, congrArg Packet.rx herror.symm⟩
  · have hb := append_setWidth_of_high b hbit
    refine ⟨?_, congrArg Packet.rx hb⟩
    simp only [Instr.wf, hb]
    exact (notMem_specialBytes_iff p b).2 ⟨hzero, hmessage, hanswer, hsync, herror⟩
  · have hb := append_setWidth_of_low b (by simpa using hbit)
    refine ⟨?_, congrArg Packet.rx hb⟩
    simp only [Instr.wf, hb]
    exact (notMem_specialBytes_iff p b).2 ⟨hzero, hmessage, hanswer, hsync, herror⟩

/-- Settles O3, by the rows of R87's map. -/
theorem firstByteMapIsTotal : Obligations.FirstByteMapIsTotal := by
  unfold Obligations.FirstByteMapIsTotal
  exact fun p seq b _ => classOf_spec p seq b

end Sys2Proof
end

section
/-!
PROOFS. The row that a call selects (R110, R130, R161): it is well-formed, and a well-formed row selects itself.
-/

namespace Sys2Proof

open Sys2Proof.Machine

/-! ### ENC's rows (R110) -/

theorem wf_encCtrl_iff (p : Params) (command flags length : Nat) (payload : List Byte) :
    (Instr.encCtrl command flags length payload).wf p = true ↔
      command ≠ p.cmdSync.toNat ∧ p.inRange command = true ∧ command ≠ p.cmdMessage.toNat
        ∧ fieldsFit p command flags length payload = true := by
  simp only [Instr.wf, Bool.and_eq_true, bne_iff_ne, and_assoc]

theorem wf_encBadCommand_iff (p : Params) (command flags length : Nat) (payload : List Byte) :
    (Instr.encBadCommand command flags length payload).wf p = true ↔
      command ≠ p.cmdSync.toNat ∧ p.inRange command = false := by
  simp only [Instr.wf, Bool.and_eq_true, bne_iff_ne, Bool.not_eq_true']

theorem wf_encBadField_iff (p : Params) (command flags length : Nat) (payload : List Byte) :
    (Instr.encBadField command flags length payload).wf p = true ↔
      command ≠ p.cmdSync.toNat ∧ p.inRange command = true ∧ fieldsFit p command flags length payload = false := by
  simp only [Instr.wf, Bool.and_eq_true, bne_iff_ne, Bool.not_eq_true', and_assoc]

theorem encRow_wf (p : Params) (command flags length : Nat) (payload : List Byte) :
    (encRow p command flags length payload).wf p = true := by
  unfold encRow
  split_ifs with hsync hrange hfit hmessage
  · rfl
  · exact (wf_encBadCommand_iff p _ _ _ _).2 ⟨hsync, by simpa using hrange⟩
  · exact (wf_encBadField_iff p _ _ _ _).2 ⟨hsync, by simpa using hrange, by simpa using hfit⟩
  · subst hmessage
    simpa [Instr.wf] using hfit
  · exact (wf_encCtrl_iff p _ _ _ _).2 ⟨hsync, by simpa using hrange, hmessage, by simpa using hfit⟩

theorem encRow_ctrl {p : Params} {command flags length : Nat} {payload : List Byte}
    (h : (Instr.encCtrl command flags length payload).wf p = true) :
    encRow p command flags length payload = .encCtrl command flags length payload := by
  obtain ⟨hsync, hrange, hmessage, hfit⟩ := (wf_encCtrl_iff p _ _ _ _).1 h
  simp [encRow, hsync, hrange, hmessage, hfit]

theorem encRow_msg {p : Params} (hp : p.Facts) {flags length : Nat} {payload : List Byte}
    (h : (Instr.encMsg flags length payload).wf p = true) :
    encRow p p.cmdMessage.toNat flags length payload = .encMsg flags length payload := by
  have hfit : fieldsFit p p.cmdMessage.toNat flags length payload = true := h
  simp [encRow, (hp.request hp.messageInRange).2, hp.messageInRange, hfit]

theorem encRow_badCommand {p : Params} {command flags length : Nat} {payload : List Byte}
    (h : (Instr.encBadCommand command flags length payload).wf p = true) :
    encRow p command flags length payload = .encBadCommand command flags length payload := by
  obtain ⟨hsync, hrange⟩ := (wf_encBadCommand_iff p _ _ _ _).1 h
  simp [encRow, hsync, hrange]

theorem encRow_badField {p : Params} {command flags length : Nat} {payload : List Byte}
    (h : (Instr.encBadField command flags length payload).wf p = true) :
    encRow p command flags length payload = .encBadField command flags length payload := by
  obtain ⟨hsync, hrange, hfit⟩ := (wf_encBadField_iff p _ _ _ _).1 h
  simp [encRow, hsync, hrange, hfit]

/-! ### DEC's rows (R130) -/

theorem startsMessage_iff (p : Params) (raw : List Byte) :
    startsMessage p raw = true ↔ raw.head? = some p.cmdMessage := by
  simp [startsMessage]

theorem startsSync_iff (p : Params) (raw : List Byte) :
    startsSync p raw = true ↔ raw.head? = some p.cmdSyncAnswer ∨ raw.head? = some p.cmdSync := by
  simp [startsSync]

/-- A sync code starts no empty input, no zero start and no MESSAGE frame (R9). -/
theorem startsSync_excludes {p : Params} (hp : p.Facts) {raw : List Byte} (h : startsSync p raw = true) :
    raw ≠ [] ∧ raw.head? ≠ some 0x00 ∧ startsMessage p raw = false := by
  rw [startsSync_iff] at h
  rw [Bool.eq_false_iff, Ne.eq_def (startsMessage p raw), startsMessage_iff]
  refine ⟨by rintro rfl; simp at h, ?_, ?_⟩
  · rintro hzero
    rw [hzero, Option.some_inj, Option.some_inj] at h
    exact h.elim hp.answerNeZero.symm hp.syncNeZero.symm
  · rintro hmessage
    rw [hmessage, Option.some_inj, Option.some_inj] at h
    exact h.elim hp.messageNeAnswer hp.messageNeSync

/-- The MESSAGE command starts no empty input, no zero start and no sync frame (R9). -/
theorem startsMessage_excludes {p : Params} (hp : p.Facts) {raw : List Byte} (h : startsMessage p raw = true) :
    raw ≠ [] ∧ raw.head? ≠ some 0x00 ∧ startsSync p raw = false := by
  have hhead := (startsMessage_iff p raw).1 h
  refine ⟨by rintro rfl; simp at hhead, ?_, Bool.eq_false_iff.2 fun hsync => ?_⟩
  · rw [hhead]
    exact fun hzero => hp.messageNeZero (Option.some_inj.1 hzero)
  · exact absurd h (by simp [(startsSync_excludes hp hsync).2.2])

theorem headerNeed_of_message {p : Params} {raw : List Byte} (h : startsMessage p raw = true) :
    headerNeed p raw = p.hlenLong := if_pos h

theorem headerNeed_of_notMessage {p : Params} {raw : List Byte} (h : startsMessage p raw = false) :
    headerNeed p raw = p.hlenShort := if_neg (by simp [h])

theorem wf_decZeroStart_iff (p : Params) (raw : List Byte) :
    (Instr.decZeroStart raw).wf p = true ↔ raw.head? = some 0x00 := by
  simp only [Instr.wf, beq_iff_eq]

theorem wf_decShort_iff (p : Params) (raw : List Byte) :
    (Instr.decShort raw).wf p = true ↔ raw ≠ [] ∧ raw.head? ≠ some 0x00 ∧ raw.length < headerNeed p raw := by
  simp only [Instr.wf, Bool.and_eq_true, bne_iff_ne, decide_eq_true_eq, and_assoc]

theorem wf_decFs_iff (p : Params) (raw : List Byte) :
    (Instr.decFs raw).wf p = true ↔ startsSync p raw = true ∧ p.hlenShort ≤ raw.length := by
  simp only [Instr.wf, Bool.and_eq_true, decide_eq_true_eq]

theorem wf_decF4_iff (p : Params) (raw : List Byte) :
    (Instr.decF4 raw).wf p = true ↔
      raw ≠ [] ∧ raw.head? ≠ some 0x00 ∧ startsMessage p raw = false ∧ startsSync p raw = false
        ∧ p.hlenShort ≤ raw.length := by
  simp only [Instr.wf, Bool.and_eq_true, bne_iff_ne, decide_eq_true_eq, Bool.not_eq_true', and_assoc]

theorem wf_decF6_iff (p : Params) (raw : List Byte) :
    (Instr.decF6 raw).wf p = true ↔ startsMessage p raw = true ∧ p.hlenLong + p.bodyPrefix ≤ raw.length := by
  simp only [Instr.wf, Bool.and_eq_true, decide_eq_true_eq]

theorem wf_decBodyShort_iff (p : Params) (raw : List Byte) :
    (Instr.decBodyShort raw).wf p = true ↔
      startsMessage p raw = true ∧ p.hlenLong ≤ raw.length ∧ raw.length < p.hlenLong + p.bodyPrefix := by
  simp only [Instr.wf, Bool.and_eq_true, decide_eq_true_eq, and_assoc]

theorem decRow_wf {p : Params} (hp : p.Facts) (raw : List Byte) : (decRow p raw).wf p = true := by
  unfold decRow
  split_ifs with hempty hzero hshort hsync hmessage hbody
  · rfl
  · exact (wf_decZeroStart_iff p raw).2 hzero
  · exact (wf_decShort_iff p raw).2 ⟨hempty, hzero, hshort⟩
  · rw [headerNeed_of_notMessage (startsSync_excludes hp hsync).2.2] at hshort
    exact (wf_decFs_iff p raw).2 ⟨hsync, Nat.le_of_not_lt hshort⟩
  · rw [headerNeed_of_message hmessage] at hshort
    exact (wf_decBodyShort_iff p raw).2 ⟨hmessage, Nat.le_of_not_lt hshort, hbody⟩
  · exact (wf_decF6_iff p raw).2 ⟨hmessage, Nat.le_of_not_lt hbody⟩
  · rw [Bool.not_eq_true] at hsync hmessage
    rw [headerNeed_of_notMessage hmessage] at hshort
    exact (wf_decF4_iff p raw).2 ⟨hempty, hzero, hmessage, hsync, Nat.le_of_not_lt hshort⟩

theorem decRow_zeroStart {p : Params} {raw : List Byte} (h : (Instr.decZeroStart raw).wf p = true) :
    decRow p raw = .decZeroStart raw := by
  have hzero := (wf_decZeroStart_iff p raw).1 h
  rw [decRow, if_neg (by rintro rfl; simp at hzero), if_pos hzero]

theorem decRow_short {p : Params} {raw : List Byte} (h : (Instr.decShort raw).wf p = true) :
    decRow p raw = .decShort raw := by
  obtain ⟨hempty, hzero, hshort⟩ := (wf_decShort_iff p raw).1 h
  rw [decRow, if_neg hempty, if_neg hzero, if_pos hshort]

theorem decRow_fs {p : Params} (hp : p.Facts) {raw : List Byte} (h : (Instr.decFs raw).wf p = true) :
    decRow p raw = .decFs raw := by
  obtain ⟨hsync, hlength⟩ := (wf_decFs_iff p raw).1 h
  obtain ⟨hempty, hzero, hmessage⟩ := startsSync_excludes hp hsync
  rw [decRow, if_neg hempty, if_neg hzero, headerNeed_of_notMessage hmessage, if_neg (by omega), if_pos hsync]

theorem decRow_f4 {p : Params} {raw : List Byte} (h : (Instr.decF4 raw).wf p = true) : decRow p raw = .decF4 raw := by
  obtain ⟨hempty, hzero, hmessage, hsync, hlength⟩ := (wf_decF4_iff p raw).1 h
  rw [decRow, if_neg hempty, if_neg hzero, headerNeed_of_notMessage hmessage, if_neg (by omega), if_neg (by simp [hsync]),
    if_neg (by simp [hmessage])]

/-- With its whole header, a MESSAGE frame's row is decided by its body's length (R140). -/
theorem decRow_message {p : Params} (hp : p.Facts) {raw : List Byte} (hmessage : startsMessage p raw = true)
    (hlength : p.hlenLong ≤ raw.length) :
    decRow p raw = if raw.length < p.hlenLong + p.bodyPrefix then .decBodyShort raw else .decF6 raw := by
  obtain ⟨hempty, hzero, hsync⟩ := startsMessage_excludes hp hmessage
  rw [decRow, if_neg hempty, if_neg hzero, headerNeed_of_message hmessage, if_neg (by omega), if_neg (by simp [hsync]),
    if_pos hmessage]

theorem decRow_f6 {p : Params} (hp : p.Facts) {raw : List Byte} (h : (Instr.decF6 raw).wf p = true) :
    decRow p raw = .decF6 raw := by
  obtain ⟨hmessage, hlength⟩ := (wf_decF6_iff p raw).1 h
  rw [decRow_message hp hmessage (by omega), if_neg (by omega)]

theorem decRow_bodyShort {p : Params} (hp : p.Facts) {raw : List Byte} (h : (Instr.decBodyShort raw).wf p = true) :
    decRow p raw = .decBodyShort raw := by
  obtain ⟨hmessage, hlength, hbody⟩ := (wf_decBodyShort_iff p raw).1 h
  rw [decRow_message hp hmessage hlength, if_pos hbody]

/-! ### All rows -/

/-- A well-formed instruction is the row that its own arguments select. -/
theorem selectRow_of_wf {p : Params} (hp : p.Facts) {i : Instr} (h : i.wf p = true) : selectRow p i = i := by
  cases i
  case byteCtrl c => exact classOf_ctrl h
  case byteCtrlAck c => exact classOf_ctrlAck h
  case encCtrl => exact encRow_ctrl h
  case encMsg => exact encRow_msg hp h
  case encBadCommand => exact encRow_badCommand h
  case encBadField => exact encRow_badField h
  case decZeroStart => exact decRow_zeroStart h
  case decShort => exact decRow_short h
  case decFs => exact decRow_fs hp h
  case decF4 => exact decRow_f4 h
  case decF6 => exact decRow_f6 hp h
  case decBodyShort => exact decRow_bodyShort hp h
  case rxFirst b => exact if_neg (by simpa [Instr.wf] using h)
  all_goals rfl

/-- The row that a call selects is well-formed. -/
theorem selectRow_wf {p : Params} (hp : p.Facts) (i : Instr) : (selectRow p i).wf p = true := by
  cases i
  case byteCtrl | byteCtrlAck => exact (classOf_spec p 0 _).1
  case encCtrl | encMsg | encBadCommand | encBadField => exact encRow_wf p _ _ _ _
  case decZeroStart | decShort | decFs | decF4 | decF6 | decBodyShort => exact decRow_wf hp _
  case rxFirst b =>
    show (if b = 0x00 then Instr.rxSkip0 else .rxFirst b).wf p = true
    split_ifs with hzero
    · rfl
    · simpa [Instr.wf] using hzero
  all_goals rfl

end Sys2Proof
end

section
/-!
PROOFS. Images (R81 to R83, R92): what the decoder reads from an F4 frame, an F6 frame and the sync frame, what the encoder
writes, and that each gives back what the other was given.
-/

namespace Sys2Proof

open Sys2Proof.Machine

/-! ### The decoder, by the image's format -/

/-- What starts with another byte than the sync command is not the sync frame. -/
theorem cons_ne_syncFrame {p : Params} {c : Byte} (h : c ≠ p.cmdSync) (rest : List Byte) : c :: rest ≠ syncFrame p :=
  fun e => h (List.cons.inj e).1

theorem decodeImage_sync (p : Params) : decodeImage p (syncFrame p) = .encSync 0 0 [] := if_pos rfl

/-- An F4 frame shows its command, flags, length and payload (R81). -/
theorem decodeImage_f4 {p : Params} {c : Byte} (hsync : c ≠ p.cmdSync) (hmessage : c ≠ p.cmdMessage)
    (tag flags length : Byte) (payload : List Byte) :
    decodeImage p (c :: tag :: flags :: length :: payload) =
      encRow p c.toNat flags.toNat length.toNat payload := by
  have hfields : imageFields p (c :: tag :: flags :: length :: payload) = (flags.toNat, length.toNat, 4) := if_neg hmessage
  rw [decodeImage, if_neg (cons_ne_syncFrame hsync _), hfields]
  rfl

/-- An F6 frame shows its flags and length, low byte first, and its payload (R82). -/
theorem decodeImage_f6 {p : Params} (hp : p.Facts) (tag flags0 flags1 length0 length1 : Byte) (payload : List Byte) :
    decodeImage p (p.cmdMessage :: tag :: flags0 :: flags1 :: length0 :: length1 :: payload) =
      encRow p p.cmdMessage.toNat (flags0.toNat + 256 * flags1.toNat) (length0.toNat + 256 * length1.toNat) payload := by
  have hfields : imageFields p (p.cmdMessage :: tag :: flags0 :: flags1 :: length0 :: length1 :: payload) =
      (flags0.toNat + 256 * flags1.toNat, length0.toNat + 256 * length1.toNat, 6) := if_pos rfl
  rw [decodeImage, if_neg (cons_ne_syncFrame hp.messageNeSync _), hfields]
  rfl

/-! ### The encoder, by the ENC row -/

theorem withPayload_eq_append {header payload : List Byte} {length : Nat} (h : length = 0 → payload = []) :
    withPayload header length payload = header ++ payload := by
  unfold withPayload
  split_ifs with hlength
  · rfl
  · rw [h (by omega), List.append_nil]

/-- A sync call has its frame as image when it has no arguments, and is otherwise a call. -/
theorem encode_sync_cases (p : Params) (seq : BitVec 8) (flags length : Nat) (payload : List Byte) :
    ((flags = 0 ∧ length = 0 ∧ payload = [])
        ∧ encode p seq (.encSync flags length payload) = .image (syncFrame p))
      ∨ encode p seq (.encSync flags length payload) = .call (.encSync flags length payload) := by
  by_cases h : flags = 0 ∧ length = 0 ∧ payload = []
  · exact .inl ⟨h, if_pos h⟩
  · exact .inr (if_neg h)

/-- Where `length` is 0 the frame shows no payload (R110), so that a call with one is left a call. -/
theorem image_or_call (frame : List Byte) (length : Nat) (payload : List Byte) (i : Instr) :
    ((length = 0 → payload = [])
        ∧ (if length = 0 ∧ payload ≠ [] then Packet.call i else .image frame) = .image frame)
      ∨ (if length = 0 ∧ payload ≠ [] then Packet.call i else .image frame) = .call i := by
  split_ifs with h
  · exact .inr rfl
  · exact .inl ⟨fun hzero => by_contra fun hpayload => h ⟨hzero, hpayload⟩, rfl⟩

/-- A control call has its F4 frame as image when the frame shows the payload, and is otherwise a call. -/
theorem encode_ctrl_cases (p : Params) (seq : BitVec 8) (command flags length : Nat) (payload : List Byte) :
    ((length = 0 → payload = [])
        ∧ encode p seq (.encCtrl command flags length payload) =
          .image (withPayload (headerF4 command seq flags length) length payload))
      ∨ encode p seq (.encCtrl command flags length payload) = .call (.encCtrl command flags length payload) :=
  image_or_call _ _ _ _

/-- A MESSAGE call has its F6 frame as image when the frame shows the payload, and is otherwise a call. -/
theorem encode_msg_cases (p : Params) (seq : BitVec 8) (flags length : Nat) (payload : List Byte) :
    ((length = 0 → payload = [])
        ∧ encode p seq (.encMsg flags length payload) =
          .image (withPayload (headerF6 p seq flags length) length payload))
      ∨ encode p seq (.encMsg flags length payload) = .call (.encMsg flags length payload) :=
  image_or_call _ _ _ _

/-! ### Fields as bytes -/

theorem toNat_byte_of_lt {n : Nat} (h : n < 256) : (BitVec.ofNat 8 n).toNat = n :=
  BitVec.toNat_ofNat n 8 ▸ Nat.mod_eq_of_lt h

/-- A 16-bit field is read back from its two bytes, low byte first (R53, R54). -/
theorem toNat_low_add_high {n : Nat} (h : n < 65536) :
    (BitVec.ofNat 8 (n % 256)).toNat + 256 * (BitVec.ofNat 8 (n / 256)).toNat = n := by
  rw [toNat_byte_of_lt (by omega), toNat_byte_of_lt (by omega)]
  omega

theorem byte_low_of_field (low high : Byte) : BitVec.ofNat 8 ((low.toNat + 256 * high.toNat) % 256) = low := by
  have := low.isLt
  rw [show (low.toNat + 256 * high.toNat) % 256 = low.toNat by omega, BitVec.ofNat_toNat, BitVec.setWidth_eq]

theorem byte_high_of_field (low high : Byte) : BitVec.ofNat 8 ((low.toNat + 256 * high.toNat) / 256) = high := by
  have := low.isLt
  rw [show (low.toNat + 256 * high.toNat) / 256 = high.toNat by omega, BitVec.ofNat_toNat, BitVec.setWidth_eq]

/-- What the field checks of R115 bound: `flags` and `length`, by the limit of the command's format. -/
theorem fieldsFit_bounds {p : Params} {command flags length : Nat} {payload : List Byte}
    (h : fieldsFit p command flags length payload = true) :
    flags ≤ fieldLimit p command ∧ length ≤ fieldLimit p command := by
  obtain ⟨hflags, hlength, -⟩ := (fieldError_eq_none p _ _ _ _).1 ((fieldsFit_iff p _ _ _ _).1 h)
  exact ⟨hflags, hlength⟩

/-! ### Decoding what the encoder writes -/

theorem decode_call_of_wf {p : Params} (hp : p.Facts) {i : Instr} (h : i.wf p = true) : decode p (.call i) = i :=
  selectRow_of_wf hp h

theorem decode_encode_sync {p : Params} (seq : BitVec 8) (flags length : Nat) (payload : List Byte) :
    decode p (encode p seq (.encSync flags length payload)) = .encSync flags length payload := by
  obtain ⟨⟨rfl, rfl, rfl⟩, he⟩ | he := encode_sync_cases p seq flags length payload <;> rw [he]
  · exact decodeImage_sync p
  · rfl

theorem decode_encode_ctrl {p : Params} (hp : p.Facts) (seq : BitVec 8) {command flags length : Nat} {payload : List Byte}
    (h : (Instr.encCtrl command flags length payload).wf p = true) :
    decode p (encode p seq (.encCtrl command flags length payload)) = .encCtrl command flags length payload := by
  obtain ⟨hpayload, he⟩ | he := encode_ctrl_cases p seq command flags length payload <;> rw [he]
  · rw [withPayload_eq_append hpayload]
    obtain ⟨hsync, hrange, hmessage, hfit⟩ := (wf_encCtrl_iff p _ _ _ _).1 h
    have hcommand := toNat_byte_of_lt (hp.request hrange).1
    obtain ⟨hflags, hlength⟩ := fieldsFit_bounds hfit
    rw [fieldLimit, if_neg hmessage] at hflags hlength
    have himage := decodeImage_f4 (p := p) (c := BitVec.ofNat 8 command) (fun e => hsync (e ▸ hcommand.symm))
      (fun e => hmessage (e ▸ hcommand.symm)) seq (BitVec.ofNat 8 flags) (BitVec.ofNat 8 length) payload
    rw [hcommand, toNat_byte_of_lt (by omega), toNat_byte_of_lt (by omega), encRow_ctrl h] at himage
    exact himage
  · exact decode_call_of_wf hp h

theorem decode_encode_msg {p : Params} (hp : p.Facts) (seq : BitVec 8) {flags length : Nat} {payload : List Byte}
    (h : (Instr.encMsg flags length payload).wf p = true) :
    decode p (encode p seq (.encMsg flags length payload)) = .encMsg flags length payload := by
  obtain ⟨hpayload, he⟩ | he := encode_msg_cases p seq flags length payload <;> rw [he]
  · rw [withPayload_eq_append hpayload]
    obtain ⟨hflags, hlength⟩ := fieldsFit_bounds h
    rw [fieldLimit, if_pos rfl] at hflags hlength
    have himage := decodeImage_f6 hp seq (BitVec.ofNat 8 (flags % 256)) (BitVec.ofNat 8 (flags / 256))
      (BitVec.ofNat 8 (length % 256)) (BitVec.ofNat 8 (length / 256)) payload
    rw [toNat_low_add_high (by omega), toNat_low_add_high (by omega), encRow_msg hp h] at himage
    exact himage
  · exact decode_call_of_wf hp h

/-- Settles O1, by the row: a first-byte class by its byte, an ENC call by its frame, every other row as a call. -/
theorem decodeReversesEncode : Obligations.DecodeReversesEncode := by
  unfold Obligations.DecodeReversesEncode
  intro p seq i hok hwf
  have hp := Params.facts hok
  cases i
  case byteZero => exact classOf_zero p
  case byteMessage => exact classOf_message hp
  case byteSyncAnswer => exact classOf_syncAnswer hp
  case byteSync => exact classOf_sync hp
  case byteError => exact classOf_error hp
  case byteCtrl => exact classOf_ctrl hwf
  case byteCtrlAck => exact classOf_ctrlAck hwf
  case encSync => exact decode_encode_sync seq _ _ _
  case encCtrl => exact decode_encode_ctrl hp seq hwf
  case encMsg => exact decode_encode_msg hp seq hwf
  all_goals exact decode_call_of_wf hp hwf

/-! ### Encoding what the decoder reads -/

/-- Whatever is presented decodes to a well-formed instruction (R87, R110, R130). -/
theorem decode_wf {p : Params} (hp : p.Facts) (packet : Packet) : (decode p packet).wf p = true := by
  cases packet with
  | rx b => exact (classOf_spec p 0 b).1
  | image bytes =>
    show (decodeImage p bytes).wf p = true
    unfold decodeImage
    split_ifs
    · rfl
    · exact encRow_wf p _ _ _ _
  | call i => exact selectRow_wf hp i

/-- A request with fields that fit is an accepted ENC row. -/
theorem encRow_of_fits {p : Params} (hp : p.Facts) {command flags length : Nat} {payload : List Byte}
    (hrange : p.inRange command = true) (hfit : fieldsFit p command flags length payload = true) :
    encRow p command flags length payload =
      if command = p.cmdMessage.toNat then .encMsg flags length payload else .encCtrl command flags length payload := by
  simp [encRow, (hp.request hrange).2, hrange, hfit]

/-- Fields that fit: within the limit of the command's format, and a payload as long as `length` says (R115). -/
theorem fieldsFit_of_bounds {p : Params} {command flags : Nat} {payload : List Byte}
    (hflags : flags ≤ fieldLimit p command) (hlength : payload.length ≤ fieldLimit p command) :
    fieldsFit p command flags payload.length payload = true :=
  (fieldsFit_iff p _ _ _ _).2 ((fieldError_eq_none p _ _ _ _).2 ⟨hflags, hlength, fun _ => rfl⟩)

/-- A whole F4 frame of a request is what its instruction encodes to (R81). -/
theorem encode_decode_f4 {p : Params} (hp : p.Facts) {c tag flags length : Byte} {payload : List Byte}
    (hrange : p.inRange c.toNat = true) (hmessage : c ≠ p.cmdMessage) (hlength : payload.length = length.toNat) :
    encode p tag (decode p (.image (c :: tag :: flags :: length :: payload))) =
      .image (c :: tag :: flags :: length :: payload) := by
  have hsync : c ≠ p.cmdSync := fun e => (hp.request hrange).2 (congrArg _ e)
  have hmessage' : c.toNat ≠ p.cmdMessage.toNat := fun e => hmessage (BitVec.eq_of_toNat_eq e)
  have hlimit : fieldLimit p c.toNat = 255 := if_neg hmessage'
  have hfit : fieldsFit p c.toNat flags.toNat payload.length payload = true :=
    fieldsFit_of_bounds (by omega) (by omega)
  have hdecode : decode p (.image (c :: tag :: flags :: length :: payload)) =
      .encCtrl c.toNat flags.toNat payload.length payload := by
    rw [decode, decodeImage_f4 hsync hmessage, ← hlength, encRow_of_fits hp hrange hfit, if_neg hmessage']
  rw [hdecode, encode, if_neg (by simp), withPayload_eq_append List.eq_nil_of_length_eq_zero, hlength]
  simp [headerF4]

/-- A whole F6 frame is what its instruction encodes to (R82). -/
theorem encode_decode_f6 {p : Params} (hp : p.Facts) {tag flags0 flags1 length0 length1 : Byte} {payload : List Byte}
    (hlength : payload.length = length0.toNat + 256 * length1.toNat) :
    encode p tag (decode p (.image (p.cmdMessage :: tag :: flags0 :: flags1 :: length0 :: length1 :: payload))) =
      .image (p.cmdMessage :: tag :: flags0 :: flags1 :: length0 :: length1 :: payload) := by
  have hlimit : fieldLimit p p.cmdMessage.toNat = 65535 := if_pos rfl
  have hfit : fieldsFit p p.cmdMessage.toNat (flags0.toNat + 256 * flags1.toNat) payload.length payload = true :=
    fieldsFit_of_bounds (by omega) (by omega)
  have hdecode : decode p (.image (p.cmdMessage :: tag :: flags0 :: flags1 :: length0 :: length1 :: payload)) =
      .encMsg (flags0.toNat + 256 * flags1.toNat) payload.length payload := by
    rw [decode, decodeImage_f6 hp, ← hlength, encRow_of_fits hp hp.messageInRange hfit, if_pos rfl]
  rw [hdecode, encode, if_neg (by simp), withPayload_eq_append List.eq_nil_of_length_eq_zero, hlength, headerF6,
    byte_low_of_field, byte_high_of_field, byte_low_of_field, byte_high_of_field]
  rfl

/-- Settles O2: every packet by its kind, and a frame's image by its format: sync, F6 or F4. -/
theorem encodeReversesImageDecode : Obligations.EncodeReversesImageDecode := by
  unfold Obligations.EncodeReversesImageDecode
  intro p hok
  have hp := Params.facts hok
  refine ⟨decode_wf hp, ?_⟩
  rintro bytes (rfl | ⟨hrange, hframe⟩)
  · show encode p _ (decodeImage p (syncFrame p)) = .image (syncFrame p)
    rw [decodeImage_sync]
    rfl
  · split_ifs at hframe with hmessage
    · obtain ⟨hheader, hlength⟩ := hframe
      match bytes, hheader with
      | c :: tag :: flags0 :: flags1 :: length0 :: length1 :: payload, _ =>
        obtain rfl : c = p.cmdMessage := hmessage
        exact encode_decode_f6 hp (Nat.add_left_cancel ((Nat.add_comm 6 _).trans hlength))
    · obtain ⟨hheader, hlength⟩ := hframe
      match bytes, hheader with
      | c :: tag :: flags :: length :: payload, _ =>
        exact encode_decode_f4 hp hrange hmessage (Nat.add_left_cancel ((Nat.add_comm 4 _).trans hlength))

end Sys2Proof
end

section
/-!
PROOFS. Packets and what they do: the image of an accepted ENC call is the frame returned (R92), the sample words of the
opcode table, and the first-byte rows as the reader's steps (R160 to R172).
-/

namespace Sys2Proof.Machine

open Sys2Proof Sys2Proof.Safety

/-! ### ENC's image and its result -/

/-- An accepted ENC call returns its frame. -/
theorem hostEnc_ok {command flags length : Nat} {payload bytes : List Byte} {seq : BitVec 8} {s : State}
    (h : encodeFrame s.par s.eng.seqTx command flags length payload = .ok (bytes, seq)) :
    hostEnc command flags length payload s = returned (.bytes bytes) { s with eng.seqTx := seq } := by
  simp only [hostEnc, h]
  rfl

/-- Only the ENC rows that the encoder accepts have an image, and it is the frame that R111, R112 or R113 builds. -/
theorem exec_of_encode_image {s : State} {i : Instr} {bytes : List Byte} (hp : s.par.Facts) (hwf : i.wf s.par = true)
    (h : encode s.par s.eng.seqTx i = .image bytes) :
    ∃ seq, exec i s = .next (returned (.bytes bytes) { s with eng.seqTx := seq }) := by
  cases i
  case encSync flags length payload =>
    obtain ⟨-, he⟩ | he := encode_sync_cases s.par s.eng.seqTx flags length payload <;> rw [he] at h
    · obtain rfl := Packet.image.inj h
      exact ⟨_, congrArg _ (hostEnc_ok (encodeFrame_sync _ _ _ _ _))⟩
    · exact nomatch h
  case encCtrl command flags length payload =>
    obtain ⟨-, he⟩ | he := encode_ctrl_cases s.par s.eng.seqTx command flags length payload <;> rw [he] at h
    · obtain rfl := Packet.image.inj h
      obtain ⟨-, hrange, hmessage, hfit⟩ := (wf_encCtrl_iff _ _ _ _ _).1 hwf
      exact ⟨_, congrArg _ (hostEnc_ok (encodeFrame_ctrl hp _ hrange hmessage ((fieldsFit_iff _ _ _ _ _).1 hfit)))⟩
    · exact nomatch h
  case encMsg flags length payload =>
    obtain ⟨-, he⟩ | he := encode_msg_cases s.par s.eng.seqTx flags length payload <;> rw [he] at h
    · obtain rfl := Packet.image.inj h
      exact ⟨_, congrArg _ (hostEnc_ok (encodeFrame_msg hp _ ((fieldsFit_iff _ _ _ _ _).1 hwf)))⟩
    · exact nomatch h
  all_goals exact nomatch h

/-- Settles O12: encoder and codec build the image and the result from the same frame. -/
theorem imageIsTheFrameReturned : Obligations.ImageIsTheFrameReturned := by
  unfold Obligations.ImageIsTheFrameReturned
  intro s i bytes hok hwf h
  obtain ⟨seq, hexec⟩ := exec_of_encode_image (Params.facts hok) hwf h
  exact ⟨_, hexec, rfl⟩

/-- Settles O6: the decoder is run on each word. -/
theorem sampleWordsDecode : Obligations.SampleWordsDecode := by
  unfold Obligations.SampleWordsDecode
  exact ⟨by decide, by decide, by decide, by decide, by decide, by decide⟩

/-! ### A byte that is offered (log 5) -/

theorem reading_iff (s : State) : reading s = true ↔ s.eng.run = true ∧ s.eng.inflight = true := by
  simp [reading]

theorem atTop_iff (s : State) : atTop s = true ↔ s.eng.run = true ∧ s.eng.inflight = false := by
  simp [atTop]

/-- A read in flight returns the byte. -/
theorem offerByte_reading (b : Byte) {s : State} (hrun : s.eng.run = true) (hin : s.eng.inflight = true) :
    offerByte b s = byteStep b (takeByte b s) :=
  if_pos ((reading_iff s).2 ⟨hrun, hin⟩)

/-- At the top of the loop without a stop request, the read begins and returns the byte. -/
theorem offerByte_arm (b : Byte) {s : State} (hrun : s.eng.run = true) (hin : s.eng.inflight = false)
    (hstop : s.eng.stopReq = false) : offerByte b s = offerByte b (arm s) := by
  rw [offerByte_reading b (s := arm s) hrun rfl, offerByte, if_neg (by simp [reading, hin]),
    if_pos ((atTop_iff s).2 ⟨hrun, hin⟩), if_neg (by simp [hstop])]
  rfl

/-- At the top of the loop the stop request comes first. -/
theorem offerByte_stopChk (b : Byte) {s : State} (hrun : s.eng.run = true) (hin : s.eng.inflight = false)
    (hstop : s.eng.stopReq = true) : offerByte b s = stopChk s := by
  rw [offerByte, if_neg (by simp [reading, hin]), if_pos ((atTop_iff s).2 ⟨hrun, hin⟩), if_pos hstop]

theorem offerByte_stopped (b : Byte) {s : State} (hrun : s.eng.run = false) : offerByte b s = s := by
  rw [offerByte, if_neg (by simp [reading, hrun]), if_neg (by simp [atTop, hrun])]

/-! ### The reader's rows with a read in flight (R161) -/

section ReaderRows

variable {b : Byte} {s : State}

/-- A reader row whose condition holds takes its step. -/
theorem whenEnabled_reading (hr : reading s = true) {condition : Bool} (hc : condition = true) (t : State) :
    whenEnabled (reading s && condition) t s = .next t := by
  rw [hr, hc]
  rfl

theorem exec_rxSkip0_reading (hr : reading s = true) (hcnt : s.eng.cnt = 0) :
    exec .rxSkip0 s = .next (byteStep 0x00 (takeByte 0x00 s)) := by
  rw [byteStep_start (s := takeByte 0x00 s) hcnt, if_pos rfl]
  exact whenEnabled_reading hr (by simpa using hcnt) _

theorem exec_rxFirst_reading (hr : reading s = true) (hcnt : s.eng.cnt = 0) (hb : b ≠ 0x00) :
    exec (.rxFirst b) s = .next (byteStep b (takeByte b s)) := by
  rw [byteStep_start (s := takeByte b s) hcnt, if_neg hb]
  show whenEnabled (reading s && decide (s.eng.cnt = 0) && (b != 0x00)) _ s = _
  rw [Bool.and_assoc]
  exact whenEnabled_reading hr (by simpa [hcnt] using hb) _

theorem exec_rxHdr_reading (hr : reading s = true) (hcnt : 1 ≤ s.eng.cnt) (hhdr : s.eng.cnt + 1 < s.eng.hlen) :
    exec (.rxHdr b) s = .next (byteStep b (takeByte b s)) := by
  rw [byteStep_hdr (s := takeByte b s) hcnt hhdr]
  exact whenEnabled_reading hr (by simp [atHdr, hcnt, hhdr]) _

theorem exec_rxPay_reading (hr : reading s = true) (hcnt : 1 ≤ s.eng.cnt) (hpay : s.eng.hlen ≤ s.eng.cnt)
    (htotal : s.eng.cnt < s.eng.total) : exec (.rxPay b) s = .next (byteStep b (takeByte b s)) := by
  rw [byteStep_pay (s := takeByte b s) hcnt hpay]
  exact whenEnabled_reading hr (by simp [atPay, hcnt, hpay, htotal]) _

theorem exec_rxLen6_reading (hr : reading s = true) (hcnt : 1 ≤ s.eng.cnt) (hlast : s.eng.cnt + 1 = s.eng.hlen)
    (hlong : s.eng.hlen = s.par.hlenLong) (hshort : s.eng.hlen ≠ s.par.hlenShort) :
    exec (.rxLen6 b) s = .next (byteStep b (takeByte b s)) := by
  rw [byteStep_len6 (s := takeByte b s) (Nat.one_le_iff_ne_zero.1 hcnt) hlast hshort]
  exact whenEnabled_reading hr (by simp [atLen6, hcnt, hlast, ← hlong, hshort]) _

theorem exec_rxLenSync_reading (hr : reading s = true) (hcnt : 1 ≤ s.eng.cnt) (hlast : s.eng.cnt + 1 = s.eng.hlen)
    (hshort : s.eng.hlen = s.par.hlenShort) (hsync : isSyncCode s.par (byteAt s.eng.acc 0) = true) :
    exec (.rxLenSync b) s = .next (byteStep b (takeByte b s)) := by
  rw [byteStep_lenSync (s := takeByte b s) (Nat.one_le_iff_ne_zero.1 hcnt) hlast hshort hsync]
  exact whenEnabled_reading hr (by simp [atLenSync, hcnt, hlast, ← hshort, hsync]) _

theorem exec_rxLen4_reading (hr : reading s = true) (hcnt : 1 ≤ s.eng.cnt) (hlast : s.eng.cnt + 1 = s.eng.hlen)
    (hshort : s.eng.hlen = s.par.hlenShort) (hsync : isSyncCode s.par (byteAt s.eng.acc 0) = false) :
    exec (.rxLen4 b) s = .next (byteStep b (takeByte b s)) := by
  rw [byteStep_len4 (s := takeByte b s) (Nat.one_le_iff_ne_zero.1 hcnt) hlast hshort hsync]
  exact whenEnabled_reading hr (by simp [atLen4, hcnt, hlast, ← hshort, hsync]) _

end ReaderRows

/-- (I2) of R40: the header length is one of the two that R85 knows. -/
theorem hlen_eq_long_of_inv {p : Params} {e : Engine} (hi : EngineInv p e) (hcnt : 1 ≤ e.cnt)
    (h : e.hlen ≠ p.hlenShort) : e.hlen = p.hlenLong := by
  have hhlen := (hi.start hcnt).2
  rw [hlen_eq] at hhlen
  split_ifs at hhlen
  · exact hhlen
  · exact absurd hhlen h

/-- The row that R161's conditions select is the byte's step. -/
theorem exec_selectedRow {s : State} (b : Byte) (hi : EngineInv s.par s.eng) (hr : reading s = true) :
    exec
        (if s.eng.cnt = 0 then if b = 0x00 then .rxSkip0 else .rxFirst b
         else if s.eng.cnt + 1 < s.eng.hlen then .rxHdr b
         else if s.eng.hlen ≤ s.eng.cnt then .rxPay b
         else if s.eng.hlen ≠ s.par.hlenShort then .rxLen6 b
         else if byteAt s.eng.acc 0 = s.par.cmdSync ∨ byteAt s.eng.acc 0 = s.par.cmdSyncAnswer then .rxLenSync b
         else .rxLen4 b) s =
      .next (byteStep b (takeByte b s)) := by
  by_cases hcnt : s.eng.cnt = 0
  · rw [if_pos hcnt]
    split_ifs with hb
    · rw [hb]
      exact exec_rxSkip0_reading hr hcnt
    · exact exec_rxFirst_reading hr hcnt hb
  have hone : 1 ≤ s.eng.cnt := Nat.one_le_iff_ne_zero.2 hcnt
  rw [if_neg hcnt]
  split_ifs with hhdr hpay hlong hsync
  · exact exec_rxHdr_reading hr hone hhdr
  · exact exec_rxPay_reading hr hone hpay (hi.payload hone hpay).2
  · exact exec_rxLen6_reading hr hone (by omega) (hlen_eq_long_of_inv hi hone hlong) hlong
  · exact exec_rxLenSync_reading hr hone (by omega) (not_not.1 hlong) ((isSyncCode_iff _ _).2 hsync.symm)
  · refine exec_rxLen4_reading hr hone (by omega) (not_not.1 hlong) (Bool.eq_false_iff.2 fun h => hsync ?_)
    exact ((isSyncCode_iff _ _).1 h).symm

/-- Settles O20: a class row offers its byte, and what the offered byte does is decided by the reader's place in the loop. -/
theorem byteRowsOfferTheirByte : Obligations.ByteRowsOfferTheirByte := by
  unfold Obligations.ByteRowsOfferTheirByte
  intro s b hi _
  rw [exec_classOf b s]
  refine ⟨?reading, ?arm, ?stopChk, ?stopped⟩
  case reading =>
    intro hrun hin
    rw [exec_selectedRow b hi ((reading_iff s).2 ⟨hrun, hin⟩), offerByte_reading b hrun hin]
  case arm =>
    intro hrun hin hstop
    rw [offerByte_arm b hrun hin hstop]
    exact (exec_classOf b (arm s)).symm
  case stopChk =>
    intro hrun hin hstop
    rw [offerByte_stopChk b hrun hin hstop, stopChk]
  case stopped =>
    intro hrun
    rw [offerByte_stopped b hrun]

/-! ### The first byte of a frame (R165, R166) -/

/-- At an empty accumulator, a byte other than 0x00 starts a frame. -/
theorem offerByte_first {b : Byte} {s : State} (hrun : s.eng.run = true) (hin : s.eng.inflight = true)
    (hcnt : s.eng.cnt = 0) (hb : b ≠ 0x00) :
    offerByte b s = buffered b [b] (hlenOf s.par b) (hlenOf s.par b) s := by
  rw [offerByte_reading b hrun hin, byteStep_start (s := takeByte b s) hcnt, if_neg hb]
  rfl

/-- A byte other than MESSAGE starts a frame with the short header (R85). -/
theorem offerByte_first_short {b : Byte} {s : State} (hrun : s.eng.run = true) (hin : s.eng.inflight = true)
    (hcnt : s.eng.cnt = 0) (hb : b ≠ 0x00) (hmessage : b ≠ s.par.cmdMessage) :
    offerByte b s = buffered b [b] s.par.hlenShort s.par.hlenShort s := by
  rw [offerByte_first hrun hin hcnt hb, hlenOf, if_neg hmessage]

theorem ctrl_ne_zero : ∀ c : BitVec 7, c ≠ 0 → (0#1 ++ c : Byte) ≠ 0x00 := by decide

theorem ctrlAck_ne_zero : ∀ c : BitVec 7, (1#1 ++ c : Byte) ≠ 0x00 := by decide

/-- Settles O21, by the class: ZERO is skipped, MESSAGE has the long header, the others have the short one. -/
theorem firstByteRowsStartFrames : Obligations.FirstByteRowsStartFrames := by
  unfold Obligations.FirstByteRowsStartFrames
  intro s c hok hrun hin hcnt
  have hp := Params.facts hok
  have short {b : Byte} (hb : b ≠ 0x00) (hmessage : b ≠ s.par.cmdMessage) :=
    congrArg (Host.Outcome.next (φ := Fault) (ρ := Refusal)) (offerByte_first_short hrun hin hcnt hb hmessage)
  refine ⟨?zero, ?message, short hp.answerNeZero hp.messageNeAnswer.symm, short hp.syncNeZero hp.messageNeSync.symm,
    short hp.errorNeZero hp.messageNeError.symm, fun hc => short (ctrl_ne_zero c hc), short (ctrlAck_ne_zero c)⟩
  case zero =>
    show Host.Outcome.next (offerByte 0x00 s) = _
    rw [offerByte_reading 0x00 hrun hin, byteStep_start (s := takeByte 0x00 s) hcnt, if_pos rfl, takeByte]
  case message =>
    show Host.Outcome.next (offerByte s.par.cmdMessage s) = _
    rw [offerByte_first hrun hin hcnt hp.messageNeZero, hlenOf, if_pos rfl]

end Sys2Proof.Machine
end

section
/-!
PROOFS. ENC by its rows (R110 to R115): the frame or the error that each call returns, and what it writes; and the sequence
tags of the calls that are accepted one after the other (R117).
-/

namespace Sys2Proof.Machine

open Sys2Proof Sys2Proof.Safety

/-! ### What a call returns and writes -/

/-- A rejected ENC call raises its error and writes nothing (R273). -/
theorem hostEnc_error {command flags length : Nat} {payload : List Byte} {c : Cause} {s : State}
    (h : encodeFrame s.par s.eng.seqTx command flags length payload = .error c) :
    hostEnc command flags length payload s = returned (.error (.engine c)) s := by
  simp only [hostEnc, h]
  exact hostRaise_eq c s

theorem exec_encSync (s : State) (flags length : Nat) (payload : List Byte) :
    exec (.encSync flags length payload) s =
      .next (returned (.bytes (syncFrame s.par)) { s with eng.seqTx := 0 }) :=
  congrArg _ (hostEnc_ok (encodeFrame_sync _ _ _ _ _))

section Rows

variable {s : State} {command flags length : Nat} {payload : List Byte}

theorem exec_encCtrl (hp : s.par.Facts) (hrange : s.par.inRange command = true)
    (hmessage : command ≠ s.par.cmdMessage.toNat) (hfields : fieldError s.par command flags length payload = none) :
    exec (.encCtrl command flags length payload) s =
      .next
        (returned (.bytes (withPayload (headerF4 command s.eng.seqTx flags length) length payload))
          { s with eng.seqTx := s.eng.seqTx + 1 }) :=
  congrArg _ (hostEnc_ok (encodeFrame_ctrl hp _ hrange hmessage hfields))

theorem exec_encMsg (hp : s.par.Facts) (hfields : fieldError s.par s.par.cmdMessage.toNat flags length payload = none) :
    exec (.encMsg flags length payload) s =
      .next
        (returned (.bytes (withPayload (headerF6 s.par s.eng.seqTx flags length) length payload))
          { s with eng.seqTx := s.eng.seqTx + 1 }) :=
  congrArg _ (hostEnc_ok (encodeFrame_msg hp _ hfields))

theorem exec_encBadCommand (hsync : command ≠ s.par.cmdSync.toNat) (hrange : s.par.inRange command = false) :
    exec (.encBadCommand command flags length payload) s =
      .next (returned (.error (.engine (.badCommand command))) s) :=
  congrArg _ (hostEnc_error (encodeFrame_badCommand _ hsync hrange))

theorem exec_encBadField (hp : s.par.Facts) {c : Cause} (hrange : s.par.inRange command = true)
    (hfields : fieldError s.par command flags length payload = some c) :
    exec (.encBadField command flags length payload) s = .next (returned (.error (.engine c)) s) :=
  congrArg _ (hostEnc_error (encodeFrame_badField hp _ hrange hfields))

end Rows

/-! ### The frame, the counter and the field tests in the words of R110 to R115 -/

theorem withPayload_eq (header : List Byte) (length : Nat) (payload : List Byte) :
    withPayload header length payload = header ++ if length > 0 then payload else [] := by
  unfold withPayload
  split_ifs
  · rfl
  · exact (List.append_nil header).symm

theorem byteAt_withPayload {header : List Byte} {i : Nat} (h : i < header.length) (length : Nat) (payload : List Byte) :
    byteAt (withPayload header length payload) i = byteAt header i := by
  rw [withPayload_eq, byteAt_append_left _ _ _ h]

/-- A tag counts modulo 256 (R112, R113, R117). -/
theorem toNat_seq_add (seq : BitVec 8) (n : Nat) : (seq + BitVec.ofNat 8 n).toNat = (seq.toNat + n) % 256 := by
  rw [BitVec.toNat_add, BitVec.toNat_ofNat, Nat.add_mod_mod]

theorem seq_succ_eq (seq : BitVec 8) : seq + 1 = BitVec.ofNat 8 ((seq.toNat + 1) % 256) := by
  rw [← toNat_seq_add, BitVec.ofNat_toNat, BitVec.setWidth_eq]
  rfl

/-- When a test of R115 fails, the error records all that failed (log 21). -/
theorem fieldError_of_failed {p : Params} {command flags length : Nat} {payload : List Byte}
    (h : flags > fieldLimit p command ∨ length > fieldLimit p command ∨ (length > 0 ∧ payload.length ≠ length)) :
    fieldError p command flags length payload =
      some
        (.badField (decide (flags > fieldLimit p command)) (decide (length > fieldLimit p command))
          (decide (length > 0 ∧ payload.length ≠ length))) := by
  unfold fieldError
  dsimp only
  rw [← Bool.decide_and, if_pos (by simpa [or_assoc] using h)]

/-! ### The rows (R111 to R115) -/

/-- Settles O7: ENC.SYNC's row, whose frame is the fixed one. -/
theorem encSyncReturnsTheSyncFrame : Obligations.EncSyncReturnsTheSyncFrame := by
  unfold Obligations.EncSyncReturnsTheSyncFrame
  exact exec_encSync

/-- Settles O8: ENC.CTRL's row, its premises being that the fields pass R115's tests for a command other than MESSAGE. -/
theorem encCtrlReturnsTheF4Frame : Obligations.EncCtrlReturnsTheF4Frame := by
  unfold Obligations.EncCtrlReturnsTheF4Frame
  intro s command flags length payload hok hrange hmessage hflags hlength hpayload
  have hlimit : fieldLimit s.par command = 255 := if_neg hmessage
  have hfields : fieldError s.par command flags length payload = none :=
    (fieldError_eq_none _ _ _ _ _).2 ⟨hlimit ▸ hflags, hlimit ▸ hlength, hpayload⟩
  rw [exec_encCtrl (Params.facts hok) hrange hmessage hfields, withPayload_eq, seq_succ_eq, headerF4]

/-- Settles O9: ENC.MSG's row, its premises being that the fields pass R115's tests for MESSAGE. -/
theorem encMsgReturnsTheF6Frame : Obligations.EncMsgReturnsTheF6Frame := by
  unfold Obligations.EncMsgReturnsTheF6Frame
  intro s flags length payload hok hflags hlength hpayload
  have hlimit : fieldLimit s.par s.par.cmdMessage.toNat = 65535 := if_pos rfl
  have hfields : fieldError s.par s.par.cmdMessage.toNat flags length payload = none :=
    (fieldError_eq_none _ _ _ _ _).2 ⟨hlimit ▸ hflags, hlimit ▸ hlength, hpayload⟩
  rw [exec_encMsg (Params.facts hok) hfields, withPayload_eq, seq_succ_eq, headerF6]

/-- Settles O10: a command outside the range is BadCommand's row, a failed test of the fields is BadField's. -/
theorem encRejectsWithoutWriting : Obligations.EncRejectsWithoutWriting := by
  unfold Obligations.EncRejectsWithoutWriting
  intro s command flags length payload hok
  refine ⟨fun hsync houtside => exec_encBadCommand hsync ?_, ?_⟩
  · rw [Bool.eq_false_iff, Ne, Params.inRange_iff]
    omega
  · rintro _ hrange rfl hfailed
    exact exec_encBadField (Params.facts hok) hrange (fieldError_of_failed hfailed)

/-! ### Calls one after the other (R117) -/

/-- An accepted call other than a sync returns a frame that carries `SEQ_TX` as byte 1, and advances it (R112, R113). -/
theorem exec_acceptedTagged {s : State} {i : Instr} (hp : s.par.Facts) (hi : acceptedTagged i = true)
    (hwf : i.wf s.par = true) :
    ∃ bytes, exec i s = .next (returned (.bytes bytes) { s with eng.seqTx := s.eng.seqTx + 1 })
      ∧ byteAt bytes 1 = s.eng.seqTx := by
  cases i
  case encCtrl command flags length payload =>
    obtain ⟨-, hrange, hmessage, hfit⟩ := (wf_encCtrl_iff _ _ _ _ _).1 hwf
    refine ⟨_, exec_encCtrl hp hrange hmessage ((fieldsFit_iff _ _ _ _ _).1 hfit), ?_⟩
    exact byteAt_withPayload (by simp [headerF4]) _ _
  case encMsg flags length payload =>
    refine ⟨_, exec_encMsg hp ((fieldsFit_iff _ _ _ _ _).1 hwf), ?_⟩
    exact byteAt_withPayload (by simp [headerF6]) _ _
  all_goals exact nomatch hi

/-- A rejected call returns its error and leaves the state as it is (R114, R115). -/
theorem exec_rejected {s : State} {i : Instr} (hp : s.par.Facts) (hi : taggedOrRejected i = true)
    (hrejected : acceptedTagged i = false) (hwf : i.wf s.par = true) :
    ∃ c, exec i s = .next (returned (.error (.engine c)) s) := by
  cases i
  case encBadCommand command flags length payload =>
    obtain ⟨hsync, hrange⟩ := (wf_encBadCommand_iff _ _ _ _ _).1 hwf
    exact ⟨_, exec_encBadCommand hsync hrange⟩
  case encBadField command flags length payload =>
    obtain ⟨-, hrange, hfit⟩ := (wf_encBadField_iff _ _ _ _ _).1 hwf
    have hfields : fieldError s.par command flags length payload ≠ none := fun h =>
      Bool.eq_false_iff.1 hfit ((fieldsFit_iff _ _ _ _ _).2 h)
    obtain ⟨c, hc⟩ := Option.ne_none_iff_exists'.1 hfields
    exact ⟨c, exec_encBadField hp hrange hc⟩
  case encCtrl | encMsg => exact nomatch hrejected
  all_goals exact nomatch hi

theorem execAll_cons_next {i : Instr} {s t : State} (h : exec i s = .next t) (rest : List Instr) :
    execAll (i :: rest) s = execAll rest t := by
  simp only [execAll, h]

/-- Calls other than syncs run to an end, and each that is accepted moves `SEQ_TX` on by one. -/
theorem execAll_seqTx {calls : List Instr} {s : State} (hp : s.par.Facts)
    (hcalls : ∀ j ∈ calls, taggedOrRejected j = true ∧ j.wf s.par = true) :
    ∃ t, execAll calls s = .next t ∧ t.par = s.par
      ∧ t.eng.seqTx = s.eng.seqTx + BitVec.ofNat 8 (calls.countP acceptedTagged) := by
  induction calls generalizing s with
  | nil => exact ⟨s, rfl, rfl, (BitVec.add_zero _).symm⟩
  | cons i rest ih =>
    obtain ⟨⟨hi, hwf⟩, hrest⟩ := List.forall_mem_cons.1 hcalls
    cases hacc : acceptedTagged i with
    | true =>
      obtain ⟨bytes, hexec, -⟩ := exec_acceptedTagged hp hacc hwf
      obtain ⟨t, hrun, hpar, hseq⟩ := ih (s := returned (.bytes bytes) { s with eng.seqTx := s.eng.seqTx + 1 }) hp hrest
      refine ⟨t, (execAll_cons_next hexec rest).trans hrun, hpar, ?_⟩
      rw [hseq, List.countP_cons_of_pos hacc, Nat.add_comm, BitVec.ofNat_add, ← BitVec.add_assoc]
      rfl
    | false =>
      obtain ⟨c, hexec⟩ := exec_rejected hp hi hacc hwf
      obtain ⟨t, hrun, hpar, hseq⟩ := ih (s := returned (.error (.engine c)) s) hp hrest
      refine ⟨t, (execAll_cons_next hexec rest).trans hrun, hpar, ?_⟩
      rw [hseq, List.countP_cons_of_neg (by simp [hacc])]
      rfl

/-- Settles O11: the calls before have moved `SEQ_TX` on by the number accepted, and the call itself tags with it and moves it
on by one. -/
theorem sequenceTagsAreConsecutive : Obligations.SequenceTagsAreConsecutive := by
  unfold Obligations.SequenceTagsAreConsecutive
  intro s calls i hok hcalls hi hwf
  have hp := Params.facts hok
  obtain ⟨t, hrun, hpar, hseq⟩ := execAll_seqTx hp hcalls
  obtain ⟨bytes, hexec, htag⟩ := exec_acceptedTagged (s := t) (hpar ▸ hp) hi (hpar ▸ hwf)
  refine ⟨t, _, bytes, hrun, hexec, rfl, ?tag, ?next⟩
  case tag => rw [htag, hseq, toNat_seq_add]
  case next =>
    show (t.eng.seqTx + BitVec.ofNat 8 1).toNat = _
    rw [toNat_seq_add, hseq, toNat_seq_add, Nat.mod_add_mod]

end Sys2Proof.Machine
end

section
/-!
PROOFS. DEC by its rows (R130 to R140): the record or the parse error that each call returns; that DEC gives back what ENC
was given (R142); and that a whole frame's only parse error is BodyShort (R143).
-/

namespace Sys2Proof.Machine

open Sys2Proof Sys2Proof.Safety

/-! ### What a call returns -/

/-- A DEC call that the decoder accepts returns its record. -/
theorem hostDec_ok {raw : List Byte} {d : Decoded} {s : State} (h : decodeFrame s.par raw = .ok d) :
    hostDec raw s = returned (.record d) s := by
  simp only [hostDec, h]
  exact hostReturn_eq _ s

/-- A DEC call that the decoder rejects raises its parse error (R272). -/
theorem hostDec_error {raw : List Byte} {c : Cause} {s : State} (h : decodeFrame s.par raw = .error c) :
    hostDec raw s = returned (.error (.engine c)) s := by
  simp only [hostDec, h]
  exact hostRaise_eq c s

/-! ### The parse errors (R131, R140) -/

theorem decodeFrame_empty (p : Params) : decodeFrame p [] = .error .emptyInput := rfl

theorem decodeFrame_zeroStart (p : Params) (raw : List Byte) : decodeFrame p (0x00 :: raw) = .error .zeroStart := rfl

theorem decodeFrame_short {p : Params} {b : Byte} {raw : List Byte} (hb : b ≠ 0x00)
    (hshort : raw.length + 1 < hlenOf p b) :
    decodeFrame p (b :: raw) = .error (.short (raw.length + 1) (hlenOf p b)) := by
  rw [decodeFrame, if_neg (by simp), if_neg (by exact hb)]
  exact if_pos hshort

/-- A MESSAGE frame whose payload cannot hold a body's fixed part (R140). -/
theorem decodeFrame_bodyShort {p : Params} (hp : p.Facts) {raw : List Byte} (hmessage : byteAt raw 0 = p.cmdMessage)
    (hne : 1 ≤ raw.length) (hheader : p.hlenLong ≤ raw.length) (hbody : raw.length < p.hlenLong + p.bodyPrefix) :
    decodeFrame p raw = .error (.bodyShort (raw.length - p.hlenLong)) := by
  rw [decodeFrame_f6 hp hmessage hne hheader, decF6Row, List.length_drop, if_pos (by omega)]

/-- Settles O14: each case is rejected by its own test, the ones before it having passed. -/
theorem decRejectsInOrder : Obligations.DecRejectsInOrder := by
  unfold Obligations.DecRejectsInOrder
  intro s raw hok
  refine ⟨?empty, ?zeroStart, fun b hb hshort => ?short, fun hheader hbody => ?bodyShort⟩ <;>
    refine congrArg Host.Outcome.next (hostDec_error ?_)
  case empty => exact decodeFrame_empty s.par
  case zeroStart => exact decodeFrame_zeroStart s.par raw
  case short => exact decodeFrame_short hb hshort
  case bodyShort => exact decodeFrame_bodyShort (Params.facts hok) rfl (by simp) hheader hbody

/-! ### Fields as words (R53, R54) -/

/-- Putting a byte below a word. -/
theorem toNat_append_byte {n : Nat} (high : BitVec n) (low : Byte) :
    (high ++ low).toNat = low.toNat + 256 * high.toNat := by
  rw [BitVec.toNat_append, ← Nat.shiftLeft_add_eq_or_of_lt low.isLt, Nat.shiftLeft_eq]
  omega

/-- A field read as a word is its first byte below the field after it. -/
theorem ofNat_memRead_succ (n k : Nat) (buf : List Byte) (off : Nat) :
    BitVec.ofNat (n + 8) (memRead buf off (k + 1)) = BitVec.ofNat n (memRead buf (off + 1) k) ++ byteAt buf off := by
  have := (byteAt buf off).isLt
  refine BitVec.eq_of_toNat_eq ?_
  rw [toNat_append_byte, BitVec.toNat_ofNat, BitVec.toNat_ofNat, memRead_succ, Nat.pow_add',
    show 2 ^ 8 = 256 from rfl, Nat.mod_mul, Nat.add_mul_mod_self_left, Nat.add_mul_div_left _ _ (by omega)]
  rw [Nat.mod_eq_of_lt this, Nat.div_eq_of_lt this, Nat.zero_add]

theorem ofNat_memRead_one (n : Nat) (buf : List Byte) (off : Nat) :
    BitVec.ofNat n (memRead buf off 1) = (byteAt buf off).setWidth n := by
  rw [memRead_one, BitVec.ofNat_toNat]

theorem ofNat_memRead_two (buf : List Byte) (off : Nat) :
    BitVec.ofNat 16 (memRead buf off 2) = byteAt buf (off + 1) ++ byteAt buf off := by
  rw [ofNat_memRead_succ 8 1, ofNat_memRead_one, BitVec.setWidth_eq]

theorem ofNat_memRead_four (buf : List Byte) (off : Nat) :
    BitVec.ofNat 32 (memRead buf off 4) =
      byteAt buf (off + 3) ++ byteAt buf (off + 2) ++ byteAt buf (off + 1) ++ byteAt buf off := by
  rw [ofNat_memRead_succ 24 3, ofNat_memRead_succ 16 2, ofNat_memRead_two]

/-! ### The derived bits (R134 to R136, R139) -/

/-- A test for difference, in the words of the statements. -/
theorem bne_eq_decide_ne {α : Type} [DecidableEq α] (a b : α) : (a != b) = decide (a ≠ b) := by
  rw [bne, beq_eq_decide, decide_not]

theorem answerBitMeaningful_eq_false {p : Params} {b : Byte} (h : isSyncCode p b = true) :
    answerBitMeaningful p b = false := by
  simp [answerBitMeaningful, h]

/-- Of the commands that are no sync code, only the generic error command has no answer bit. -/
theorem answerBitMeaningful_of_notSync {p : Params} {b : Byte} (h : isSyncCode p b = false) :
    answerBitMeaningful p b = decide (b ≠ p.cmdError) := by
  rw [answerBitMeaningful, h, Bool.false_or, ← bne, bne_eq_decide_ne]

theorem exposedCommand_of_sync {p : Params} {b : Byte} (h : isSyncCode p b = true) : exposedCommand p b = b := by
  simp [exposedCommand, answerBitMeaningful_eq_false h]

theorem isPositiveAnswer_of_sync {p : Params} {b : Byte} (h : isSyncCode p b = true) : isPositiveAnswer p b = false := by
  simp [isPositiveAnswer, answerBitMeaningful_eq_false h]

theorem exposedCommand_of_notSync {p : Params} {b : Byte} (h : isSyncCode p b = false) :
    exposedCommand p b = if b = p.cmdError then b else b &&& ~~~p.answerBit := by
  simp [exposedCommand, answerBitMeaningful_of_notSync h]

theorem isPositiveAnswer_of_notSync {p : Params} {b : Byte} (h : isSyncCode p b = false) :
    isPositiveAnswer p b = decide (b ≠ p.cmdError ∧ b &&& p.answerBit ≠ 0) := by
  rw [isPositiveAnswer, answerBitMeaningful_of_notSync h, bne_eq_decide_ne, Bool.decide_and]

theorem and_not_of_disjoint {b m : Byte} (h : b &&& m = 0) : b &&& ~~~m = b :=
  calc b &&& ~~~m = (b &&& m) ||| (b &&& ~~~m) := by rw [h]; exact BitVec.zero_or.symm
    _ = b &&& (m ||| ~~~m) := BitVec.and_or_distrib_left.symm
    _ = b := by rw [BitVec.or_not_self, BitVec.and_allOnes]

/-- A command without any answer bit is exposed as it is. -/
theorem exposedCommand_of_disjoint {p : Params} {b : Byte} (h : b &&& p.answerBit = 0) : exposedCommand p b = b := by
  rw [exposedCommand, and_not_of_disjoint h, ite_self]

theorem isPositiveAnswer_of_disjoint {p : Params} {b : Byte} (h : b &&& p.answerBit = 0) :
    isPositiveAnswer p b = false := by
  simp [isPositiveAnswer, h]

theorem lenMismatch_eq (payload : List Byte) (n : Nat) : lenMismatch payload n = decide (payload.length ≠ n) :=
  bne_eq_decide_ne _ _

theorem lenMismatch_eq_false {payload : List Byte} {n : Nat} (h : payload.length = n) : lenMismatch payload n = false := by
  simp [lenMismatch, h]

theorem isErrorFrame_eq (dlc : Nat) (data : List Byte) : isErrorFrame dlc data = decide (dlc ≠ data.length) :=
  bne_eq_decide_ne _ _

theorem isSyncOk_eq (p : Params) (raw : List Byte) :
    isSyncOk p raw = decide (raw = [p.cmdSyncAnswer, 0x00, p.cmdSyncAnswer, 0x00]) :=
  beq_eq_decide _ _

/-! ### The records (R132, R133, R137) -/

/-- Settles O15: DEC.FS's row, of a frame that starts with a sync code. -/
theorem decFsRecord : Obligations.DecFsRecord := by
  unfold Obligations.DecFsRecord
  intro s raw hok hne hheader hstart
  have hsync : isSyncCode s.par (byteAt raw 0) = true := (isSyncCode_iff _ _).2 hstart.symm
  show Host.Outcome.next (hostDec raw s) = _
  rw [hostDec_ok (decodeFrame_fs (Params.facts hok) hsync hne hheader), decFsRow, exposedCommand_of_sync hsync,
    isPositiveAnswer_of_sync hsync, ofNat_memRead_one, isSyncOk_eq, lenMismatch_eq, List.length_drop]

/-- Settles O16: DEC.F4's row, of a frame that starts with neither 0x00 nor MESSAGE nor a sync code. -/
theorem decF4Record : Obligations.DecF4Record := by
  unfold Obligations.DecF4Record
  intro s raw _ hne hheader hzero hmessage hsync hanswer
  have hnotSync : isSyncCode s.par (byteAt raw 0) = false :=
    Bool.eq_false_iff.2 fun h => ((isSyncCode_iff _ _).1 h).elim hanswer hsync
  show Host.Outcome.next (hostDec raw s) = _
  rw [hostDec_ok (decodeFrame_f4 hzero hnotSync hmessage hne hheader), decF4Row, exposedCommand_of_notSync hnotSync,
    isPositiveAnswer_of_notSync hnotSync, ofNat_memRead_one, ofNat_memRead_one, memRead_one, lenMismatch_eq,
    List.length_drop]

/-- A MESSAGE frame whose payload holds a body's fixed part has a byte, and its whole header (R9). -/
theorem message_lengths {p : Params} (hp : p.Facts) {raw : List Byte}
    (hbody : p.bodyPrefix ≤ (raw.drop p.hlenLong).length) : 1 ≤ raw.length ∧ p.hlenLong ≤ raw.length := by
  have := hp.dlcFits
  rw [List.length_drop] at hbody
  omega

/-- The body's fields are little-endian words (R138, R139). -/
theorem decodeBody_eq (p : Params) (payload : List Byte) :
    decodeBody p payload =
      { w0 := byteAt payload 3 ++ byteAt payload 2 ++ byteAt payload 1 ++ byteAt payload 0
        w1 := byteAt payload 7 ++ byteAt payload 6 ++ byteAt payload 5 ++ byteAt payload 4
        w2 := byteAt payload 11 ++ byteAt payload 10 ++ byteAt payload 9 ++ byteAt payload 8
        w3 := byteAt payload 15 ++ byteAt payload 14 ++ byteAt payload 13 ++ byteAt payload 12
        dlc := byteAt payload (p.bodyDlcOff + 1) ++ byteAt payload p.bodyDlcOff
        data := payload.drop p.bodyPrefix
        isErrorFrame :=
          decide
            ((byteAt payload p.bodyDlcOff).toNat + 256 * (byteAt payload (p.bodyDlcOff + 1)).toNat
              ≠ payload.length - p.bodyPrefix) } := by
  rw [decodeBody, ofNat_memRead_four, ofNat_memRead_four, ofNat_memRead_four, ofNat_memRead_four, ofNat_memRead_two,
    isErrorFrame_eq, memRead_two, List.length_drop]

/-- Settles O17: DEC.F6's row, of a MESSAGE frame whose payload holds a body's fixed part. -/
theorem decF6Record : Obligations.DecF6Record := by
  unfold Obligations.DecF6Record
  rintro s raw _ hok hmessage rfl hbody
  have hp := Params.facts hok
  obtain ⟨hne, hheader⟩ := message_lengths hp hbody
  have hrow := (decodeFrame_f6 hp hmessage hne hheader).trans (if_neg (Nat.not_lt.2 hbody))
  show Host.Outcome.next (hostDec raw s) = _
  rw [hostDec_ok hrow, hmessage, decodeBody_eq, ofNat_memRead_two, ofNat_memRead_two, memRead_two, lenMismatch_eq]

/-! ### Whole frames (R143) -/

/-- A control frame is decoded, and its lengths agree. -/
theorem decodeFrame_controlFrame {p : Params} (hp : p.Facts) {f : Frame} (hne : 1 ≤ f.length) (h : ControlFrame p f) :
    ∃ d, decodeFrame p f = .ok d ∧ d.lenMismatch = false := by
  obtain ⟨hzero, hmessage, hheader, -, hwhole⟩ := h
  cases hsync : isSyncCode p (byteAt f 0) with
  | true =>
    refine ⟨_, decodeFrame_fs hp hsync hne hheader, lenMismatch_eq_false ?_⟩
    rw [plen, if_pos hsync] at hwhole
    rw [List.length_drop]
    omega
  | false =>
    refine ⟨_, decodeFrame_f4 hzero hsync hmessage hne hheader, lenMismatch_eq_false ?_⟩
    rw [plen, if_neg (by simp [hsync]), if_neg hmessage] at hwhole
    rw [List.length_drop]
    omega

/-- A MESSAGE frame is decoded when its length field leaves room for a body's fixed part, and its lengths agree. -/
theorem decodeFrame_messageFrame {p : Params} (hp : p.Facts) {f : Frame} (h : MessageFrame p f)
    (hbody : p.bodyPrefix ≤ memRead f 4 2) :
    ∃ d, decodeFrame p f = .ok d ∧ d.lenMismatch = false := by
  obtain ⟨hmessage, hwhole⟩ := h
  have hpayload : (f.drop p.hlenLong).length = memRead f 4 2 := by rw [List.length_drop]; omega
  rw [← hpayload] at hbody
  obtain ⟨hne, hheader⟩ := message_lengths hp hbody
  exact ⟨_, (decodeFrame_f6 hp hmessage hne hheader).trans (if_neg (Nat.not_lt.2 hbody)), lenMismatch_eq_false hpayload⟩

/-- Settles O19: a control frame by its two formats, a MESSAGE frame by whether its length field leaves room for a body. -/
theorem queuedFramesDecode : Obligations.QueuedFramesDecode := by
  unfold Obligations.QueuedFramesDecode
  intro p f hok hf
  have hp := Params.facts hok
  have hne : 1 ≤ f.length := List.length_pos_iff.2 hf
  refine ⟨decodeFrame_controlFrame hp hne, fun hframe => ?_⟩
  split_ifs with hbody
  · obtain ⟨hmessage, hwhole⟩ := hframe
    rw [decodeFrame_bodyShort hp hmessage hne (by omega) (by omega), show f.length - p.hlenLong = memRead f 4 2 by omega]
  · exact decodeFrame_messageFrame hp hframe (Nat.le_of_not_lt hbody)

/-! ### DEC of what ENC returns (R142) -/

/-- The record shows an ENC call's command, tag, fields and payload, and is neither an answer nor of the wrong length. -/
structure ShowsCall (d : Decoded) (command : Nat) (seq : BitVec 8) (flags : Nat) (payload : List Byte) : Prop where
  command : d.command.toNat = command
  notAnswer : d.isPositiveAnswer = false
  sequence : d.sequence = seq
  flags : d.flags.toNat = flags
  dataLength : d.dataLength.toNat = payload.length
  payload : d.payload = payload
  lengthsAgree : d.lenMismatch = false

/-- A field of at most 16 bits is not changed by its word. -/
theorem toNat_ofNat_of_field {buf : List Byte} {off k v : Nat} (h : memRead buf off k = v) (hv : v ≤ 65535) :
    (BitVec.ofNat 16 (memRead buf off k)).toNat = v := by
  rw [BitVec.toNat_ofNat, h]
  omega

/-- DEC of an F4 frame that shows its payload, of a request without any answer bit. -/
theorem decodeFrame_headerF4 {p : Params} (hheader : p.hlenShort = 4) {command flags : Nat} (seq : BitVec 8)
    {payload : List Byte} (hcommand : command < 256) (hzero : command ≠ 0) (hmessage : command ≠ p.cmdMessage.toNat)
    (hsync : command ≠ p.cmdSync.toNat) (hanswer : command ≠ p.cmdSyncAnswer.toNat)
    (hbit : BitVec.ofNat 8 command &&& p.answerBit = 0) (hflags : flags ≤ 255) (hlength : payload.length ≤ 255) :
    ∃ d, decodeFrame p (headerF4 command seq flags payload.length ++ payload) = .ok d
      ∧ ShowsCall d command seq flags payload ∧ d.body = none := by
  set raw := headerF4 command seq flags payload.length ++ payload
  have hbyte : (BitVec.ofNat 8 command).toNat = command := toNat_byte_of_lt hcommand
  have hne {b : Byte} (h : command ≠ b.toNat) : byteAt raw 0 ≠ b := fun e => h (e ▸ hbyte.symm)
  have hnotSync : isSyncCode p (byteAt raw 0) = false :=
    Bool.eq_false_iff.2 fun h => ((isSyncCode_iff _ _).1 h).elim (hne hanswer) (hne hsync)
  have hshown : raw.drop p.hlenShort = payload := by rw [hheader]; rfl
  have hreadFlags : memRead raw 2 1 = flags := (memRead_one _ _).trans (toNat_byte_of_lt (by omega))
  have hreadLength : memRead raw 3 1 = payload.length := (memRead_one _ _).trans (toNat_byte_of_lt (by omega))
  have hlengthRaw : raw.length = payload.length + 4 := rfl
  exact ⟨_, decodeFrame_f4 (hne hzero) hnotSync (hne hmessage) (by omega) (by omega),
    { command := (congrArg _ (exposedCommand_of_disjoint hbit)).trans hbyte
      notAnswer := isPositiveAnswer_of_disjoint hbit
      sequence := rfl
      flags := toNat_ofNat_of_field hreadFlags (by omega)
      dataLength := toNat_ofNat_of_field hreadLength (by omega)
      payload := hshown
      lengthsAgree := lenMismatch_eq_false ((congrArg _ hshown).trans hreadLength.symm) }, rfl⟩

/-- DEC of an F6 frame that shows its payload, which holds a body's fixed part. -/
theorem decodeFrame_headerF6 {p : Params} (hp : p.Facts) (hheader : p.hlenLong = 6) {flags : Nat} (seq : BitVec 8)
    {payload : List Byte} (hflags : flags ≤ 65535) (hlength : payload.length ≤ 65535)
    (hbody : p.bodyPrefix ≤ payload.length) :
    ∃ d, decodeFrame p (headerF6 p seq flags payload.length ++ payload) = .ok d
      ∧ ShowsCall d p.cmdMessage.toNat seq flags payload ∧ d.body.isSome = true := by
  set raw := headerF6 p seq flags payload.length ++ payload
  have hshown : raw.drop p.hlenLong = payload := by rw [hheader]; rfl
  rw [← hshown] at hbody
  obtain ⟨hne, hwhole⟩ := message_lengths hp hbody
  have hreadFlags : memRead raw 2 2 = flags := (memRead_two _ _).trans (toNat_low_add_high (by omega))
  have hreadLength : memRead raw 4 2 = payload.length := (memRead_two _ _).trans (toNat_low_add_high (by omega))
  exact ⟨_, (decodeFrame_f6 hp rfl hne hwhole).trans (if_neg (Nat.not_lt.2 hbody)),
    { command := rfl
      notAnswer := rfl
      sequence := rfl
      flags := toNat_ofNat_of_field hreadFlags hflags
      dataLength := toNat_ofNat_of_field hreadLength hlength
      payload := hshown
      lengthsAgree := lenMismatch_eq_false ((congrArg _ hshown).trans hreadLength.symm) }, rfl⟩

/-- An accepted ENC call that is no sync is a request with fields that fit, and its frame is its format's (R110). -/
theorem encodeFrame_ok_cases {p : Params} (hp : p.Facts) {seq seq' : BitVec 8} {command flags length : Nat}
    {payload bytes : List Byte} (hsync : command ≠ p.cmdSync.toNat)
    (h : encodeFrame p seq command flags length payload = .ok (bytes, seq')) :
    p.inRange command = true ∧ fieldError p command flags length payload = none
      ∧ (command = p.cmdMessage.toNat ∧ bytes = withPayload (headerF6 p seq flags length) length payload
        ∨ command ≠ p.cmdMessage.toNat ∧ bytes = withPayload (headerF4 command seq flags length) length payload) := by
  cases hrange : p.inRange command with
  | false =>
    rw [encodeFrame_badCommand seq hsync hrange] at h
    exact nomatch h
  | true =>
    cases hfields : fieldError p command flags length payload with
    | some c =>
      rw [encodeFrame_badField hp seq hrange hfields] at h
      exact nomatch h
    | none =>
      refine ⟨rfl, rfl, ?_⟩
      by_cases hmessage : command = p.cmdMessage.toNat
      · subst hmessage
        rw [encodeFrame_msg hp seq hfields] at h
        exact .inl ⟨rfl, (Prod.mk.inj (Except.ok.inj h)).1.symm⟩
      · rw [encodeFrame_ctrl hp seq hrange hmessage hfields] at h
        exact .inr ⟨hmessage, (Prod.mk.inj (Except.ok.inj h)).1.symm⟩

/-- The payload that a frame shows is as long as the frame says (R110, R115). -/
theorem length_shownPayload {length : Nat} {payload : List Byte} (h : length > 0 → payload.length = length) :
    (if length > 0 then payload else []).length = length := by
  split_ifs with hpos
  · exact h hpos
  · exact (Nat.eq_zero_of_not_pos hpos).symm

/-- Settles O18: the call's frame is of its format, and DEC of either format shows the call. -/
theorem decReversesEnc : Obligations.DecReversesEnc := by
  unfold Obligations.DecReversesEnc
  intro p seq seq' command flags length payload bytes hok hheaderF4 hheaderF6 hanswer hsync hzero hbit hbody h
  have hp := Params.facts hok
  obtain ⟨hrange, hfields, hframe⟩ := encodeFrame_ok_cases hp hsync h
  obtain ⟨hflags, hlength, hpayload⟩ := (fieldError_eq_none p _ _ _ _).1 hfields
  have hshown := length_shownPayload hpayload
  rw [withPayload_eq, withPayload_eq] at hframe
  generalize (if length > 0 then payload else []) = shown at hframe hshown ⊢
  subst hshown
  obtain ⟨rfl, rfl⟩ | ⟨hmessage, rfl⟩ := hframe
  · rw [fieldLimit, if_pos rfl] at hflags hlength
    obtain ⟨d, hd, hcall, hsome⟩ := decodeFrame_headerF6 hp hheaderF6 seq hflags hlength (hbody rfl)
    exact ⟨d, hd, hcall.command, hcall.notAnswer, hcall.sequence, hcall.flags, hcall.dataLength, hcall.payload,
      hcall.lengthsAgree, iff_of_true hsome rfl⟩
  · rw [fieldLimit, if_neg hmessage] at hflags hlength
    obtain ⟨d, hd, hcall, hnone⟩ := decodeFrame_headerF4 hheaderF4 seq (hp.request hrange).1 hzero hmessage hsync hanswer
      (hbit hmessage) hflags hlength
    exact ⟨d, hd, hcall.command, hcall.notAnswer, hcall.sequence, hcall.flags, hcall.dataLength, hcall.payload,
      hcall.lengthsAgree, iff_of_false (by simp [hnone]) hmessage⟩

end Sys2Proof.Machine
end

section
/-!
PROOFS. The reader's rows (R160 to R173, R194): when each is enabled, what it writes then, and that it changes nothing else where
it is not (log 6).
-/

namespace Sys2Proof.Machine

open Sys2Proof Sys2Proof.Safety

/-! ### Enabled and not enabled -/

theorem whenEnabled_of_true {enabled : Bool} (h : enabled = true) (t s : State) : whenEnabled enabled t s = .next t := by
  rw [whenEnabled, h, if_pos rfl]

theorem whenEnabled_of_false {enabled : Bool} (h : enabled = false) (t s : State) : whenEnabled enabled t s = .next s := by
  rw [whenEnabled, h, if_neg Bool.false_ne_true]

theorem reading_eq_true {s : State} (hrun : s.eng.run = true) (hin : s.eng.inflight = true) : reading s = true :=
  (reading_iff s).2 ⟨hrun, hin⟩

theorem atTop_eq_true {s : State} (hrun : s.eng.run = true) (hin : s.eng.inflight = false) : atTop s = true :=
  (atTop_iff s).2 ⟨hrun, hin⟩

theorem reading_of_stopped {s : State} (hrun : s.eng.run = false) : reading s = false := by
  rw [reading, hrun, Bool.false_and]

theorem atTop_of_stopped {s : State} (hrun : s.eng.run = false) : atTop s = false := by
  rw [atTop, hrun, Bool.false_and]

theorem atComplete_of_stopped {s : State} (hrun : s.eng.run = false) : atComplete s = false := by
  simp only [atComplete, hrun, Bool.false_and]

theorem atHdr_iff (s : State) : atHdr s = true ↔ 1 ≤ s.eng.cnt ∧ s.eng.cnt + 1 < s.eng.hlen := by
  simp [atHdr]

theorem syncStarted_iff (s : State) : isSyncCode s.par (byteAt s.eng.acc 0) = true ↔ SyncStarted s := by
  rw [isSyncCode_iff, or_comm]

theorem atLen4_iff (s : State) :
    atLen4 s = true ↔ 1 ≤ s.eng.cnt ∧ s.eng.cnt + 1 = s.eng.hlen ∧ s.eng.hlen = s.par.hlenShort ∧ ¬SyncStarted s := by
  rw [← syncStarted_iff]
  simp [atLen4, and_assoc]

theorem atLenSync_iff (s : State) :
    atLenSync s = true ↔ 1 ≤ s.eng.cnt ∧ s.eng.cnt + 1 = s.eng.hlen ∧ s.eng.hlen = s.par.hlenShort ∧ SyncStarted s := by
  rw [← syncStarted_iff]
  simp [atLenSync, and_assoc]

theorem atLen6_iff (s : State) :
    atLen6 s = true ↔
      1 ≤ s.eng.cnt ∧ s.eng.cnt + 1 = s.eng.hlen ∧ s.eng.hlen = s.par.hlenLong ∧ s.eng.hlen ≠ s.par.hlenShort := by
  simp [atLen6, and_assoc]

theorem atPay_iff (s : State) :
    atPay s = true ↔ 1 ≤ s.eng.cnt ∧ s.eng.hlen ≤ s.eng.cnt ∧ s.eng.cnt < s.eng.total := by
  simp [atPay, and_assoc]

theorem atComplete_iff (s : State) :
    atComplete s = true ↔
      s.eng.run = true ∧ 1 ≤ s.eng.cnt ∧ s.eng.hlen ≤ s.eng.cnt ∧ s.eng.cnt = s.eng.total := by
  simp [atComplete, and_assoc]

/-- A row of R161 whose own condition does not hold changes nothing, whether or not a read is in flight. -/
theorem whenEnabled_reading_of_false {condition : Bool} (h : ¬condition = true) (t s : State) :
    whenEnabled (reading s && condition) t s = .next s :=
  whenEnabled_of_false (by rw [Bool.eq_false_iff.2 h, Bool.and_false]) t s

/-- A row of R161 changes nothing while no read is in flight. -/
theorem whenEnabled_of_not_reading {s : State} (h : reading s = false) (condition : Bool) (t : State) :
    whenEnabled (reading s && condition) t s = .next s :=
  whenEnabled_of_false (by rw [h, Bool.false_and]) t s

/-! ### The steps that consume no byte (R160, R162 to R164) -/

/-- Settles O22: each row is enabled in the state named and writes its bits. -/
theorem stepsThatConsumeNoByte : Obligations.StepsThatConsumeNoByte := by
  unfold Obligations.StepsThatConsumeNoByte
  intro s hrun
  refine ⟨fun hin hstop => ?arm, fun hin hstop => ?stopChk, fun hin => ?idle, fun hin => ?err⟩
  case arm => exact whenEnabled_of_true (by rw [atTop_eq_true hrun hin, hstop]; rfl) (arm s) s
  case stopChk => exact whenEnabled_of_true (by rw [atTop_eq_true hrun hin, hstop]; rfl) (stopChk s) s
  case idle => exact whenEnabled_of_true (reading_eq_true hrun hin) (idle s) s
  case err => exact whenEnabled_of_true (reading_eq_true hrun hin) (readError s) s

/-! ### A stopped reader (R160) -/

theorem readerTurn_stopped {s : State} (hrun : s.eng.run = false) : readerTurn s = s := by
  rw [readerTurn, if_neg (by rw [reading_of_stopped hrun]; exact Bool.false_ne_true),
    if_neg (by rw [atTop_of_stopped hrun]; exact Bool.false_ne_true)]

/-- Settles O33: every row of the reader asks for `RUN`, and so do an offered byte and the reader's own turn. -/
theorem stoppedReaderTakesNoStep : Obligations.StoppedReaderTakesNoStep := by
  unfold Obligations.StoppedReaderTakesNoStep
  intro s i b hrun hi
  have hreading := reading_of_stopped hrun
  have htop := atTop_of_stopped hrun
  constructor
  · obtain rfl | rfl | rfl | rfl | rfl | rfl | rfl | rfl | rfl | rfl | rfl | rfl | rfl := hi
    -- the rows of R161 that ask for a read in flight and one condition more
    any_goals exact whenEnabled_of_not_reading hreading _ _
    · exact whenEnabled_of_false (by rw [htop, Bool.false_and]) (arm s) s
    · exact whenEnabled_of_false (by rw [htop, Bool.false_and]) (stopChk s) s
    · exact whenEnabled_of_false hreading (idle s) s
    · exact whenEnabled_of_false hreading (readError s) s
    · exact whenEnabled_of_false (by rw [hreading, Bool.false_and, Bool.false_and]) _ s
    · exact whenEnabled_of_false (atComplete_of_stopped hrun) (completeFrame s) s
    · rw [exec_classOf, offerByte_stopped b hrun]
  · intro hscript hok
    rw [step_of_reader hok (fetchTurn_nil hscript), readerTurn_stopped hrun]

/-! ### One row for each byte (R161) -/

/-- The seven conditions of R161 part the states of R40: exactly one holds. -/
theorem count_enabledRows {s : State} (b : Byte) (hw : s.par.Headers) (hi : EngineInv s.par s.eng) :
    [decide (s.eng.cnt = 0 ∧ b = 0x00), decide (s.eng.cnt = 0 ∧ b ≠ 0x00),
        decide (1 ≤ s.eng.cnt ∧ s.eng.cnt + 1 < s.eng.hlen),
        decide (1 ≤ s.eng.cnt ∧ s.eng.cnt + 1 = s.eng.hlen ∧ s.eng.hlen = s.par.hlenShort ∧ ¬SyncStarted s),
        decide (1 ≤ s.eng.cnt ∧ s.eng.cnt + 1 = s.eng.hlen ∧ s.eng.hlen = s.par.hlenShort ∧ SyncStarted s),
        decide (1 ≤ s.eng.cnt ∧ s.eng.cnt + 1 = s.eng.hlen ∧ s.eng.hlen = s.par.hlenLong),
        decide (1 ≤ s.eng.cnt ∧ s.eng.hlen ≤ s.eng.cnt ∧ s.eng.cnt < s.eng.total)].count true = 1 := by
  have hapart := hw.apart
  by_cases hcnt : s.eng.cnt = 0
  · by_cases hb : b = 0#8 <;> simp [hcnt, hb]
  have hone : 1 ≤ s.eng.cnt := Nat.one_le_iff_ne_zero.2 hcnt
  obtain hhdr | hlast | hpay := Nat.lt_trichotomy (s.eng.cnt + 1) s.eng.hlen
  · have hne : s.eng.cnt + 1 ≠ s.eng.hlen := by omega
    have hpay : ¬s.eng.hlen ≤ s.eng.cnt := by omega
    simp [hcnt, hone, hhdr, hne, hpay]
  · by_cases hshort : s.eng.hlen = s.par.hlenShort
    · have hne : s.par.hlenShort ≠ s.par.hlenLong := by omega
      have hpay : ¬s.par.hlenShort ≤ s.eng.cnt := by omega
      by_cases hsync : SyncStarted s <;> simp [hcnt, hone, hlast, hshort, hne, hpay, hsync]
    · have hlong := hlen_eq_long_of_inv hi hone hshort
      have hne : s.par.hlenLong ≠ s.par.hlenShort := by omega
      have hpay : ¬s.par.hlenLong ≤ s.eng.cnt := by omega
      simp [hcnt, hone, hlast, hlong, hne, hpay]
  · have hle : s.eng.hlen ≤ s.eng.cnt := by omega
    have hne : s.eng.cnt + 1 ≠ s.eng.hlen := by omega
    have hhdr : ¬s.eng.cnt + 1 < s.eng.hlen := by omega
    simp [hcnt, hone, hne, hhdr, hle, (hi.payload hone hle).2]

/-- Settles O30: the conditions by the place of `CNT` in the frame, the other rows by their own conditions. -/
theorem exactlyOneRowIsEnabled : Obligations.ExactlyOneRowIsEnabled := by
  unfold Obligations.ExactlyOneRowIsEnabled
  intro s b _ hfit hi
  refine ⟨count_enabledRows b (Params.headers hfit) hi, fun hcnt => ⟨?skip0, ?first⟩, fun h => ?hdr, fun h => ?len4,
    fun h => ?lenSync, fun h => ?len6, fun h => ?pay⟩
  case skip0 => exact whenEnabled_reading_of_false (by simpa using hcnt) _ s
  case first =>
    have hoff : (reading s && decide (s.eng.cnt = 0) && (b != 0x00)) = false := by simp [hcnt]
    exact whenEnabled_of_false hoff _ s
  case hdr => exact whenEnabled_reading_of_false (fun he => h ((atHdr_iff s).1 he)) _ s
  case len4 => exact whenEnabled_reading_of_false (fun he => h ((atLen4_iff s).1 he).2) _ s
  case lenSync => exact whenEnabled_reading_of_false (fun he => h ((atLenSync_iff s).1 he).2) _ s
  case len6 =>
    refine whenEnabled_reading_of_false (fun he => h ?_) _ s
    obtain ⟨-, hlast, hlong, -⟩ := (atLen6_iff s).1 he
    exact ⟨hlast, hlong⟩
  case pay => exact whenEnabled_reading_of_false (fun he => h ((atPay_iff s).1 he)) _ s

/-! ### A stop request (R162) -/

theorem readerTurn_stopChk {s : State} (hrun : s.eng.run = true) (hin : s.eng.inflight = false)
    (hstop : s.eng.stopReq = true) : readerTurn s = stopChk s := by
  rw [readerTurn, if_neg (by simp [reading, hin]), if_pos (atTop_eq_true hrun hin), if_pos hstop]

/-- At the top of the loop with a stop request the reader's move is RX.STOPCHK or none: it reads no byte. -/
theorem ReaderMove.rxStream_of_stop {s t : State} (h : ReaderMove s t) (hin : s.eng.inflight = false)
    (hstop : s.eng.stopReq = true) : t.ch.rxStream = s.ch.rxStream := by
  cases h with
  | byte b _ hread =>
    rw [hin, hstop] at hread
    simp at hread
  | stay | arm | stopChk | idle | readError => rfl

theorem Delivery.ch {s t : State} (h : Delivery s t) : t.ch = s.ch := by
  cases h with
  | complete _ => exact completeFrame_ch s
  | push f _ => rw [pushFrame_eq]

/-- Settles O34: the reader's turn and an offered byte come to RX.STOPCHK; and of the moves that a step can make, only a byte
that is read adds to the RX stream. -/
theorem stopRequestEndsReading : Obligations.StopRequestEndsReading := by
  unfold Obligations.StopRequestEndsReading
  intro s t hstop hrun hin hok
  refine ⟨fun hscript => ?turn, fun b => ?offered, fun hstep => ?step⟩
  case turn => rw [step_of_reader hok (fetchTurn_nil hscript), readerTurn_stopChk hrun hin hstop, stopChk]
  case offered => rw [exec_classOf, offerByte_stopChk b hrun hin hstop, stopChk]
  case step =>
    obtain ⟨-, script, fresh, hm | ⟨hm, -⟩ | hm | hm⟩ := step_move hstep
    · exact hm.rxStream
    · exact congrArg Channel.rxStream hm.ch
    · exact hm.rxStream_of_stop hin hstop
    · exact congrArg Channel.rxStream hm.ch

end Sys2Proof.Machine
end

section
/-!
PROOFS. The byte's step in the words of the statements (R165 to R173), and as the one function of R174; the delivery of a frame
that is complete (R173, R194).
-/

namespace Sys2Proof.Machine

open Sys2Proof Sys2Proof.Safety

/-! ### What a byte that is read leaves (R165 to R172) -/

section Bytes

variable {b : Byte} {s : State}

/-- The byte is buffered, with these lengths. -/
theorem bufferedAt_takeByte (hc : s.eng.acc.length = s.eng.cnt) (hlen total : Nat) :
    bufferedAt b hlen total (takeByte b s) = buffered b (s.eng.acc ++ [b]) hlen total s := by
  have hcnt : s.eng.cnt + 1 = (s.eng.acc ++ [b]).length := by rw [List.length_append, hc]; rfl
  simp only [bufferedAt, buffered, takeByte, hcnt]

/-- The byte completes the frame. -/
theorem completedAt_takeByte (total : Nat) :
    completedAt b total (takeByte b s) = completed b (s.eng.acc ++ [b]) total s := rfl

/-- Completion where the buffered bytes are one whole frame exactly when the total is reached. -/
theorem completeIfWhole_bufferedAt {total : Nat} (hc : s.eng.acc.length = s.eng.cnt)
    (hwhole : s.eng.cnt + 1 = total →
      s.eng.cnt + 1 = hlen s.par (s.eng.acc ++ [b]) + plen s.par (s.eng.acc ++ [b])) :
    completeIfWhole (bufferedAt b s.eng.hlen total s) =
      if s.eng.cnt + 1 = total then completedAt b total s else bufferedAt b s.eng.hlen total s := by
  have hlength : (s.eng.acc ++ [b]).length = s.eng.cnt + 1 := by rw [List.length_append, hc]; rfl
  show (if s.eng.cnt + 1 = total then completeFrame (bufferedAt b s.eng.hlen total s) else _) = _
  split_ifs with htotal
  · rw [completeFrame_whole (s := bufferedAt b s.eng.hlen total s) hlength (hlength.trans (hwhole htotal))]
    rfl
  · rfl

/-- The last byte of a header (R168 to R171): the header declares the payload length, and 0 completes the frame. -/
theorem byteStep_last (hc : s.eng.acc.length = s.eng.cnt) (hcnt : 1 ≤ s.eng.cnt) (hlast : s.eng.cnt + 1 = s.eng.hlen)
    (hhlen : s.eng.hlen = hlen s.par s.eng.acc) :
    byteStep b (takeByte b s) =
      if plen s.par (s.eng.acc ++ [b]) = 0 then completed b (s.eng.acc ++ [b]) s.eng.hlen s
      else buffered b (s.eng.acc ++ [b]) s.eng.hlen (s.eng.hlen + plen s.par (s.eng.acc ++ [b])) s := by
  have happ : hlen s.par (s.eng.acc ++ [b]) = s.eng.hlen := (hlen_append _ _ _ (by omega)).trans hhlen.symm
  have hstep : byteStep b (takeByte b s) =
      if s.eng.cnt + 1 = s.eng.hlen + plen s.par (s.eng.acc ++ [b])
      then completedAt b (s.eng.hlen + plen s.par (s.eng.acc ++ [b])) (takeByte b s)
      else bufferedAt b s.eng.hlen (s.eng.hlen + plen s.par (s.eng.acc ++ [b])) (takeByte b s) :=
    (byteStep_length (b := b) (s := takeByte b s) hc hhlen hcnt hlast).trans
      (completeIfWhole_bufferedAt (s := takeByte b s) hc fun h => h.trans (congrArg (· + _) happ.symm))
  rw [hstep, completedAt_takeByte, bufferedAt_takeByte hc]
  by_cases hzero : plen s.par (s.eng.acc ++ [b]) = 0
  · rw [if_pos hzero, if_pos (by omega), hzero, Nat.add_zero]
  · rw [if_neg hzero, if_neg (by omega)]

/-- A payload byte (R172) completes the frame when the expected total is reached. -/
theorem byteStep_payload (hw : s.par.Headers) (hi : EngineInv s.par s.eng) (hcnt : 1 ≤ s.eng.cnt)
    (hpay : s.eng.hlen ≤ s.eng.cnt) :
    byteStep b (takeByte b s) =
      if s.eng.cnt + 1 = s.eng.total then completed b (s.eng.acc ++ [b]) s.eng.total s
      else buffered b (s.eng.acc ++ [b]) s.eng.hlen s.eng.total s := by
  have hc := hi.count
  have hhlen := (hi.start hcnt).2
  have happ : hlen s.par (s.eng.acc ++ [b]) = s.eng.hlen := (hlen_append _ _ _ (by omega)).trans hhlen.symm
  have hplen : plen s.par (s.eng.acc ++ [b]) = plen s.par s.eng.acc := plen_append hw _ _ (by omega)
  have htotal : s.eng.total = hlen s.par (s.eng.acc ++ [b]) + plen s.par (s.eng.acc ++ [b]) := by
    rw [happ, hplen]
    exact (hi.payload hcnt hpay).1
  have hstep := (byteStep_pay (b := b) (s := takeByte b s) hcnt hpay).trans
    (completeIfWhole_bufferedAt (s := takeByte b s) hc fun h => h.trans htotal)
  rw [hstep, completedAt_takeByte, bufferedAt_takeByte hc]
  rfl

end Bytes

/-! ### The payload length that the frame in `ACC` declares (R85, R171) -/

theorem plen_of_sync {p : Params} {f : List Byte} (h : byteAt f 0 = p.cmdSync ∨ byteAt f 0 = p.cmdSyncAnswer) :
    plen p f = 0 :=
  if_pos ((isSyncCode_iff _ _).2 h.symm)

theorem plen_of_message {p : Params} (hp : p.Facts) {f : List Byte} (h : byteAt f 0 = p.cmdMessage) :
    plen p f = (byteAt f 4).toNat + 256 * (byteAt f 5).toNat := by
  rw [plen, h, isSyncCode_message hp, if_neg Bool.false_ne_true, if_pos rfl, memRead_two]

theorem plen_of_short {p : Params} {f : List Byte} (hmessage : byteAt f 0 ≠ p.cmdMessage) (hsync : byteAt f 0 ≠ p.cmdSync)
    (hanswer : byteAt f 0 ≠ p.cmdSyncAnswer) : plen p f = (byteAt f 3).toNat := by
  have hcode : ¬isSyncCode p (byteAt f 0) = true := fun h => ((isSyncCode_iff _ _).1 h).elim hanswer hsync
  rw [plen, if_neg hcode, if_neg hmessage, memRead_one]

theorem toNat_eq_zero_iff (b : Byte) : b.toNat = 0 ↔ b = 0x00 :=
  (BitVec.toNat_eq (x := b) (y := 0x00)).symm

/-- The byte that is appended stands at the place that the length says. -/
theorem byteAt_append_last {l : List Byte} {i : Nat} (b : Byte) (h : l.length = i) : byteAt (l ++ [b]) i = b := by
  have hlast := byteAt_append_right l [b] 0 Nat.one_pos
  rwa [Nat.add_zero, h] at hlast

/-! ### The rows (R165 to R172) -/

/-- Settles O23: both rows are the dispatch at an empty accumulator. -/
theorem firstByteIsSkippedOrFixesTheHeader : Obligations.FirstByteIsSkippedOrFixesTheHeader := by
  unfold Obligations.FirstByteIsSkippedOrFixesTheHeader
  intro s _ hrun hin hcnt
  have hr := reading_eq_true hrun hin
  constructor
  · rw [exec_rxSkip0_reading hr hcnt, byteStep_start (s := takeByte 0x00 s) hcnt, if_pos rfl, takeByte]
  · intro b hb
    rw [exec_rxFirst_reading hr hcnt hb, ← offerByte_reading b hrun hin, offerByte_first hrun hin hcnt hb, hlenOf]

/-- Settles O24: inside the header nothing can be complete yet. -/
theorem rxHdrBuffers : Obligations.RxHdrBuffers := by
  unfold Obligations.RxHdrBuffers
  intro s b hrun hin hc hcnt hhdr
  rw [exec_rxHdr_reading (reading_eq_true hrun hin) hcnt hhdr, byteStep_hdr (s := takeByte b s) hcnt hhdr,
    ← bufferedAt_takeByte hc]
  rfl

/-- Settles O25, by the last byte of a header whose length field is byte 3. -/
theorem rxLen4ReadsTheLength : Obligations.RxLen4ReadsTheLength := by
  unfold Obligations.RxLen4ReadsTheLength
  rintro s b f _ hrun hin hc hcnt hlast hshort hmessage hsync hanswer rfl
  have hstart : byteAt (s.eng.acc ++ [b]) 0 = byteAt s.eng.acc 0 := byteAt_append_left _ _ _ (by omega)
  have hcode : isSyncCode s.par (byteAt s.eng.acc 0) = false :=
    Bool.eq_false_iff.2 fun h => ((isSyncCode_iff _ _).1 h).elim hanswer hsync
  have hhlen : s.eng.hlen = hlen s.par s.eng.acc := by rw [hlen_eq, if_neg hmessage, hshort]
  have hplen := plen_of_short (hstart ▸ hmessage) (hstart ▸ hsync) (hstart ▸ hanswer)
  constructor
  · rw [exec_rxLen4_reading (reading_eq_true hrun hin) hcnt hlast hshort hcode, byteStep_last hc hcnt hlast hhlen, hplen,
      hshort]
    simp only [toNat_eq_zero_iff, apply_ite Host.Outcome.next]
  · intro hfour
    exact byteAt_append_last b (by omega)

/-- Settles O26: a sync-coded header declares no payload. -/
theorem rxLenSyncCompletes : Obligations.RxLenSyncCompletes := by
  unfold Obligations.RxLenSyncCompletes
  intro s b hok hrun hin hc hcnt hlast hshort hsync
  have hp := Params.facts hok
  have hstart : byteAt (s.eng.acc ++ [b]) 0 = byteAt s.eng.acc 0 := byteAt_append_left _ _ _ (by omega)
  have hmessage : byteAt s.eng.acc 0 ≠ s.par.cmdMessage := by
    obtain h | h := hsync <;> rw [h]
    · exact hp.messageNeSync.symm
    · exact hp.messageNeAnswer.symm
  have hhlen : s.eng.hlen = hlen s.par s.eng.acc := by rw [hlen_eq, if_neg hmessage, hshort]
  rw [exec_rxLenSync_reading (reading_eq_true hrun hin) hcnt hlast hshort ((isSyncCode_iff _ _).2 hsync.symm),
    byteStep_last hc hcnt hlast hhlen, if_pos (plen_of_sync (hstart ▸ hsync)), hshort]

/-- Settles O27, by the last byte of a header whose length field is bytes 4 and 5. -/
theorem rxLen6ReadsTheLength : Obligations.RxLen6ReadsTheLength := by
  unfold Obligations.RxLen6ReadsTheLength
  rintro s b f length hok hrun hin hc hcnt hlast hlong hne hmessage rfl rfl
  have hstart : byteAt (s.eng.acc ++ [b]) 0 = byteAt s.eng.acc 0 := byteAt_append_left _ _ _ (by omega)
  have hhlen : s.eng.hlen = hlen s.par s.eng.acc := by rw [hlen_eq, if_pos hmessage, hlong]
  constructor
  · rw [exec_rxLen6_reading (reading_eq_true hrun hin) hcnt hlast hlong (hlong ▸ hne), byteStep_last hc hcnt hlast hhlen,
      plen_of_message (Params.facts hok) (hstart.trans hmessage), hlong]
  · intro hsix
    exact byteAt_append_last b (by omega)

/-- Settles O28: the row is enabled under (I4) of R40. -/
theorem rxPayBuffersOrCompletes : Obligations.RxPayBuffersOrCompletes := by
  unfold Obligations.RxPayBuffersOrCompletes
  intro s b _ hfit hi hrun hin hcnt hpay
  rw [exec_rxPay_reading (reading_eq_true hrun hin) hcnt hpay (hi.payload hcnt hpay).2,
    byteStep_payload (Params.headers hfit) hi hcnt hpay]

/-! ### Delivery (R173, R194) -/

/-- PUSH of a detached frame. -/
theorem pushDetached_of_some {s : State} {f : Frame} (h : s.detached = some f) :
    pushDetached s = pushFrame f { s with detached := none } := by
  simp only [pushDetached, h]

/-- Settles O29: both rows come to the arrival of the frame; RX.COMPLETE empties the accumulator first. -/
theorem completionDeliversTheFrame : Obligations.CompletionDeliversTheFrame := by
  unfold Obligations.CompletionDeliversTheFrame
  intro s f _
  constructor
  · rintro hrun rfl hcnt htotal hone hhlen hwhole
    have hcomplete : atComplete s = true :=
      (atComplete_iff s).2 ⟨hrun, hone, by omega, hcnt.trans htotal.symm⟩
    refine (whenEnabled_of_true hcomplete (completeFrame s) s).trans ?_
    rw [completeFrame_whole hcnt.symm hwhole]
  · intro hf
    refine (whenEnabled_of_true (Option.isSome_iff_exists.2 ⟨f, hf⟩) (pushDetached s) s).trans ?_
    rw [pushDetached_of_some hf, pushFrame_eq]

/-! ### The one function of R174 -/

/-- Both header lengths leave room for the fields (R58). -/
theorem four_le_hlen {p : Params} (hw : p.Headers) (f : List Byte) : 4 ≤ hlen p f := by
  have := hw.short
  have := hw.long
  rw [hlen_eq]
  split_ifs <;> omega

/-- A first byte: no header has one byte only, so that only `HLEN` and `TOTAL` are fixed. -/
theorem byteWhole_first {b : Byte} {s : State} (hw : s.par.Headers) (hacc : s.eng.acc = []) (hcnt : s.eng.cnt = 0)
    (hb : b ≠ 0x00) : byteWhole b s = first b s := by
  have hlong : 4 ≤ hlenOf s.par b := four_le_hlen hw [b]
  have hheader : 1 ≠ hlenOf s.par b := by omega
  have hend : ¬hlenOf s.par b ≤ 1 := by omega
  rw [byteWhole, if_neg fun h => hb h.2]
  simp [first, appendByte, hacc, hcnt, hheader, hend]

/-- The function's line that sets `TOTAL` once the header is whole. -/
def totalLine (s : State) : State :=
  if s.eng.cnt = s.eng.hlen then { s with eng.total := s.eng.hlen + plen s.par s.eng.acc } else s

/-- The function's line that completes the frame. -/
def completionLine (s : State) : State :=
  if s.eng.hlen ≤ s.eng.cnt ∧ s.eng.cnt = s.eng.total then completeFrame s else s

/-- After the first byte of a frame, those two lines are what is left to do once the byte is counted. -/
theorem byteWhole_later {b : Byte} {s : State} (hcnt : 1 ≤ s.eng.cnt) :
    byteWhole b s = completionLine (totalLine (appendByte b s)) := by
  have hne : ¬s.eng.cnt = 0 := by omega
  have hlater : ¬(appendByte b s).eng.cnt = 1 := fun h => hne (Nat.succ.inj h)
  rw [byteWhole, if_neg fun h => hne h.1]
  simp only [if_neg hlater]
  rfl

theorem totalLine_of_eq {s : State} (h : s.eng.cnt = s.eng.hlen) :
    totalLine s = { s with eng.total := s.eng.hlen + plen s.par s.eng.acc } :=
  if_pos h

theorem totalLine_of_ne {s : State} (h : s.eng.cnt ≠ s.eng.hlen) : totalLine s = s :=
  if_neg h

theorem completionLine_of_le {s : State} (h : s.eng.hlen ≤ s.eng.cnt) : completionLine s = completeIfWhole s := by
  simp only [completionLine, completeIfWhole, h, true_and]

theorem completionLine_of_lt {s : State} (h : s.eng.cnt < s.eng.hlen) : completionLine s = s :=
  if_neg fun hend => Nat.not_le.2 h hend.1

/-- Settles O31, by the place of the byte in the frame: the first one, the last one of the header, payload, or another. -/
theorem dispatchEqualsWholeFunction : Obligations.DispatchEqualsWholeFunction := by
  unfold Obligations.DispatchEqualsWholeFunction
  intro s b _ hfit hi _
  by_cases hcnt : s.eng.cnt = 0
  · rw [byteStep_start hcnt]
    split_ifs with hb
    · exact (if_pos ⟨hcnt, hb⟩).symm
    · have hacc : s.eng.acc = [] := List.eq_nil_of_length_eq_zero (hi.count.trans hcnt)
      exact (byteWhole_first (Params.headers hfit) hacc hcnt hb).symm
  have hone : 1 ≤ s.eng.cnt := Nat.one_le_iff_ne_zero.2 hcnt
  rw [byteWhole_later hone]
  obtain hhdr | hlast | hpay := Nat.lt_trichotomy (s.eng.cnt + 1) s.eng.hlen
  · rw [byteStep_hdr hone hhdr, totalLine_of_ne (s := appendByte b s) (Nat.ne_of_lt hhdr), completionLine_of_lt hhdr]
  · rw [byteStep_length hi.count (hi.start hone).2 hone hlast, totalLine_of_eq (s := appendByte b s) hlast]
    exact (completionLine_of_le (Nat.le_of_eq hlast.symm)).symm
  · rw [byteStep_pay hone (Nat.le_of_lt_succ hpay), totalLine_of_ne (s := appendByte b s) (Nat.ne_of_gt hpay),
      completionLine_of_le (Nat.le_of_lt hpay)]

end Sys2Proof.Machine
end

section
/-!
PROOFS. The framer as a function of the stream (R179): `Delimit` by the shape of what comes next, one byte of the reader against
it, and the run over a whole script.
-/

namespace Sys2Proof.Machine

open Sys2Proof Sys2Proof.Safety

/-! ### `Delimit` by cases -/

/-- Fuel for every byte is enough: more of it changes nothing. -/
theorem delimitFuel_congr {p : Params} (hw : p.Headers) :
    ∀ {n m : Nat} {bytes : List Byte}, bytes.length ≤ n → bytes.length ≤ m →
      delimitFuel p n bytes = delimitFuel p m bytes := by
  intro n
  induction n with
  | zero =>
    intro m bytes hn _
    obtain rfl := List.eq_nil_of_length_eq_zero (Nat.le_zero.1 hn)
    cases m <;> rfl
  | succ n ih =>
    intro m bytes hn hm
    by_cases hnil : bytes = []
    · subst hnil
      cases m <;> rfl
    have hlength := List.length_pos_iff.2 hnil
    obtain ⟨m, rfl⟩ : ∃ k, m = k + 1 := ⟨m - 1, by omega⟩
    have hpos := four_le_hlen hw bytes
    have htail : delimitFuel p n bytes.tail = delimitFuel p m bytes.tail :=
      ih (by rw [List.length_tail]; omega) (by rw [List.length_tail]; omega)
    have hdrop : delimitFuel p n (bytes.drop (hlen p bytes + plen p bytes))
        = delimitFuel p m (bytes.drop (hlen p bytes + plen p bytes)) :=
      ih (by rw [List.length_drop]; omega) (by rw [List.length_drop]; omega)
    rw [delimitFuel, delimitFuel, htail, hdrop]

/-- A byte 0x00 between frames is skipped. -/
theorem delimit_zero_cons (p : Params) (rest : List Byte) : delimit p (0x00 :: rest) = delimit p rest := by
  show delimitFuel p (rest.length + 1) (0x00 :: rest) = _
  rw [delimitFuel, if_neg (List.cons_ne_nil _ _), if_pos (byteAt_cons_zero _ _)]
  rfl

/-- A whole frame is the first frame of any stream that begins with it. -/
theorem delimit_frame_append {p : Params} (hw : p.Headers) {f : Frame} (h0 : byteAt f 0 ≠ 0x00)
    (hf : f.length = hlen p f + plen p f) (rest : List Byte) :
    delimit p (f ++ rest) = (f :: (delimit p rest).1, (delimit p rest).2) := by
  have hpos := four_le_hlen hw f
  have hhlen : hlen p (f ++ rest) = hlen p f := hlen_append p f rest (by omega)
  have hplen : plen p (f ++ rest) = plen p f := plen_append hw f rest (by omega)
  have hlength := List.length_append (as := f) (bs := rest)
  have h0' : byteAt (f ++ rest) 0 = byteAt f 0 := byteAt_append_left f rest 0 (by omega)
  have hne : f ++ rest ≠ [] := List.length_pos_iff.1 (by omega)
  obtain ⟨n, hn⟩ : ∃ n, (f ++ rest).length = n + 1 := ⟨(f ++ rest).length - 1, by omega⟩
  have hfuel : delimitFuel p n rest = delimit p rest := delimitFuel_congr hw (by omega) le_rfl
  rw [delimit, hn, delimitFuel, if_neg hne, h0', if_neg h0, hhlen, hplen, ← hf, if_neg (by omega), if_neg (by omega),
    List.drop_left, List.take_left, hfuel]

/-- What the accumulator holds between two bytes completes no frame (R40). -/
theorem delimit_acc {p : Params} {e : Engine} (h : FramerInv p e) : delimit p e.acc = ([], e.acc) := by
  by_cases hnil : e.acc = []
  · rw [hnil]
    rfl
  have hcnt : 1 ≤ e.cnt := h.count ▸ List.length_pos_iff.2 hnil
  obtain ⟨h0, hhlen⟩ := h.start hcnt
  obtain ⟨n, hn⟩ : ∃ n, e.acc.length = n + 1 := ⟨e.acc.length - 1, by rw [h.count]; omega⟩
  rw [delimit, hn, delimitFuel, if_neg hnil, if_neg h0]
  split_ifs with hheader hpayload
  · rfl
  · rfl
  · rw [h.count, ← hhlen] at hheader hpayload
    obtain ⟨htotal, hlt⟩ := h.payload hcnt (by omega)
    omega

/-! ### What the reader writes while it reads -/

/-- The engine `e` with the framer's registers and the read in flight as `r` has them. -/
def withFramer (r e : Engine) : Engine :=
  { e with acc := r.acc, cnt := r.cnt, hlen := r.hlen, total := r.total, inflight := r.inflight }

/-- The arrival of a frame neither reads nor writes the framer's registers. -/
theorem arrive_withFramer (p : Params) (f : Frame) (r e : Engine) :
    arrive p f (withFramer r e) = withFramer r (arrive p f e) := by
  unfold arrive withFramer
  split_ifs <;> rfl

/-- Arrivals at two engines that differ in those registers only. -/
theorem arrive_eq_withFramer (p : Params) (f : Frame) {e e' : Engine} (h : e' = withFramer e' e) :
    arrive p f e' = withFramer (arrive p f e') (arrive p f e) := by
  rw [h, arrive_withFramer]
  rfl

theorem arriveAll_withFramer (p : Params) (frames : List Frame) (r e : Engine) :
    arriveAll p frames (withFramer r e) = withFramer r (arriveAll p frames e) := by
  induction frames generalizing e with
  | nil => rfl
  | cons f frames ih => rw [arriveAll, arrive_withFramer, ih, arriveAll]

theorem arriveAll_append (p : Params) (frames frames' : List Frame) (e : Engine) :
    arriveAll p (frames ++ frames') e = arriveAll p frames' (arriveAll p frames e) := by
  induction frames generalizing e with
  | nil => rfl
  | cons f frames ih => exact ih (arrive p f e)

theorem arriveAll_frame (p : Params) (frames : List Frame) (e : Engine) :
    (arriveAll p frames e).seqTx = e.seqTx ∧ (arriveAll p frames e).run = e.run
      ∧ (arriveAll p frames e).stopReq = e.stopReq ∧ (arriveAll p frames e).lenWarn = e.lenWarn := by
  induction frames generalizing e with
  | nil => exact ⟨rfl, rfl, rfl, rfl⟩
  | cons f frames ih =>
    obtain ⟨-, -, -, -, hseq, hrun, hstop, -, -, hwarn, -⟩ := arrive_frame p f e
    obtain ⟨hseq', hrun', hstop', hwarn'⟩ := ih (arrive p f e)
    exact ⟨hseq'.trans hseq, hrun'.trans hrun, hstop'.trans hstop, hwarn'.trans hwarn⟩

/-- From `s` to `t` the reader has consumed `bytes` and the frames have arrived one after the other; besides, only the framer's
registers have moved. -/
structure Consumes (s : State) (bytes : List Byte) (frames : List Frame) (t : State) : Prop where
  par : t.par = s.par
  host : t.host = s.host
  rxStream : t.ch.rxStream = s.ch.rxStream ++ bytes
  eng : t.eng = withFramer t.eng (arriveAll s.par frames s.eng)

theorem Consumes.nil (s : State) : Consumes s [] [] s :=
  ⟨rfl, rfl, (List.append_nil _).symm, rfl⟩

theorem Consumes.append {s t u : State} {bytes bytes' : List Byte} {frames frames' : List Frame}
    (h : Consumes s bytes frames t) (h' : Consumes t bytes' frames' u) :
    Consumes s (bytes ++ bytes') (frames ++ frames') u where
  par := h'.par.trans h.par
  host := h'.host.trans h.host
  rxStream := by rw [h'.rxStream, h.rxStream, List.append_assoc]
  eng := by
    rw [arriveAll_append, h'.eng, h.par, h.eng, arriveAll_withFramer]
    rfl

/-- What the frames that have arrived leave as it was. -/
theorem Consumes.kept {s t : State} {bytes : List Byte} {frames : List Frame} (h : Consumes s bytes frames t) :
    t.eng.seqTx = s.eng.seqTx ∧ t.eng.run = s.eng.run ∧ t.eng.stopReq = s.eng.stopReq
      ∧ t.eng.lenWarn = s.eng.lenWarn := by
  rw [h.eng]
  exact arriveAll_frame s.par frames s.eng

/-- The queues and drop counters are those of the arrivals. -/
theorem Consumes.delivered {s t : State} {bytes : List Byte} {frames : List Frame} (h : Consumes s bytes frames t) :
    t.eng.cq = (arriveAll s.par frames s.eng).cq ∧ t.eng.mq = (arriveAll s.par frames s.eng).mq
      ∧ t.eng.dropC = (arriveAll s.par frames s.eng).dropC ∧ t.eng.dropM = (arriveAll s.par frames s.eng).dropM := by
  rw [h.eng]
  exact ⟨rfl, rfl, rfl, rfl⟩

/-! ### One byte against `Delimit` -/

theorem framerInv_of_acc_nil {p : Params} {e : Engine} (hacc : e.acc = []) (hcnt : e.cnt = 0) : FramerInv p e :=
  ⟨by rw [hacc, hcnt]; rfl, by omega, by omega, by omega⟩

/-- The state `t` after the byte `b`: the frames that `b` completes, none or one, are the first ones that `Delimit` sees in
whatever the accumulator, `b` and the bytes to come hold, and it goes on from the new accumulator. -/
structure ByteDelimits (s : State) (b : Byte) (t : State) : Prop where
  inv : FramerInv t.par t.eng
  consumes : ∃ frames, Consumes s [b] frames t ∧ ∀ rest,
    delimit s.par (s.eng.acc ++ b :: rest) =
      (frames ++ (delimit s.par (t.eng.acc ++ rest)).1, (delimit s.par (t.eng.acc ++ rest)).2)

theorem completedAt_empty (b : Byte) (total : Nat) (s : State) :
    (completedAt b total s).eng.acc = [] ∧ (completedAt b total s).eng.cnt = 0 := by
  obtain ⟨hacc, hcnt, -⟩ :=
    arrive_frame s.par (s.eng.acc ++ [b]) { s.eng with acc := [], cnt := 0, total := total }
  exact ⟨hacc, hcnt⟩

/-- The last byte of a frame: the frame arrives, and `Delimit` goes on from an empty accumulator. -/
theorem completedAt_delimits {b : Byte} {s : State} (total : Nat) (hw : s.par.Headers)
    (h0 : byteAt (s.eng.acc ++ [b]) 0 ≠ 0x00)
    (hwhole : (s.eng.acc ++ [b]).length = hlen s.par (s.eng.acc ++ [b]) + plen s.par (s.eng.acc ++ [b])) :
    ByteDelimits s b (completedAt b total (takeByte b s)) := by
  obtain ⟨hacc, hcnt⟩ := completedAt_empty b total (takeByte b s)
  have harrive : (completedAt b total (takeByte b s)).eng =
      withFramer (completedAt b total (takeByte b s)).eng (arrive s.par (s.eng.acc ++ [b]) s.eng) :=
    arrive_eq_withFramer s.par (s.eng.acc ++ [b]) rfl
  refine ⟨framerInv_of_acc_nil hacc hcnt, [s.eng.acc ++ [b]], ⟨rfl, rfl, rfl, harrive⟩, fun rest => ?_⟩
  rw [List.append_cons, hacc]
  exact delimit_frame_append hw h0 hwhole rest

/-- A byte that is read is skipped, buffered, or the last one of a frame; `Delimit` agrees in each case. -/
theorem byteStep_delimits {b : Byte} {s : State} (hw : s.par.Headers) (h : FramerInv s.par s.eng) :
    ByteDelimits s b (byteStep b (takeByte b s)) := by
  have hinv : FramerInv s.par (takeByte b s).eng := ⟨h.count, h.start, h.header, h.payload⟩
  obtain ⟨hcnt, rfl, he⟩ | ⟨total, -, he, hinv'⟩ | ⟨h0, -, hwhole, he⟩ :=
    byteStep_cases (b := b) (s := takeByte b s) hw hinv <;> rw [he]
  · have hacc : s.eng.acc = [] := List.eq_nil_of_length_eq_zero (h.count.trans hcnt)
    refine ⟨hinv, [], ⟨rfl, rfl, rfl, rfl⟩, fun rest => ?_⟩
    show delimit s.par (s.eng.acc ++ 0x00 :: rest) = delimit s.par (s.eng.acc ++ rest)
    rw [hacc]
    exact delimit_zero_cons s.par rest
  · refine ⟨hinv', [], ⟨rfl, rfl, rfl, rfl⟩, fun rest => ?_⟩
    rw [List.append_cons]
    rfl
  · exact completedAt_delimits _ hw h0 hwhole

/-- Without a stop request a running reader reads the byte it is offered (R160, log 5). -/
theorem offerByte_running (b : Byte) {s : State} (hrun : s.eng.run = true) (hstop : s.eng.stopReq = false) :
    offerByte b s = byteStep b (takeByte b s) := by
  cases hin : s.eng.inflight with
  | true => exact offerByte_reading b hrun hin
  | false =>
    rw [offerByte_arm b hrun hin hstop, offerByte_reading b (s := arm s) hrun rfl]
    rfl

/-! ### The run over a script -/

theorem run_succ {s t : State} (k : Nat) (h : step s = .next t) :
    Host.Core.run Sys2Proof.core (k + 1) s = Host.Core.run Sys2Proof.core k t := by
  have hcore : Sys2Proof.core.step s = .next t := h
  simp only [Host.Core.run, hcore]

theorem byteStep_script (b : Byte) (s : State) : (byteStep b s).script = s.script := by
  obtain h | ⟨acc, hlen, total, h | h⟩ := byteStep_eq b s <;> rw [h]
  · rfl
  · obtain ⟨f, n, trace, hc⟩ := completeFrame_eq (counted acc hlen total s)
    rw [hc]
    rfl

/-- A turn that offers a byte to a running reader is the byte's step. -/
theorem step_rx_delimits {s : State} {b : Byte} {turns : List Turn} (hok : s.par.ok = true) (hw : s.par.Headers)
    (hinv : FramerInv s.par s.eng) (hrun : s.eng.run = true) (hstop : s.eng.stopReq = false)
    (hscript : s.script = .issue (.rx b) :: turns) :
    ∃ t, step s = .next t ∧ t.script = turns ∧ ByteDelimits s b t := by
  have hstep : step s = .next (offerByte b { s with script := turns }) := by
    rw [step_of_packet hok (fetchTurn_issue hscript), dropTurn_of_cons hscript]
    exact exec_classOf b { s with script := turns }
  obtain ⟨hinv', frames, hconsumes, hdelimit⟩ := byteStep_delimits (b := b) (s := { s with script := turns }) hw hinv
  refine ⟨byteStep b (takeByte b { s with script := turns }), ?_, byteStep_script _ _, hinv', frames,
    { hconsumes with }, hdelimit⟩
  rw [hstep, offerByte_running b (s := { s with script := turns }) hrun hstop]

/-- Byte by byte, from whatever part of a frame the accumulator holds: the frames that `Delimit` sees in it and the stream
arrive, and the residue stays. -/
theorem run_delimits (stream : List Byte) (turns : List Turn) {s : State} (hok : s.par.ok = true) (hw : s.par.Headers)
    (hinv : FramerInv s.par s.eng) (hrun : s.eng.run = true) (hstop : s.eng.stopReq = false)
    (hscript : s.script = stream.map (fun b => .issue (.rx b)) ++ turns) :
    ∃ t, Host.Core.run Sys2Proof.core stream.length s = .next t ∧ t.script = turns ∧ FramerInv t.par t.eng
      ∧ Consumes s stream (delimit s.par (s.eng.acc ++ stream)).1 t
      ∧ t.eng.acc = (delimit s.par (s.eng.acc ++ stream)).2 := by
  induction stream generalizing s with
  | nil =>
    refine ⟨s, rfl, hscript, hinv, ?_⟩
    rw [List.append_nil, delimit_acc hinv]
    exact ⟨.nil s, rfl⟩
  | cons b stream ih =>
    obtain ⟨u, hstep, hscript', hinv', frames, hread, hdelimit⟩ := step_rx_delimits hok hw hinv hrun hstop hscript
    obtain ⟨-, hrun', hstop', -⟩ := hread.kept
    obtain ⟨t, hrunAll, hturns, hinvAll, hall, hacc⟩ :=
      ih (s := u) (hread.par ▸ hok) (hread.par ▸ hw) hinv' (hrun'.trans hrun) (hstop'.trans hstop) hscript'
    rw [hread.par] at hall hacc
    refine ⟨t, (run_succ _ hstep).trans hrunAll, hturns, hinvAll, ?_⟩
    rw [hdelimit stream]
    exact ⟨hread.append hall, hacc⟩

/-- Settles O32, by the run from a partial frame, here the empty one. -/
theorem framerComputesDelimit : Obligations.FramerComputesDelimit := by
  unfold Obligations.FramerComputesDelimit
  intro s stream turns hok hfit hrun hstop hcnt hacc _ hscript
  obtain ⟨t, hrunAll, hturns, hinv, hconsumes, hresidue⟩ :=
    run_delimits stream turns hok (Params.headers hfit) (framerInv_of_acc_nil hacc hcnt) hrun hstop hscript
  rw [hacc, List.nil_append] at hconsumes hresidue
  obtain ⟨hcq, hmq, hdropC, hdropM⟩ := hconsumes.delivered
  obtain ⟨hseq, hrun', -, hwarn⟩ := hconsumes.kept
  exact ⟨t, hrunAll, hturns, hresidue, by rw [← hinv.count, hresidue], hcq, hmq, hdropC, hdropM, hwarn,
    hconsumes.rxStream, hconsumes.host, hseq, hrun'.trans hrun⟩

end Sys2Proof.Machine
end

section
/-!
PROOFS. The pieces of a host operation case by case (R190 to R205, R221, R251): WR, the close of the port, ENC, the pops, the
answer to a request, recv's decoding.
-/

namespace Sys2Proof.Machine

open Sys2Proof Sys2Proof.Safety

/-! ### WR (R190 to R192) -/

section Write

variable {s : State} {raw : List Byte}

/-- A free answer uses up a free value, a listed one its place in the list (log 13). -/
theorem dropWrAnswer_nil (h : s.ch.wrAnswers = []) : dropWrAnswer s = { s with fresh := s.fresh + 1 } := by
  simp only [dropWrAnswer, h]

theorem dropWrAnswer_cons {a : WrAnswer} {answers : List WrAnswer} (h : s.ch.wrAnswers = a :: answers) :
    dropWrAnswer s = { s with ch.wrAnswers := answers } := by
  simp only [dropWrAnswer, h]

theorem nextWrAnswer_cons {a : WrAnswer} {answers : List WrAnswer} (h : s.ch.wrAnswers = a :: answers) :
    nextWrAnswer s = a := by
  simp only [nextWrAnswer, h]

theorem writeFlush_closed (hopen : s.eng.portOpen = false) : writeFlush raw s = (some .ioWrite, s) := by
  simp [writeFlush, hopen]

theorem writeFlush_of_ok (hopen : s.eng.portOpen = true) (h : nextWrAnswer s = .ok) :
    writeFlush raw s = (none, emit (.tx raw) (transmit raw (dropWrAnswer s))) := by
  simp [writeFlush, hopen, h]

theorem writeFlush_of_failed {n : Nat} (hopen : s.eng.portOpen = true)
    (h : nextWrAnswer s = .writeError n ∨ nextWrAnswer s = .flushError n) :
    writeFlush raw s = (some .ioWrite, transmit (raw.take n) (dropWrAnswer s)) := by
  obtain h | h := h <;> simp [writeFlush, hopen, h]

theorem writeFlush_ok {answers : List WrAnswer} (hopen : s.eng.portOpen = true) (h : s.ch.wrAnswers = .ok :: answers) :
    writeFlush raw s =
      (none,
        { s with ch.txStream := s.ch.txStream ++ raw, ch.wrAnswers := answers, trace := s.trace ++ [.tx raw] }) := by
  rw [writeFlush_of_ok hopen (nextWrAnswer_cons h), dropWrAnswer_cons h]
  rfl

theorem writeFlush_failed {n : Nat} {answers : List WrAnswer} (hopen : s.eng.portOpen = true)
    (h : s.ch.wrAnswers = .writeError n :: answers ∨ s.ch.wrAnswers = .flushError n :: answers) :
    writeFlush raw s =
      (some .ioWrite, { s with ch.txStream := s.ch.txStream ++ raw.take n, ch.wrAnswers := answers }) := by
  rw [writeFlush_of_failed hopen (h.imp nextWrAnswer_cons nextWrAnswer_cons), h.elim dropWrAnswer_cons dropWrAnswer_cons]
  rfl

/-- With no answer listed WR succeeds or fails after some first part, as the free answer has it (log 13). -/
theorem writeFlush_free (hopen : s.eng.portOpen = true) (h : s.ch.wrAnswers = []) :
    writeFlush raw s =
        (none, { s with ch.txStream := s.ch.txStream ++ raw, trace := s.trace ++ [.tx raw], fresh := s.fresh + 1 })
      ∨ ∃ n,
        writeFlush raw s =
          (some .ioWrite, { s with ch.txStream := s.ch.txStream ++ raw.take n, fresh := s.fresh + 1 }) := by
  have hdrop := dropWrAnswer_nil h
  cases ha : nextWrAnswer s with
  | ok =>
    rw [writeFlush_of_ok hopen ha, hdrop]
    exact .inl rfl
  | writeError n =>
    rw [writeFlush_of_failed hopen (.inl ha), hdrop]
    exact .inr ⟨n, rfl⟩
  | flushError n =>
    rw [writeFlush_of_failed hopen (.inr ha), hdrop]
    exact .inr ⟨n, rfl⟩

theorem exec_wr_done {u : State} (h : writeFlush raw s = (none, u)) : exec (.wr raw) s = .next (returned .ok u) := by
  show execWr raw s = _
  simp only [execWr, h]
  rfl

theorem exec_wr_fail {u : State} {c : Cause} (h : writeFlush raw s = (some c, u)) :
    exec (.wr raw) s = .next (returned (.error (.engine c)) u) := by
  show execWr raw s = _
  simp only [execWr, h]
  rfl

theorem runAct_wr_done {t : Task} {u : State} (h : writeFlush t.raw s = (none, u)) : runAct .wr t s = .done t u := by
  simp only [runAct, actWr, h]

theorem runAct_wr_fail {t : Task} {u : State} {c : Cause} (h : writeFlush t.raw s = (some c, u)) :
    runAct .wr t s = .fail (.engine c) u := by
  simp only [runAct, actWr, h]

end Write

/-! ### The close of the port and STOP (R203 to R205) -/

section Stop

variable {s : State}

theorem closePort_closed (hopen : s.eng.portOpen = false) : closePort s = (none, s) := by
  simp [closePort, hopen]

/-- An open port is closed, whatever the environment answers to the close (R204, R205 (a)). -/
theorem closePort_listed {ok : Bool} {answers : List Bool} (hopen : s.eng.portOpen = true)
    (h : s.ch.closeAnswers = ok :: answers) :
    closePort s =
      (if ok then none else some .ioClose, { s with eng.portOpen := false, ch.closeAnswers := answers }) := by
  simp [closePort, hopen, nextCloseOk, dropCloseAnswer, h]

theorem closePort_free (hopen : s.eng.portOpen = true) (h : s.ch.closeAnswers = []) :
    closePort s =
      (if Config.freeCloseOk s.fresh then none else some .ioClose,
        { s with eng.portOpen := false, fresh := s.fresh + 1 }) := by
  simp [closePort, hopen, nextCloseOk, dropCloseAnswer, h]

/-- The close fails only with IOError(Close), and only where the port was open. -/
theorem closePort_cause (s : State) :
    (closePort s).1 = none ∨ ((closePort s).1 = some .ioClose ∧ s.eng.portOpen = true) := by
  unfold closePort
  split_ifs with hopen hok
  · exact .inl rfl
  · exact .inr ⟨rfl, hopen⟩
  · exact .inl rfl

theorem closePort_txStream (s : State) : (closePort s).2.ch.txStream = s.ch.txStream := by
  unfold closePort
  split_ifs
  · exact dropCloseAnswer_txStream _
  · exact dropCloseAnswer_txStream _
  · rfl

/-- The close does not read the next number. -/
theorem closePort_nextTicket (s : State) :
    closePort (nextTicket s) = ((closePort s).1, nextTicket (closePort s).2) := by
  cases hopen : s.eng.portOpen with
  | false => rw [closePort_closed hopen, closePort_closed (s := nextTicket s) hopen]
  | true =>
    cases h : s.ch.closeAnswers with
    | nil =>
      rw [closePort_free hopen h, closePort_free (s := nextTicket s) hopen h]
      rfl
    | cons ok answers =>
      rw [closePort_listed hopen h, closePort_listed (s := nextTicket s) hopen h]
      rfl

/-- STOP's phase 1 has been done: a STOP that waits has done it before (R203). -/
def stopRequested (t : Task) (s : State) : State :=
  { s with eng.stopReq := s.eng.stopReq || !t.waiting }

theorem stopRequested_eq (t : Task) (s : State) :
    (if t.waiting then s else { s with eng.stopReq := true }) = stopRequested t s := by
  unfold stopRequested
  cases t.waiting <;> simp

theorem runAct_stop (t : Task) (s : State) :
    runAct .stop t s =
      if s.eng.run then .wait { t with waiting := true } (stopRequested t s)
      else
        match closePort (stopRequested t s) with
        | (none, u) => .done { t with value := .ok } u
        | (some c, u) => .fail (.engine c) u := by
  show actStop t s = _
  unfold actStop
  rw [stopRequested_eq]
  rfl

/-- STOP's result: the error of the close, if there is one (R205). -/
def stopValue : Option Cause → Value
  | none => .ok
  | some c => .error (.engine c)

/-- While the reader runs a STOP waits (R203, R62). -/
theorem runAct_stop_running (t : Task) (hrun : s.eng.run = true) :
    runAct .stop t s = .wait { t with waiting := true } (stopRequested t s) := by
  rw [runAct_stop, if_pos hrun]

theorem runAct_stop_stopped {t : Task} {u : State} (hrun : s.eng.run = false)
    (h : closePort (stopRequested t s) = (none, u)) : runAct .stop t s = .done { t with value := .ok } u := by
  rw [runAct_stop, if_neg (by simp [hrun]), h]

theorem runAct_stop_failed {t : Task} {u : State} {c : Cause} (hrun : s.eng.run = false)
    (h : closePort (stopRequested t s) = (some c, u)) : runAct .stop t s = .fail (.engine c) u := by
  rw [runAct_stop, if_neg (by simp [hrun]), h]

end Stop

/-! ### ENC inside an operation (R221 line 1) -/

section Pieces

variable {s : State} {t : Task}

theorem runAct_enc_ok {command flags length : Nat} {payload bytes : List Byte} {seq : BitVec 8}
    (h : encodeFrame s.par s.eng.seqTx command flags length payload = .ok (bytes, seq)) :
    runAct (.enc command flags length payload) t s = .done { t with raw := bytes } { s with eng.seqTx := seq } := by
  simp only [runAct, actEnc, h]

theorem runAct_enc_error {command flags length : Nat} {payload : List Byte} {c : Cause}
    (h : encodeFrame s.par s.eng.seqTx command flags length payload = .error c) :
    runAct (.enc command flags length payload) t s = .fail (.engine c) s := by
  simp only [runAct, actEnc, h]

/-! ### The pops (R197) -/

theorem setQueue_host (q : QueueId) (frames : List Frame) (s : State) : (setQueue q frames s).host = s.host := by
  cases q <;> rfl

theorem queueOf_nextTicket (q : QueueId) (s : State) : queueOf q (nextTicket s) = queueOf q s := by
  cases q <;> rfl

theorem setQueue_nextTicket (q : QueueId) (frames : List Frame) (s : State) :
    setQueue q frames (nextTicket s) = nextTicket (setQueue q frames s) := by
  cases q <;> rfl

/-- Writing a queue's own frames back changes nothing. -/
theorem setQueue_queueOf (q : QueueId) (s : State) : setQueue q (queueOf q s) s = s := by
  cases q <;> rfl

theorem runAct_pop_cons {q : QueueId} {f : Frame} {frames : List Frame} (timeout : Nat) (h : queueOf q s = f :: frames) :
    runAct (.pop q timeout) t s = .done { t with got := some f } (setQueue q frames s) := by
  simp only [runAct, actPop, popQueue, h]

theorem runAct_pop_wait {q : QueueId} (timeout : Nat) (h : queueOf q s = []) (hw : t.waiting = false) :
    runAct (.pop q timeout) t s = .wait { t with waiting := true } s := by
  simp [runAct, actPop, popQueue, h, hw]

/-- A pop that goes on with its queue still empty gives up (R197 (b2)). -/
theorem runAct_pop_giveUp {q : QueueId} (timeout : Nat) (h : queueOf q s = []) (hw : t.waiting = true) :
    runAct (.pop q timeout) t s = .done { t with got := none } s := by
  simp [runAct, actPop, popQueue, h, hw]

/-- A pop that has waited is done when it goes on, with the head or with None (R197 (b)). -/
theorem runAct_pop_waiting (q : QueueId) (timeout : Nat) (hw : t.waiting = true) :
    runAct (.pop q timeout) t s = .done { t with got := (queueOf q s).head? } (setQueue q (queueOf q s).tail s) := by
  cases h : queueOf q s with
  | nil =>
    rw [runAct_pop_giveUp timeout h hw]
    congr 1
    rw [List.tail_nil, ← h, setQueue_queueOf]
  | cons f frames => exact runAct_pop_cons timeout h

/-! ### The answer to a request (R221 lines 4 to 8) -/

theorem runAct_answer_error {command : Nat} {f : Frame} {c : Cause} (hgot : t.got = some f)
    (hdec : decodeFrame s.par f = .error c) : runAct (.answer command) t s = .fail (.engine c) s := by
  simp only [runAct, actAnswer, hgot, hdec]

theorem runAct_answer_mismatch {command : Nat} {f : Frame} {d : Decoded} (hgot : t.got = some f)
    (hdec : decodeFrame s.par f = .ok d) (hc : d.command.toNat ≠ command) :
    runAct (.answer command) t s = .fail .commandMismatch s := by
  simp only [runAct, actAnswer, hgot, hdec, if_pos hc]

theorem runAct_answer_negative {command : Nat} {f : Frame} {d : Decoded} (hgot : t.got = some f)
    (hdec : decodeFrame s.par f = .ok d) (hc : d.command.toNat = command) (hpos : d.isPositiveAnswer = false) :
    runAct (.answer command) t s = .fail .negativeAnswer s := by
  simp [runAct, actAnswer, hgot, hdec, hc, hpos]

theorem runAct_answer_positive {command : Nat} {f : Frame} {d : Decoded} (hgot : t.got = some f)
    (hdec : decodeFrame s.par f = .ok d) (hc : d.command.toNat = command) (hpos : d.isPositiveAnswer = true) :
    runAct (.answer command) t s = .done { t with value := .record d } s := by
  simp [runAct, actAnswer, hgot, hdec, hc, hpos]

/-! ### recv's decoding (R251) -/

theorem runAct_received_none (hgot : t.got = none) :
    runAct .received t s = .done { t with value := .received none false } s := by
  simp only [runAct, actReceived, hgot]

theorem runAct_received_error {f : Frame} {c : Cause} (hgot : t.got = some f) (hdec : decodeFrame s.par f = .error c) :
    runAct .received t s = .fail (.engine c) s := by
  simp only [runAct, actReceived, hgot, hdec]

theorem runAct_received_noBody {f : Frame} {d : Decoded} (hgot : t.got = some f) (hdec : decodeFrame s.par f = .ok d)
    (hbody : d.body = none) :
    runAct .received t s =
      .done { t with value := .received none (Config.freeFiltered s.fresh) } { s with fresh := s.fresh + 1 } := by
  simp only [runAct, actReceived, hgot, hdec, hbody]

/-- The CAN frame is returned whatever the integrity flag says, which only adds the warning to the trace (R139, R251). -/
theorem runAct_received_body {f : Frame} {d : Decoded} {b : Body} (hgot : t.got = some f)
    (hdec : decodeFrame s.par f = .ok d) (hbody : d.body = some b) :
    runAct .received t s =
      .done { t with value := .received (some (receivedOf s.par b)) (Config.freeFiltered s.fresh) }
        { s with
          trace := s.trace ++ if b.isErrorFrame then [.warning .integrityWarn f] else []
          fresh := s.fresh + 1 } := by
  cases hflag : b.isErrorFrame <;> simp [runAct, actReceived, hgot, hdec, hbody, hflag, emit]

/-- A piece that fails leaves the host's side: only a write of the session changes it, and that cannot fail. -/
theorem host_of_runAct_fail {a : Act} {e : HostError} {u : State} (h : runAct a t s = .fail e u) : u.host = s.host := by
  have ha : ∀ w, a ≠ .session w := by
    rintro w rfl
    exact nomatch h
  have hh := runAct_host ha t s
  rwa [h] at hh

end Pieces

end Sys2Proof.Machine
end

section
/-!
PROOFS. A host operation that begins, and one that goes on, in the words of the statements: ended at once or pending under the
next number (log 29); waiting, ended or continued under its own.
-/

namespace Sys2Proof.Machine

open Sys2Proof Sys2Proof.Safety

/-! ### One piece of an operation -/

section Advance

variable {t now : Task} {s u : State} {a : Act} {rest : List Act}

theorem advance_done (ha : t.acts = a :: rest) (hr : runAct a t s = .done now u) : advance t s = goOn rest now u := by
  simp only [advance, ha, hr]

theorem advance_wait (ha : t.acts = a :: rest) (hr : runAct a t s = .wait now u) : advance t s = park now u := by
  simp only [advance, ha, hr]

theorem advance_fail {e : HostError} (ha : t.acts = a :: rest) (hr : runAct a t s = .fail e u) :
    advance t s = handleError e t u := by
  simp only [advance, ha, hr]

/-- A STOP that comes to a stopped reader closes the port and ends with what the close has answered; either way the session's
phase is as after the port's closing (R204, R205 (a), R231). -/
theorem advance_stop {c : Option Cause} (ha : t.acts = [.stop, .session .portClosed]) (hh : t.handler = .closePort)
    (hrun : s.eng.run = false) (hc : closePort (stopRequested t s) = (c, u)) :
    advance t s = giveResult t.ticket (stopValue c) (retire t (writeSession .portClosed u)) := by
  cases c with
  | none =>
    rw [advance_done ha (runAct_stop_stopped hrun hc)]
    rfl
  | some c =>
    rw [advance_fail ha (runAct_stop_failed hrun hc), handleError, hh]
    rfl

end Advance

/-! ### An operation that begins -/

/-- A host operation before its first piece, under the next number (R33 (3), log 29). -/
def newTask (acts : List Act) (handler : Handler) (s : State) : Task :=
  { ticket := s.host.nextTicket, acts := acts, handler := handler, raw := [], got := none, waiting := false, value := .ok }

theorem beginTask_eq (acts : List Act) (handler : Handler) (s : State) :
    beginTask acts handler s = advance (newTask acts handler s) (nextTicket s) := rfl

/-- A new operation that stays pending, in the words of the statements. -/
theorem park_newTask (acts : List Act) (handler : Handler) (raw : List Byte) (waiting : Bool) (s : State) :
    park { newTask acts handler s with raw := raw, waiting := waiting } (nextTicket s) =
      pendingWith acts handler raw waiting s := rfl

/-- A new operation that ends at once, in the words of the statements: no pending one has its number. -/
theorem giveResult_retire_new {s : State} {t : Task} (h : TicketsFresh s) (ht : t.ticket = s.host.nextTicket) (v : Value) :
    giveResult t.ticket v (retire t (nextTicket s)) = returned v s := by
  simp only [giveResult, retire, nextTicket, returned, ht, otherTasks_fresh h]

/-- A pop on an empty queue is pending, whatever is to follow it (R197 (b)). -/
theorem beginTask_pop_wait {s : State} {q : QueueId} (h : queueOf q s = []) (timeout : Nat) (rest : List Act)
    (handler : Handler) :
    beginTask (.pop q timeout :: rest) handler s = pendingWith (.pop q timeout :: rest) handler [] true s := by
  rw [← queueOf_nextTicket] at h
  exact advance_wait rfl (runAct_pop_wait timeout h rfl)

/-- A pop on a non-empty queue takes the head, and the operation goes on with the pieces behind it (R197 (a)). -/
theorem beginTask_pop_cons {s : State} {q : QueueId} {f : Frame} {frames : List Frame} (h : queueOf q s = f :: frames)
    (timeout : Nat) (rest : List Act) (handler : Handler) :
    beginTask (.pop q timeout :: rest) handler s =
      goOn rest { newTask (.pop q timeout :: rest) handler s with got := some f } (nextTicket (setQueue q frames s)) := by
  rw [← setQueue_nextTicket]
  rw [← queueOf_nextTicket] at h
  exact advance_done rfl (runAct_pop_cons timeout h)

/-- A pop of its own on a non-empty queue returns the head at once (R197 (a), R198, R199). -/
theorem beginTask_pop_deliver {s : State} {q : QueueId} {f : Frame} {frames : List Frame} (hf : TicketsFresh s)
    (h : queueOf q s = f :: frames) (timeout : Nat) (handler : Handler) :
    beginTask [.pop q timeout, .deliver] handler s = returned (.frame f) (setQueue q frames s) := by
  have hhost := setQueue_host q frames s
  rw [beginTask_pop_cons h]
  exact giveResult_retire_new (t := newTask [] handler s) (ticketsFresh_of_host hhost hf) (by rw [hhost]; rfl) (.frame f)

/-- A new STOP requests the stop (R203). -/
theorem stopRequested_newTask (acts : List Act) (handler : Handler) (s : State) :
    stopRequested (newTask acts handler s) (nextTicket s) = nextTicket { s with eng.stopReq := true } := by
  rw [stopRequested, newTask, Bool.not_false, Bool.or_true]
  rfl

/-- A STOP that is issued while the reader runs waits (R203). -/
theorem beginTask_stop_running {s : State} (hrun : s.eng.run = true) :
    beginTask [.stop, .session .portClosed] .closePort s =
      pendingWith [.stop, .session .portClosed] .closePort [] true { s with eng.stopReq := true } := by
  rw [beginTask_eq, advance_wait rfl (runAct_stop_running (s := nextTicket s) _ hrun), stopRequested_newTask]
  exact park_newTask _ .closePort [] true { s with eng.stopReq := true }

/-- A STOP that is issued with the reader stopped runs both phases at once (R204, log 16). -/
theorem beginTask_stop_stopped {s u : State} {c : Option Cause} (hf : TicketsFresh s) (hrun : s.eng.run = false)
    (hc : closePort { s with eng.stopReq := true } = (c, u)) :
    beginTask [.stop, .session .portClosed] .closePort s =
      returned (stopValue c) { u with host.session.phase := portPhase u.host.session.phase } := by
  have hhost : u.host = s.host := by
    have h := (closePort_move (s := { s with eng.stopReq := true }) hrun).2.2
    rwa [hc] at h
  have hclose : closePort (stopRequested (newTask [.stop, .session .portClosed] .closePort s) (nextTicket s)) =
      (c, nextTicket u) := by
    rw [stopRequested_newTask, closePort_nextTicket, hc]
  rw [beginTask_eq, advance_stop (s := nextTicket s) rfl rfl hrun hclose]
  exact giveResult_retire_new (t := newTask [.stop, .session .portClosed] .closePort s)
    (s := writeSession .portClosed u) (ticketsFresh_of_host (t := u) hhost hf) (by rw [writeSession_nextTicket, hhost]; rfl) _

/-- A request whose ENC accepts is pending with the pieces behind it (R221 line 1). -/
theorem beginTask_enc_ok {s : State} {command flags length : Nat} {payload bytes : List Byte} {seq : BitVec 8}
    (h : encodeFrame s.par s.eng.seqTx command flags length payload = .ok (bytes, seq)) (rest : List Act)
    (handler : Handler) :
    beginTask (.enc command flags length payload :: .wr :: rest) handler s =
      pendingWith (.wr :: rest) handler bytes false { s with eng.seqTx := seq } :=
  advance_done (t := newTask _ handler s) rfl (runAct_enc_ok (s := nextTicket s) h)

/-! ### An operation that goes on -/

section Resume

variable {s u : State} {t now : Task} {a : Act} {rest : List Act}

/-- A pending operation that ends, in the words of the statements. -/
theorem giveResult_retire_pending (h : TicketsFresh s) (ht : t ∈ s.host.tasks) (hu : u.host.tasks = s.host.tasks)
    (v : Value) : giveResult t.ticket v (retire t u) = ended t v u := by
  simp only [giveResult, retire, ended, hu, otherTasks_erase h ht]

/-- A pending operation whose first piece waits. -/
theorem resumeTask_wait (h : TicketsFresh s) (ht : t ∈ s.host.tasks) (ha : t.acts = a :: rest)
    (hr : runAct a t s = .wait now u) : resumeTask t.ticket s = continued t now u := by
  have hk := runAct_ticket a t s
  rw [hr] at hk
  obtain ⟨hticket, htasks, -⟩ := hk
  rw [resumeTask_pending h ht, advance_wait ha hr]
  simp only [park, giveResult, continued, hticket, htasks, otherTasks_erase h ht]

/-- A STOP in progress that finds the reader stopped (R204, R205 (a), R231). -/
theorem resumeTask_stop {c : Option Cause} (h : TicketsFresh s) (ht : t ∈ s.host.tasks)
    (ha : t.acts = [.stop, .session .portClosed]) (hh : t.handler = .closePort) (hrun : s.eng.run = false)
    (hc : closePort (stopRequested t s) = (c, u)) :
    resumeTask t.ticket s =
      ended t (stopValue c) { u with host.session.phase := portPhase u.host.session.phase } := by
  have hhost : u.host = s.host := by
    have h := (closePort_move (s := stopRequested t s) hrun).2.2
    rwa [hc] at h
  rw [resumeTask_pending h ht, advance_stop ha hh hrun hc]
  exact giveResult_retire_pending (u := writeSession .portClosed u) h ht (by rw [writeSession_tasks, hhost]) _

/-- Leaving out a number leaves no operation of that number. -/
theorem notMem_erase_of_ticket (h : TicketsFresh s) (ht : t ∈ s.host.tasks) (hn : now.ticket = t.ticket) :
    now ∉ s.host.tasks.erase t := by
  rw [← otherTasks_erase h ht]
  simp [otherTasks, hn]

theorem erase_append_singleton {l : List Task} (h : t ∉ l) : (l ++ [t]).erase t = l := by
  rw [List.erase_append_right _ h, List.erase_cons_head, List.append_nil]

/-- What an operation has become ends as the operation itself would. -/
theorem ended_continued (h : TicketsFresh s) (ht : t ∈ s.host.tasks) (hn : now.ticket = t.ticket) (v : Value) :
    ended now v (continued t now s) = ended t v s := by
  simp only [ended, continued, erase_append_singleton (notMem_erase_of_ticket h ht hn), hn]

end Resume

/-! ### An operation from its issue to its end -/

/-- The state `s` with this operation begun and pending, and nothing else changed. -/
def withPending (t : Task) (s : State) : State :=
  { s with
    host.tasks := s.host.tasks ++ [t]
    host.reply := some { ticket := t.ticket, value := .pending }
    host.nextTicket := s.host.nextTicket + 1 }

theorem pendingWith_eq {s : State} (h : TicketsFresh s) (acts : List Act) (handler : Handler) (raw : List Byte)
    (waiting : Bool) :
    pendingWith acts handler raw waiting s =
      withPending { newTask acts handler s with raw := raw, waiting := waiting } s := by
  have ho : s.host.tasks.filter (fun t => t.ticket != s.host.nextTicket) = s.host.tasks := otherTasks_fresh h
  rw [pendingWith, ho]
  rfl

section Pending

variable {s u : State} {t now : Task} {a : Act} {rest : List Act}

theorem mem_withPending (t : Task) (s : State) : t ∈ (withPending t s).host.tasks :=
  List.mem_append_right _ (List.mem_singleton.2 rfl)

theorem park_new (h : TicketsFresh s) (ht : t.ticket = s.host.nextTicket) :
    park t (nextTicket s) = withPending t s := by
  simp only [park, giveResult, nextTicket, withPending, ht, otherTasks_fresh h]

theorem notMem_of_ticket_next (h : TicketsFresh s) (ht : t.ticket = s.host.nextTicket) : t ∉ s.host.tasks :=
  fun hmem => Nat.ne_of_lt (h.2 t hmem) ht

theorem ticketsFresh_withPending (h : TicketsFresh s) (ht : t.ticket = s.host.nextTicket) :
    TicketsFresh (withPending t s) := by
  constructor
  · rw [withPending, List.map_append, List.map_singleton, ht]
    refine h.1.append (List.nodup_singleton _) ?_
    simpa using fun x hx => Nat.ne_of_lt (h.2 x hx)
  · intro x hx
    rcases List.mem_append.1 hx with hx | hx
    · exact Nat.lt_succ_of_lt (h.2 x hx)
    · rw [List.mem_singleton.1 hx, ht]
      exact Nat.lt_succ_self _

/-- Ending an operation that has begun under the next number is as if it had returned at once. -/
theorem ended_withPending (h : TicketsFresh s) (ht : t.ticket = s.host.nextTicket) (v : Value) :
    ended t v (withPending t s) = returned v s := by
  simp only [ended, withPending, returned, erase_append_singleton (notMem_of_ticket_next h ht), ht]

theorem continued_withPending (h : TicketsFresh s) (ht : t.ticket = s.host.nextTicket) (hn : now.ticket = t.ticket) :
    continued t now (withPending t s) = withPending now s := by
  simp only [continued, withPending, erase_append_singleton (notMem_of_ticket_next h ht), hn]

/-- An operation that has begun and whose first piece is done. -/
theorem resume_withPending_done (h : TicketsFresh s) (ht : t.ticket = s.host.nextTicket) (ha : t.acts = a :: rest)
    (hr : runAct a t (withPending t s) = .done now u) :
    resumeTask s.host.nextTicket (withPending t s) = proceeds t now rest u := by
  rw [← ht]
  exact resumeTask_done (ticketsFresh_withPending h ht) (mem_withPending t s) ha hr

/-- An operation that has begun and whose first piece fails. -/
theorem resume_withPending_fail {e : HostError} (h : TicketsFresh s) (ht : t.ticket = s.host.nextTicket)
    (ha : t.acts = a :: rest) (hr : runAct a t (withPending t s) = .fail e u) :
    resumeTask s.host.nextTicket (withPending t s) = failed e t u := by
  rw [← ht]
  exact resumeTask_fail (ticketsFresh_withPending h ht) (mem_withPending t s) ha hr

end Pending

end Sys2Proof.Machine
end

section
/-!
PROOFS. The transport's host operations (R190 to R205): WR, the pops and STOP, issued and in progress.
-/

namespace Sys2Proof.Machine

open Sys2Proof Sys2Proof.Safety

/-- Settles O35, by the environment's answer: listed, not asked for, or free. -/
theorem wrOutcomes : Obligations.WrOutcomes := by
  unfold Obligations.WrOutcomes
  intro s raw answers
  refine ⟨fun hopen h => exec_wr_done (writeFlush_ok hopen h), fun hopen => exec_wr_fail (writeFlush_closed hopen),
    fun n hopen h => exec_wr_fail (writeFlush_failed hopen h), fun hopen h => ?free⟩
  case free =>
    obtain hok | ⟨n, hfailed⟩ := writeFlush_free (raw := raw) hopen h
    · exact .inl (exec_wr_done hok)
    · exact .inr ⟨n, exec_wr_fail hfailed⟩

/-! ### The pops (R197 to R199) -/

/-- Settles O36: both rows are the pop of their queue with nothing but the delivery behind it. -/
theorem popTakesTheHead : Obligations.PopTakesTheHead := by
  unfold Obligations.PopTakesTheHead
  intro s timeout f rest hf
  exact ⟨fun h => congrArg _ (beginTask_pop_deliver (q := .control) hf h timeout .surface),
    fun h => congrArg _ (beginTask_pop_deliver (q := .message) hf h timeout .surface)⟩

/-- A pop of its own that has waited ends when it goes on, with the head or with None as result (R197 (b)). -/
theorem resumeTask_pop_deliver {u : State} {t : Task} {q : QueueId} {timeout : Nat} (hf : TicketsFresh u)
    (ht : t ∈ u.host.tasks) (hw : t.waiting = true) (ha : t.acts = [.pop q timeout, .deliver]) :
    resumeTask t.ticket u = ended t (popValue (queueOf q u).head?) (setQueue q (queueOf q u).tail u) :=
  resumeTask_done hf ht ha (runAct_pop_waiting q timeout hw)

theorem popValue_head? (frames : List Frame) :
    popValue frames.head? = match frames with | f :: _ => .frame f | [] => .noFrame := by
  cases frames <;> rfl

/-- Settles O37: on an empty queue the pop waits; when it goes on, the queue as it is then decides. -/
theorem popWaitsForAFrameOrGivesUp : Obligations.PopWaitsForAFrameOrGivesUp := by
  unfold Obligations.PopWaitsForAFrameOrGivesUp
  intro s u timeout t
  refine ⟨fun h => congrArg _ (beginTask_pop_wait (q := .control) h timeout _ _),
    fun h => congrArg _ (beginTask_pop_wait (q := .message) h timeout _ _), ?control, ?message⟩
  case control =>
    intro hf ht hw ha
    rw [resumeTask_pop_deliver hf ht hw ha, popValue_head?]
    exact ⟨rfl, rfl, rfl⟩
  case message =>
    intro hf ht hw ha
    rw [resumeTask_pop_deliver hf ht hw ha, popValue_head?]
    exact ⟨rfl, rfl, rfl⟩

/-! ### STOP (R203 to R205) -/

/-- Settles O38: phase 1 while the reader runs; else the close of the port, by the environment's answer to it. -/
theorem stopPhases : Obligations.StopPhases := by
  unfold Obligations.StopPhases
  intro s answers hf
  refine ⟨fun hrun => congrArg _ (beginTask_stop_running hrun), fun hrun hopen => ?closed, fun hrun hopen h => ?ok,
    fun hrun hopen h => ?failed, fun hrun hopen h => ?free⟩
  case closed =>
    exact congrArg _ (beginTask_stop_stopped hf hrun (closePort_closed (s := { s with eng.stopReq := true }) hopen))
  case ok =>
    exact congrArg _ (beginTask_stop_stopped hf hrun (closePort_listed (s := { s with eng.stopReq := true }) hopen h))
  case failed =>
    exact congrArg _ (beginTask_stop_stopped hf hrun (closePort_listed (s := { s with eng.stopReq := true }) hopen h))
  case free =>
    have hclose := closePort_free (s := { s with eng.stopReq := true }) hopen h
    refine ⟨_, ?_, congrArg _ (beginTask_stop_stopped hf hrun hclose)⟩
    split_ifs
    · exact .inl rfl
    · exact .inr rfl

/-- What the close answers is STOP's result: ok, or IOError(Close) of a port that was open (R205). -/
theorem stopValue_closePort (s : State) :
    stopValue (closePort s).1 = .ok
      ∨ (stopValue (closePort s).1 = .error (.engine .ioClose) ∧ s.eng.portOpen = true) := by
  obtain h | ⟨h, hopen⟩ := closePort_cause s <;> rw [h]
  · exact .inl rfl
  · exact .inr ⟨rfl, hopen⟩

/-- Settles O39: it waits while the reader runs; else it closes the port, which leaves everything else. -/
theorem stopJoinsBeforeClosing : Obligations.StopJoinsBeforeClosing := by
  unfold Obligations.StopJoinsBeforeClosing
  intro s t hf ht ha hh
  refine ⟨fun hrun => resumeTask_wait hf ht ha (runAct_stop_running t hrun), fun hrun => ?stopped⟩
  case stopped =>
    obtain ⟨-, heng, hhost⟩ := closePort_move (s := stopRequested t s) hrun
    rw [resumeTask_stop hf ht ha hh hrun (c := (closePort (stopRequested t s)).1) (u := (closePort (stopRequested t s)).2) rfl]
    refine ⟨heng, closePort_txStream _, ?tasks, ?session, _, rfl, stopValue_closePort _⟩
    case tasks => exact congrArg (fun h => h.tasks.erase t) hhost
    case session =>
      exact congrArg (fun h => { h.session with phase := portPhase h.session.phase }) hhost

end Sys2Proof.Machine
end

section
/-!
PROOFS. recv (R251): the wait for a frame, and its decoding.
-/

namespace Sys2Proof.Machine

open Sys2Proof Sys2Proof.Safety

/-- recv with its frame taken from `MQ`: only the decoding is left. -/
def receiving (timeout : Nat) (f : Frame) (s : State) : Task :=
  { newTask [.pop .message timeout, .received] .surface s with acts := [.received], got := some f }

/-- With a frame in `MQ` recv takes the head and is pending with the decoding left (R197 (a)). -/
theorem exec_recv_cons {s : State} {f : Frame} {rest : List Frame} (hf : TicketsFresh s) (h : s.eng.mq = f :: rest)
    (timeout : Nat) :
    exec (.recv timeout) s = .next (withPending (receiving timeout f s) { s with eng.mq := rest }) := by
  have hbegin := beginTask_pop_cons (q := .message) h timeout [.received] .surface
  show Host.Outcome.next (beginTask [.pop .message timeout, .received] .surface s) = _
  rw [hbegin]
  exact congrArg _ (park_new (s := { s with eng.mq := rest }) (t := receiving timeout f s) hf rfl)

section Received

variable {s : State} {t : Task} {f : Frame}

/-- The decoding is done or fails, and leaves the engine and the host's side either way (R251). -/
theorem runAct_received_cases (hgot : t.got = some f) :
    ∃ u : State, ((∃ v, runAct .received t s = .done { t with value := v } u) ∨ ∃ e, runAct .received t s = .fail e u)
      ∧ u.eng = s.eng ∧ u.host = s.host := by
  cases hdec : decodeFrame s.par f with
  | error c => exact ⟨s, .inr ⟨_, runAct_received_error hgot hdec⟩, rfl, rfl⟩
  | ok d =>
    cases hbody : d.body with
    | none => exact ⟨_, .inl ⟨_, runAct_received_noBody hgot hdec hbody⟩, rfl, rfl⟩
    | some b => exact ⟨_, .inl ⟨_, runAct_received_body hgot hdec hbody⟩, rfl, rfl⟩

/-- The decoding returns the CAN frame of the body (R251). -/
theorem resumeTask_received_body {d : Decoded} {b : Body} (hf : TicketsFresh s) (ht : t ∈ s.host.tasks)
    (ha : t.acts = [.received]) (hgot : t.got = some f) (hdec : decodeFrame s.par f = .ok d) (hbody : d.body = some b) :
    resumeTask t.ticket s =
      ended t (.received (some (receivedOf s.par b)) (Config.freeFiltered s.fresh))
        { s with
          trace := s.trace ++ if b.isErrorFrame then [.warning .integrityWarn f] else []
          fresh := s.fresh + 1 } :=
  resumeTask_done hf ht ha (runAct_received_body hgot hdec hbody)

theorem resumeTask_received_error {c : Cause} (hf : TicketsFresh s) (ht : t ∈ s.host.tasks) (ha : t.acts = [.received])
    (hgot : t.got = some f) (hdec : decodeFrame s.par f = .error c) : resumeTask t.ticket s = failed (.engine c) t s :=
  resumeTask_fail hf ht ha (runAct_received_error hgot hdec)

/-- Whatever the frame, a recv that has it ends, with the engine and the other operations as they are. -/
theorem resume_receiving_ends (hf : TicketsFresh s) (timeout : Nat) (f : Frame) :
    (resumeTask s.host.nextTicket (withPending (receiving timeout f s) s)).eng = s.eng
      ∧ (resumeTask s.host.nextTicket (withPending (receiving timeout f s) s)).host.tasks = s.host.tasks := by
  obtain ⟨u, hcases, heng, hhost⟩ :=
    runAct_received_cases (s := withPending (receiving timeout f s) s) (t := receiving timeout f s) (f := f) rfl
  have hend : ∃ v, resumeTask s.host.nextTicket (withPending (receiving timeout f s) s) =
      ended (receiving timeout f s) v u := by
    obtain ⟨v, hr⟩ | ⟨e, hr⟩ := hcases
    · exact ⟨v, resume_withPending_done (rest := []) hf rfl rfl hr⟩
    · exact ⟨_, resume_withPending_fail (rest := []) hf rfl rfl hr⟩
  obtain ⟨v, hend⟩ := hend
  rw [hend]
  refine ⟨heng, ?_⟩
  show u.host.tasks.erase _ = _
  rw [hhost]
  exact erase_append_singleton (notMem_of_ticket_next hf rfl)

end Received

/-- A recv that waits takes, when it goes on, the head of `MQ` if there is one (R197 (b)). -/
theorem resumeTask_recv_waiting {s : State} {t : Task} {timeout : Nat} (hf : TicketsFresh s) (ht : t ∈ s.host.tasks)
    (ha : t.acts = [.pop .message timeout, .received]) (hw : t.waiting = true) :
    resumeTask t.ticket s =
      continued t { t with acts := [.received], got := s.eng.mq.head?, waiting := false }
        { s with eng.mq := s.eng.mq.tail } :=
  resumeTask_done hf ht ha (runAct_pop_waiting .message timeout hw)

/-- A recv that has given up returns None, with `filtered` false (R251 line 1). -/
theorem resumeTask_recv_givenUp {s : State} {t : Task} (hf : TicketsFresh s) (ht : t ∈ s.host.tasks)
    (ha : t.acts = [.received]) (hgot : t.got = none) : resumeTask t.ticket s = ended t (.received none false) s :=
  resumeTask_done hf ht ha (runAct_received_none hgot)

/-- Settles O46: the issue and the end of the wait by whether `MQ` has a frame, the decoding by what DEC says. -/
theorem recvReturnsTheCanFrame : Obligations.RecvReturnsTheCanFrame := by
  unfold Obligations.RecvReturnsTheCanFrame
  intro s timeout hf
  refine ⟨fun h => congrArg _ (beginTask_pop_wait (q := .message) h timeout _ _), ?head, ?waiting, ?decoding⟩
  case head =>
    intro f rest h
    have hf' : TicketsFresh { s with eng.mq := rest } := hf
    have hmem := mem_withPending (receiving timeout f s) { s with eng.mq := rest }
    have hpending := ticketsFresh_withPending (t := receiving timeout f s) hf' rfl
    obtain ⟨heng, htasks⟩ := resume_receiving_ends hf' timeout f
    refine ⟨_, receiving timeout f s, exec_recv_cons hf h timeout, rfl, ⟨rfl, rfl, rfl, rfl, rfl, rfl⟩, rfl, rfl, rfl, rfl,
      rfl, rfl, heng, htasks, ?frame, ?error⟩
    case frame =>
      intro d b hdec hbody
      have hend := resumeTask_received_body hpending hmem rfl rfl hdec hbody
      exact ⟨_, congrArg (·.host.reply) hend, congrArg State.trace hend⟩
    case error =>
      intro c hdec
      exact congrArg (·.host.reply) (resumeTask_received_error hpending hmem rfl rfl hdec)
  case waiting =>
    intro t ht ha hw
    have hresume := resumeTask_recv_waiting hf ht ha hw
    refine ⟨fun f rest h => ?arrived, fun h => ?empty⟩
    case arrived => rwa [h] at hresume
    case empty =>
      have hsame : { s with eng.mq := s.eng.mq.tail } = s := by
        rw [h, List.tail_nil, ← h]
      rw [hsame, h] at hresume
      refine ⟨hresume, ?_⟩
      have hfresh := ticketsFresh_resumeTask t.ticket hf
      rw [hresume] at hfresh ⊢
      have hend := resumeTask_recv_givenUp (t := { t with acts := [.received], got := none, waiting := false }) hfresh
        (List.mem_append_right _ (List.mem_singleton.2 rfl)) rfl rfl
      exact hend.trans
        (ended_continued (now := { t with acts := [.received], got := none, waiting := false }) hf ht rfl _)
  case decoding =>
    intro t f ht ha hgot
    exact ⟨fun d b hdec hbody => ⟨_, _, resumeTask_received_body hf ht ha hgot hdec hbody⟩,
      fun c hdec => resumeTask_received_error hf ht ha hgot hdec⟩

end Sys2Proof.Machine
end

section
/-!
PROOFS. An exchange, whole and piece by piece (R221), and what the host software does when a piece of an operation fails (R205,
R227, R229 to R231).
-/

namespace Sys2Proof.Machine

open Sys2Proof Sys2Proof.Safety

/-! ### The pieces of a whole exchange (R221) -/

/-- The fields of a control request that fit are encoded with the next tag (R112, R115). -/
theorem encodeFrame_request {p : Params} (hp : p.Facts) (seq : BitVec 8) {command flags length : Nat} {payload : List Byte}
    (hrange : p.inRange command = true) (hmessage : command ≠ p.cmdMessage.toNat) (hflags : flags ≤ 255)
    (hlength : length ≤ 255) (hpayload : length > 0 → payload.length = length) :
    encodeFrame p seq command flags length payload =
      .ok (withPayload (headerF4 command seq flags length) length payload, seq + 1) := by
  have hlimit : fieldLimit p command = 255 := if_neg hmessage
  exact encodeFrame_ctrl hp seq hrange hmessage
    ((fieldError_eq_none _ _ _ _ _).2 ⟨hlimit ▸ hflags, hlimit ▸ hlength, hpayload⟩)

/-- The channel has taken these bytes whole, and its next answer is used up (R190). -/
def sent (raw : List Byte) (answers : List WrAnswer) (s : State) : State :=
  { s with ch.txStream := s.ch.txStream ++ raw, ch.wrAnswers := answers, trace := s.trace ++ [.tx raw] }

/-- What an answer that decodes makes of an exchange: its record, or the error of the first comparison that fails (R221 lines 5
to 8). -/
def exchangeValue (command : Nat) (d : Decoded) : Value :=
  if d.command.toNat ≠ command then .error .commandMismatch
  else if d.isPositiveAnswer then .record d else .error .negativeAnswer

section Steps

variable {s u : State} {t now : Task} {a : Act} {rest : List Act}

/-- An operation that has begun, whose first piece is done and whose next one is a host operation again, stays pending with
what is left; `hrest` says that nothing of the host software's own comes first. -/
theorem resume_withPending_continues (hf : TicketsFresh s) (ht : t.ticket = s.host.nextTicket) (ha : t.acts = a :: rest)
    (hr : runAct a t (withPending t s) = .done now (withPending t u)) (hu : u.host = s.host)
    (hrest : proceeds t now rest (withPending t u) =
      continued t { now with acts := rest, waiting := false } (withPending t u)) :
    resumeTask s.host.nextTicket (withPending t s) = withPending { now with acts := rest, waiting := false } u := by
  have hk := runAct_ticket a t (withPending t s)
  rw [hr] at hk
  rw [resume_withPending_done hf ht ha hr, hrest]
  exact continued_withPending (now := { now with acts := rest, waiting := false }) (ticketsFresh_of_host hu hf)
    (by rw [hu, ht]) hk.1

/-- An exchange's WR that the channel accepts (R221 line 2). -/
theorem resume_wr_pop {q : QueueId} {timeout : Nat} {answers : List WrAnswer} (hf : TicketsFresh s)
    (ht : t.ticket = s.host.nextTicket) (ha : t.acts = .wr :: .pop q timeout :: rest) (hopen : s.eng.portOpen = true)
    (hw : s.ch.wrAnswers = .ok :: answers) :
    resumeTask s.host.nextTicket (withPending t s) =
      withPending { t with acts := .pop q timeout :: rest, waiting := false } (sent t.raw answers s) :=
  resume_withPending_continues (u := sent t.raw answers s) hf ht ha
    (runAct_wr_done (writeFlush_ok (s := withPending t s) hopen hw)) rfl rfl

/-- An exchange's pop with the answer at the head of `CQ` (R221 line 3). -/
theorem resume_pop_answer {command timeout : Nat} {f : Frame} {frames : List Frame} (hf : TicketsFresh s)
    (ht : t.ticket = s.host.nextTicket) (ha : t.acts = .pop .control timeout :: .answer command :: rest)
    (hcq : s.eng.cq = f :: frames) :
    resumeTask s.host.nextTicket (withPending t s) =
      withPending { t with acts := .answer command :: rest, got := some f, waiting := false } { s with eng.cq := frames } :=
  resume_withPending_continues (u := { s with eng.cq := frames }) hf ht ha
    (runAct_pop_cons (s := withPending t s) (q := .control) timeout hcq) rfl rfl

/-- An exchange of its own ends with what its answer decodes to, or with the error that the comparison raises. -/
theorem resumeTask_last_answer {command : Nat} {f : Frame} {d : Decoded} (hf : TicketsFresh s) (ht : t ∈ s.host.tasks)
    (ha : t.acts = [.answer command]) (hh : t.handler = .surface) (hgot : t.got = some f)
    (hdec : decodeFrame s.par f = .ok d) :
    resumeTask t.ticket s = ended t (exchangeValue command d) s := by
  have hfail : ∀ e, failed e t s = ended t (.error e) s := fun e => by simp only [failed, hh]
  unfold exchangeValue
  split_ifs with hc hpos
  · rw [resumeTask_fail hf ht ha (runAct_answer_mismatch hgot hdec hc), hfail]
  · exact resumeTask_done hf ht ha (runAct_answer_positive hgot hdec (not_not.1 hc) hpos)
  · rw [resumeTask_fail hf ht ha (runAct_answer_negative hgot hdec (not_not.1 hc) (by simpa using hpos)), hfail]

/-- The same of an exchange that has begun under the next number. -/
theorem resume_last_answer {command : Nat} {f : Frame} {d : Decoded} (hf : TicketsFresh s)
    (ht : t.ticket = s.host.nextTicket) (ha : t.acts = [.answer command]) (hh : t.handler = .surface)
    (hgot : t.got = some f) (hdec : decodeFrame s.par f = .ok d) :
    resumeTask s.host.nextTicket (withPending t s) = returned (exchangeValue command d) s := by
  rw [← ended_withPending hf ht, ← ht]
  exact resumeTask_last_answer (ticketsFresh_withPending hf ht) (mem_withPending t s) ha hh hgot hdec

/-- An exchange that has its frame, by its three pieces one after the other: the frame goes out, the answer is removed, and the
operation ends as the answer has it (R221 lines 2 to 8). -/
theorem resume_exchange {command timeout : Nat} {f : Frame} {d : Decoded} {frames : List Frame} {answers : List WrAnswer}
    (hf : TicketsFresh s) (ht : t.ticket = s.host.nextTicket) (ha : t.acts = [.wr, .pop .control timeout, .answer command])
    (hh : t.handler = .surface) (hopen : s.eng.portOpen = true) (hw : s.ch.wrAnswers = .ok :: answers)
    (hcq : s.eng.cq = f :: frames) (hdec : decodeFrame s.par f = .ok d) :
    resumeTask s.host.nextTicket
        (resumeTask s.host.nextTicket (resumeTask s.host.nextTicket (withPending t s))) =
      returned (exchangeValue command d) { sent t.raw answers s with eng.cq := frames } := by
  have hpop := resume_pop_answer (s := sent t.raw answers s)
    (t := { t with acts := [.pop .control timeout, .answer command], waiting := false }) hf ht rfl hcq
  have hanswer := resume_last_answer (s := { sent t.raw answers s with eng.cq := frames })
    (t := { t with acts := [.answer command], got := some f, waiting := false }) hf ht rfl hh rfl hdec
  rw [resume_wr_pop hf ht ha hopen hw]
  exact (congrArg (resumeTask s.host.nextTicket) hpop).trans hanswer

end Steps

/-- Settles O47: the whole by its pieces one after the other, each piece by how it ends. -/
theorem exchangeIsDecidedByTheHeadOfCQ : Obligations.ExchangeIsDecidedByTheHeadOfCQ := by
  unfold Obligations.ExchangeIsDecidedByTheHeadOfCQ
  refine ⟨?whole, ?enc, ?wr, ?pop, ?answer⟩
  case whole =>
    intro s command flags length payload f rest d answers hok hf hopen hw hrange hmessage hflags hlength hpayload hcq hdec
    have henc := encodeFrame_request (Params.facts hok) s.eng.seqTx hrange hmessage hflags hlength hpayload
    refine ⟨_, congrArg Host.Outcome.next (beginTask_enc_ok henc _ _), ?_⟩
    rw [pendingWith_eq (s := { s with eng.seqTx := s.eng.seqTx + 1 }) hf]
    exact resume_exchange (s := { s with eng.seqTx := s.eng.seqTx + 1 }) hf rfl rfl rfl hopen hw hcq hdec
  case enc =>
    intro s t command flags length payload rest hf ht ha
    exact ⟨fun bytes seq h => resumeTask_done hf ht ha (runAct_enc_ok h),
      fun c h => resumeTask_fail hf ht ha (runAct_enc_error h)⟩
  case wr =>
    intro s t rest hf ht ha
    exact ⟨fun answers hopen h => resumeTask_done hf ht ha (runAct_wr_done (writeFlush_ok hopen h)),
      fun hopen => resumeTask_fail hf ht ha (runAct_wr_fail (writeFlush_closed hopen)),
      fun n answers hopen h => resumeTask_fail hf ht ha (runAct_wr_fail (writeFlush_failed hopen h))⟩
  case pop =>
    intro s t timeout rest hf ht ha
    exact ⟨fun f frames h => resumeTask_done hf ht ha (runAct_pop_cons (q := .control) timeout h),
      fun h hw => resumeTask_wait hf ht ha (runAct_pop_wait (q := .control) timeout h hw),
      fun h hw => resumeTask_done hf ht ha (runAct_pop_giveUp (q := .control) timeout h hw)⟩
  case answer =>
    intro s t command rest f hf ht ha hgot
    exact ⟨fun c hdec => resumeTask_fail hf ht ha (runAct_answer_error hgot hdec),
      fun d hdec hc => resumeTask_fail hf ht ha (runAct_answer_mismatch hgot hdec hc),
      fun d hdec hc hpos => resumeTask_fail hf ht ha (runAct_answer_negative hgot hdec hc hpos),
      fun d hdec hc hpos => resumeTask_done hf ht ha (runAct_answer_positive hgot hdec hc hpos)⟩

/-! ### A piece that fails -/

/-- A positive answer to a shutdown's channelClose closes the channel and leaves its STOP, whose failure closes the port all the
same (R227, R230). -/
theorem proceeds_to_stop (t now : Task) (s : State) :
    proceeds t now [.session .channelClosed, .closing, .stop, .session .portClosed] s =
      continued t { now with acts := [.stop, .session .portClosed], handler := .closePort, waiting := false }
        { s with host.session.channelOpen := false, host.session.phase := closedPhase s.host.session.phase } := by
  simp only [proceeds, updateSession_channelClosed]

/-- Settles O50: a failing piece by what the operation does with errors, `fail` being a piece that always fails; and a shutdown
whose channelClose succeeds. -/
theorem shutdownGoesOnAndConstructAborts : Obligations.ShutdownGoesOnAndConstructAborts := by
  unfold Obligations.ShutdownGoesOnAndConstructAborts
  refine ⟨?anyPiece, ?failPiece, ?closed⟩
  case anyPiece =>
    intro s u t a rest e hf ht ha hr
    have hhost := host_of_runAct_fail hr
    rw [resumeTask_fail hf ht ha hr, ← hhost, failed]
    refine ⟨fun hh => ⟨?surface, rfl⟩, fun source hh => ?transition, fun hh => ?closeChannel, fun hh => ?shutdown,
      fun hh => ?closePort, fun hh => ?init⟩
    all_goals rw [hh]
  case failPiece =>
    intro s t rest e hf ht ha
    have hend : resumeTask t.ticket s = failed e t s := resumeTask_fail hf ht ha rfl
    refine ⟨hend, fun hh => ?_⟩
    rw [hend, failed, hh]
  case closed =>
    intro s t command f d hf ht ha hgot hdec hc hpos
    exact (resumeTask_done hf ht ha (runAct_answer_positive hgot hdec hc hpos)).trans (proceeds_to_stop t _ s)

end Sys2Proof.Machine
end

section
/-!
PROOFS. How the control operations begin (R221 to R230): a request by its ENC, a request that cannot be sent by its error, and a
construct by RST with its requests pending in order.
-/

namespace Sys2Proof.Machine

open Sys2Proof Sys2Proof.Safety

/-! ### An operation whose first piece fails -/

section Fails

variable {s : State} {a : Act} {e : HostError}

/-- The first piece of a new operation fails before it has changed anything. -/
theorem beginTask_fail (rest : List Act) (handler : Handler)
    (h : runAct a (newTask (a :: rest) handler s) (nextTicket s) = .fail e (nextTicket s)) :
    beginTask (a :: rest) handler s = handleError e (newTask (a :: rest) handler s) (nextTicket s) :=
  advance_fail rfl h

/-- The error of a new operation is its result (R221 line 1). -/
theorem handleError_new_surface (hf : TicketsFresh s) (e : HostError) (acts : List Act) :
    handleError e (newTask acts .surface s) (nextTicket s) = returned (.error e) s :=
  giveResult_retire_new (t := newTask acts .surface s) hf rfl (.error e)

/-- Where the new operation drives a transition of the session, that transition has failed (R231). -/
theorem handleError_new_transition (hf : TicketsFresh s) (e : HostError) (acts : List Act) (source : Phase) :
    handleError e (newTask acts (.transition source) s) (nextTicket s) =
      returned (.error e) { s with host.session.phase := failedPhase source s.host.session.phase } :=
  giveResult_retire_new (s := writeSession (.failedFrom source) s) (t := newTask acts (.transition source) s) hf rfl (.error e)

/-- A construct that fails is an initialization error, and the session is unusable (R229). -/
theorem handleError_new_init (hf : TicketsFresh s) (e : HostError) (acts : List Act) :
    handleError e (newTask acts .init s) (nextTicket s) =
      returned (.error (.initError e)) { s with host.session.phase := .failed } :=
  giveResult_retire_new (s := writeSession .failed s) (t := newTask acts .init s) hf rfl (.error (.initError e))

/-- A part of the configure step that cannot be sent is an error at once, and fails the step (R224, R225, R228, R231). -/
theorem beginTask_configurationError (hf : TicketsFresh s) (e : HostError) (rest : List Act) :
    beginTask (.fail e :: rest) (.transition .deviceOpen) s =
      returned (.error e) { s with host.session.phase := failedPhase .deviceOpen s.host.session.phase } :=
  (beginTask_fail rest _ rfl).trans (handleError_new_transition hf e _ _)

end Fails

/-- Settles O43: each of these operations has its error as first piece. -/
theorem configurationErrorsSendNothing : Obligations.ConfigurationErrorsSendNothing := by
  unfold Obligations.ConfigurationErrorsSendNothing
  intro s hf
  refine ⟨?rate, fun n => ?mode, fun raw => ?register, fun bps raw mode filters => ?both⟩
  case rate =>
    intro bps hlookup
    show Host.Outcome.next (beginTask (setBitrateActs s.par bps ++ _) _ s) = _
    rw [setBitrateActs, hlookup]
    exact congrArg _ (beginTask_configurationError hf _ _)
  case mode => exact congrArg _ (beginTask_configurationError hf .invalidMode [])
  case register => exact congrArg _ (beginTask_configurationError hf .unimplemented [])
  case both => exact congrArg _ ((beginTask_fail [] .init rfl).trans (handleError_new_init hf .bitrateAndBtr _))

/-! ### A request begins with its frame (R221 line 1, R112) -/

section Requests

variable {s : State}

/-- The pieces of an exchange behind its ENC (R221 lines 2 to 8), and what is to follow it. -/
def awaiting (p : Params) (command : Nat) (rest : List Act) : List Act :=
  .wr :: .pop .control p.tCtrl :: .answer command :: rest

/-- A request with one of the commands that R8 marks OPEN, whose fields fit, sends a control frame with the next tag. -/
theorem beginTask_request (hp : s.par.Facts) {command : Byte} {flags length : Nat} {payload : List Byte}
    (hc : command ∈ s.par.openCommands) (hflags : flags ≤ 255) (hlength : length ≤ 255) (hpayload : payload.length = length)
    (rest : List Act) (handler : Handler) :
    beginTask (xchgActs s.par command.toNat flags length payload ++ rest) handler s =
      requested command.toNat flags length payload (awaiting s.par command.toNat rest) handler s := by
  obtain ⟨hrange, hmessage⟩ := hp.ofOpen hc
  exact beginTask_enc_ok (encodeFrame_request hp s.eng.seqTx hrange hmessage hflags hlength fun _ => hpayload) _ handler

/-- A request without fields (D37). -/
theorem beginTask_bareRequest (hp : s.par.Facts) {command : Byte} (hc : command ∈ s.par.openCommands) (rest : List Act)
    (handler : Handler) :
    beginTask (xchgActs s.par command.toNat 0 0 [] ++ rest) handler s =
      requested command.toNat 0 0 [] (awaiting s.par command.toNat rest) handler s :=
  beginTask_request hp hc (Nat.zero_le _) (Nat.zero_le _) rfl rest handler

end Requests

/-- Settles O41: XCHG by what ENC says, each request without fields by its command, which is one that R8 marks OPEN. -/
theorem requestsBeginWithTheirFrame : Obligations.RequestsBeginWithTheirFrame := by
  unfold Obligations.RequestsBeginWithTheirFrame
  intro s hok
  have hp := Params.facts hok
  refine ⟨?xchg, ?rejected, ?deviceOpen, ?deviceClose, ?channelOpen, ?channelClose, ?shutdown⟩
  case xchg =>
    intro command flags length payload bytes seq henc
    exact congrArg _ (beginTask_enc_ok henc _ _)
  case rejected =>
    intro command flags length payload c hf henc
    have hfail := beginTask_fail (s := s) [.wr, .pop .control s.par.tCtrl, .answer command] .surface
      (runAct_enc_error (s := nextTicket s) henc)
    exact congrArg _ (hfail.trans (handleError_new_surface hf _ _))
  case deviceOpen => exact congrArg _ (beginTask_bareRequest hp (by simp [Params.openCommands]) _ _)
  case deviceClose => exact congrArg _ (beginTask_bareRequest hp (by simp [Params.openCommands]) _ _)
  case channelOpen => exact congrArg _ (beginTask_bareRequest hp (by simp [Params.openCommands]) _ _)
  case channelClose => exact congrArg _ (beginTask_bareRequest hp (by simp [Params.openCommands]) _ _)
  case shutdown =>
    exact congrArg _ (beginTask_bareRequest hp (command := s.par.cmdChannelClose) (by simp [Params.openCommands])
      [.session .channelClosed, .closing, .stop, .session .portClosed] _)

/-! ### The configure step's payloads (R59, R224 to R226) -/

/-- A field's bytes, low byte first, are the bytes that it is read from (R13, R53). -/
theorem leBytes_memRead {buf : List Byte} {off n : Nat} (h : off + n ≤ buf.length) :
    leBytes n (memRead buf off n) = (buf.drop off).take n := by
  induction n generalizing off with
  | zero => rfl
  | succ n ih =>
    have hoff : off < buf.length := by omega
    have hlt := (byteAt buf off).isLt
    rw [memRead_succ, leBytes, Nat.add_mul_mod_self_left, Nat.add_mul_div_left _ _ (by omega), Nat.mod_eq_of_lt hlt,
      Nat.div_eq_of_lt hlt, Nat.zero_add, ih (by omega), BitVec.ofNat_toNat, BitVec.setWidth_eq,
      List.drop_eq_getElem_cons hoff, List.take_succ_cons, byteAt_eq_getElem _ _ hoff]

/-- A payload of four 32-bit fields is their bytes one field after the other. -/
theorem fourFields_eq {payload : List Byte} (h : payload.length = 16) :
    leBytes 4 (memRead payload 0 4) ++ leBytes 4 (memRead payload 4 4) ++ leBytes 4 (memRead payload 8 4)
      ++ leBytes 4 (memRead payload 12 4) = payload := by
  rw [leBytes_memRead (by omega), leBytes_memRead (by omega), leBytes_memRead (by omega), leBytes_memRead (by omega),
    List.drop_zero, ← List.take_add, ← List.take_add, ← List.take_add, List.take_of_length_le (by omega)]

/-- The filter payload is the one whose four fields read as the statement has them. -/
theorem eq_filterPayload {p : Params} {index : BitVec 32} {f : Filter} {payload : List Byte} (hlength : payload.length = 16)
    (hindex : memRead payload 0 4 = index.toNat) (hkind : memRead payload 4 4 = (filterCode p f.kind).toNat)
    (hid : memRead payload 8 4 = f.id.toNat) (hmask : memRead payload 12 4 = f.mask.toNat) :
    payload = filterPayload p index f := by
  rw [← fourFields_eq hlength, hindex, hkind, hid, hmask, filterPayload]

/-- Settles O42: each is a request whose command R8 marks OPEN, with a payload of one byte or of the four fields. -/
theorem configurationRequestsCarryTheirPayload : Obligations.ConfigurationRequestsCarryTheirPayload := by
  unfold Obligations.ConfigurationRequestsCarryTheirPayload
  intro s hok
  have hp := Params.facts hok
  refine ⟨?rate, ?mode, ?filter⟩
  case rate =>
    intro bps code hlookup hflags
    show Host.Outcome.next (beginTask (setBitrateActs s.par bps ++ _) _ s) = _
    rw [setBitrateActs, hlookup]
    exact congrArg _ (beginTask_request hp (length := 1) (payload := [code]) (by simp [Params.openCommands]) hflags (by omega) rfl
      [.session (.bitrate bps), .session .configured] _)
  case mode =>
    rintro m _ hflags rfl
    exact congrArg _ (beginTask_request hp (length := 1) (payload := [modeByte s.par m]) (by simp [Params.openCommands])
      hflags (by omega) rfl [.session (.mode m)] _)
  case filter =>
    intro index f payload hflags hlength hindex hkind hid hmask
    obtain rfl := eq_filterPayload (p := s.par) hlength hindex hkind hid hmask
    exact congrArg _ (beginTask_request hp (by simp [Params.openCommands]) hflags (by omega) hlength [] _)

/-! ### The pieces of a construct (R229) -/

/-- A field keeps its own width of a number (R53). -/
theorem leBytes_mod (n v : Nat) : leBytes n (v % 256 ^ n) = leBytes n v := by
  induction n generalizing v with
  | zero => rfl
  | succ n ih =>
    rw [leBytes, leBytes, pow_succ', Nat.mod_mul_right_mod, Nat.mod_mul_right_div_self, ih]

theorem rateActs_eq (p : Params) (c : BusConfig) : rateActs p c = ratePieces p c.bitrate c.btr := by
  unfold rateActs ratePieces
  cases c.bitrate with
  | none => cases c.btr <;> rfl
  | some bps =>
    dsimp only
    unfold setBitrateActs
    cases p.bitrateTable.lookup bps <;> rfl

theorem modeActs_eq (p : Params) (c : BusConfig) : modeActs p c = modePieces p c.mode := by
  unfold modeActs
  cases c.mode with
  | none => rfl
  | some mode => cases mode <;> rfl

/-- The filters' exchanges, numbered from any index on. -/
theorem filtersActs_eq (p : Params) (i : Nat) (filters : List Filter) :
    filtersActs p i filters =
      (filters.zipIdx i).flatMap fun x => setFilterActs p (BitVec.ofNat 32 x.2) x.1 := by
  induction filters generalizing i with
  | nil => rfl
  | cons f rest ih => rw [filtersActs, ih, List.zipIdx_cons, List.flatMap_cons]

theorem filterPayload_ofNat (p : Params) (i : Nat) (f : Filter) :
    filterPayload p (BitVec.ofNat 32 i) f =
      leBytes 4 i ++ leBytes 4 (filterCode p f.kind).toNat ++ leBytes 4 f.id.toNat ++ leBytes 4 f.mask.toNat := by
  rw [filterPayload, BitVec.toNat_ofNat]
  congr 3
  exact leBytes_mod 4 i

theorem filtersActs_zero_eq (p : Params) (filters : List Filter) : filtersActs p 0 filters = filterPieces p filters := by
  rw [filtersActs_eq, filterPieces]
  congr 1
  funext x
  rw [setFilterActs, filterPayload_ofNat]
  rfl

/-- What a construct leaves pending once it has been reset: the sync and then its requests in order (R229 lines 1 to 5). -/
def constructPieces (p : Params) (c : BusConfig) : List Act :=
  [.enc p.cmdSync.toNat 0 0 [], .wr, .pop .control p.tCtrl, .syncAnswer, .seqClr, .session .synced]
    ++ exchange p p.cmdDeviceOpen 0 0 [] ++ [.session .deviceOpened]
    ++ ratePieces p c.bitrate c.btr ++ modePieces p c.mode ++ filterPieces p c.filters
    ++ [.session .configured]
    ++ exchange p p.cmdChannelOpen 0 0 [] ++ [.session .channelOpened]
    ++ [.session .running, .succeed]

theorem constructActs_eq (p : Params) {c : BusConfig} (h : c.bitrate = none ∨ c.btr = none) :
    constructActs p c = .rst :: .session .begin :: constructPieces p c := by
  have hboth : ¬(c.bitrate.isSome && c.btr.isSome) = true := by
    obtain h | h := h <;> simp [h]
  rw [constructActs, if_neg hboth, rateActs_eq, modeActs_eq, filtersActs_zero_eq]
  simp only [constructPieces, syncActs, deviceOpenActs, channelOpenActs, xchgActs, exchange, List.append_assoc,
    List.cons_append, List.nil_append]

/-- A construct runs RST and begins its session, and is then pending with its requests (R229 line 0). -/
theorem exec_construct (s : State) {c : BusConfig} (h : c.bitrate = none ∨ c.btr = none) :
    exec (.construct c) s =
      .next
        (park { newTask [] .init s with acts := constructPieces s.par c }
          (writeSession .begin (resetEngine (nextTicket s)))) := by
  show Host.Outcome.next (beginTask (constructActs s.par c) .init s) = _
  rw [constructActs_eq s.par h]
  rfl

/-- Settles O44: sync by its ENC, construct by its first two pieces. -/
theorem syncAndConstructBegin : Obligations.SyncAndConstructBegin := by
  unfold Obligations.SyncAndConstructBegin
  intro s _
  refine ⟨congrArg _ (beginTask_enc_ok (encodeFrame_sync _ _ _ _ _) _ _), fun c _ htasks hc => ?construct⟩
  case construct =>
    have hothers : otherTasks s.host.nextTicket s.host.tasks = [] := by rw [htasks]; rfl
    exact ⟨_, _, exec_construct s hc, justReset_resetEngine (nextTicket s), rfl, rfl, rfl, rfl, rfl, rfl,
      congrArg (· ++ _) hothers, rfl, rfl, rfl⟩

end Sys2Proof.Machine
end

section
/-!
PROOFS. What an answer makes of the operation that waits for it: none is a Timeout (R221 line 4, R222 line 3), the canonical
sync answer synchronizes (R222), a positive answer writes what its request writes into the session (R223 to R231).
-/

namespace Sys2Proof.Machine

open Sys2Proof Sys2Proof.Safety

/-! ### No answer (R221 line 4, R222 line 3) -/

section NoAnswer

variable {s : State} {t : Task}

theorem runAct_answer_none (command : Nat) (hgot : t.got = none) : runAct (.answer command) t s = .fail .timeout s := by
  simp only [runAct, actAnswer, hgot]

theorem runAct_syncAnswer_none (hgot : t.got = none) : runAct .syncAnswer t s = .fail .timeout s := by
  simp only [runAct, actSyncAnswer, hgot]

theorem failed_surface (e : HostError) (s : State) (h : t.handler = .surface) : failed e t s = ended t (.error e) s := by
  simp only [failed, h]

theorem failed_transition {source : Phase} (e : HostError) (s : State) (h : t.handler = .transition source) :
    failed e t s = ended t (.error e) { s with host.session.phase := failedPhase source s.host.session.phase } := by
  simp only [failed, h]

/-- What the host software does with an error leaves the engine. -/
theorem failed_eng (e : HostError) (t : Task) (s : State) : (failed e t s).eng = s.eng := by
  unfold failed
  split <;> rfl

end NoAnswer

/-- Settles O49: the piece that compares the answer fails with Timeout, in an exchange as in a sync. -/
theorem noAnswerIsATimeout : Obligations.NoAnswerIsATimeout := by
  unfold Obligations.NoAnswerIsATimeout
  intro s t command rest hf ht hgot hacts
  have hend : resumeTask t.ticket s = failed .timeout t s := by
    obtain ha | ha := hacts
    · exact resumeTask_fail hf ht ha (runAct_answer_none command hgot)
    · exact resumeTask_fail hf ht ha (runAct_syncAnswer_none hgot)
  rw [hend]
  exact ⟨rfl, failed_eng _ _ _, failed_surface _ _, fun source => failed_transition _ _⟩

/-! ### The sync answer (R135, R222) -/

/-- A frame that starts with a sync code and decodes is DEC.FS's (R130, R132). -/
theorem eq_decFsRow_of_decodeFrame {p : Params} {f : Frame} {d : Decoded} (hsync : isSyncCode p (byteAt f 0) = true)
    (hdec : decodeFrame p f = .ok d) : d = decFsRow p f := by
  unfold decodeFrame at hdec
  split_ifs at hdec
  exact (Except.ok.inj hdec).symm

/-- No other frame is a sync answer to DEC (R133, R137). -/
theorem isSyncOk_of_notSync {p : Params} {f : Frame} {d : Decoded} (hsync : ¬isSyncCode p (byteAt f 0) = true)
    (hdec : decodeFrame p f = .ok d) : d.isSyncOk = false := by
  simp only [decodeFrame, decF6Row] at hdec
  split_ifs at hdec <;> exact congrArg Decoded.isSyncOk (Except.ok.inj hdec).symm

/-- Of the frames that decode, only the canonical sync answer is accepted by a sync (R135, R222 lines 4 and 5). -/
theorem syncAccepts_iff {p : Params} {f : Frame} {d : Decoded} (hdec : decodeFrame p f = .ok d) :
    (d.command = p.cmdSyncAnswer ∧ d.isSyncOk = true) ↔ f = syncAnswerFrame p := by
  by_cases hsync : isSyncCode p (byteAt f 0) = true
  · obtain rfl := eq_decFsRow_of_decodeFrame hsync hdec
    rw [decFsRow, exposedCommand_of_sync hsync, isSyncOk, beq_iff_eq]
    exact ⟨And.right, fun h => ⟨by rw [h]; rfl, h⟩⟩
  · have hother : f ≠ syncAnswerFrame p := fun h => hsync ((isSyncCode_iff p _).2 (.inl (by rw [h]; rfl)))
    simp [isSyncOk_of_notSync hsync hdec, hother]

section SyncAnswer

variable {s : State} {t : Task} {f : Frame} {d : Decoded}

theorem runAct_syncAnswer_error {c : Cause} (hgot : t.got = some f) (hdec : decodeFrame s.par f = .error c) :
    runAct .syncAnswer t s = .fail (.engine c) s := by
  simp only [runAct, actSyncAnswer, hgot, hdec]

theorem runAct_syncAnswer_canonical (hgot : t.got = some f) (hdec : decodeFrame s.par f = .ok d)
    (hcanonical : f = syncAnswerFrame s.par) : runAct .syncAnswer t s = .done t s := by
  simp only [runAct, actSyncAnswer, hgot, hdec, if_pos ((syncAccepts_iff hdec).2 hcanonical)]

theorem runAct_syncAnswer_other (hgot : t.got = some f) (hdec : decodeFrame s.par f = .ok d)
    (hother : f ≠ syncAnswerFrame s.par) : runAct .syncAnswer t s = .fail .syncFail s := by
  simp only [runAct, actSyncAnswer, hgot, hdec, if_neg (mt (syncAccepts_iff hdec).1 hother)]

end SyncAnswer

/-! ### A whole sync (R222) -/

/-- A sync of its own under the next number, with these pieces left and this frame popped. -/
def syncing (acts : List Act) (got : Option Frame) (s : State) : Task :=
  { newTask acts (.transition .unsynced) s with raw := syncFrame s.par, got := got }

/-- The session after a sync that has succeeded (R222 line 5, R231). -/
def syncedSession (x : Session) : Session :=
  { x with synchronized := true, phase := if x.phase = .unsynced then .synced else x.phase }

/-- The state once the sync frame is out and the head of `CQ` is popped (R222 lines 1 to 3). -/
def syncPopped (answers : List WrAnswer) (frames : List Frame) (s : State) : State :=
  { sent (syncFrame s.par) answers s with eng.seqTx := 0, eng.cq := frames }

section WholeSync

variable {s : State} {f : Frame}

theorem exec_sync (hf : TicketsFresh s) :
    exec .sync s =
      .next
        (withPending (syncing [.wr, .pop .control s.par.tCtrl, .syncAnswer, .seqClr, .session .synced] none s)
          { s with eng.seqTx := 0 }) := by
  have hbegin := beginTask_enc_ok (encodeFrame_sync s.par s.eng.seqTx 0 0 [])
    [.pop .control s.par.tCtrl, .syncAnswer, .seqClr, .session .synced] (.transition .unsynced)
  rw [pendingWith_eq (s := { s with eng.seqTx := 0 }) hf] at hbegin
  exact congrArg _ hbegin

/-- A sync's WR that the channel accepts, and its pop with a frame at the head of `CQ` (R222 lines 2 and 3). -/
theorem resume_sync_popped {answers : List WrAnswer} {frames : List Frame} (hf : TicketsFresh s)
    (hopen : s.eng.portOpen = true) (hw : s.ch.wrAnswers = .ok :: answers) (hcq : s.eng.cq = f :: frames) (timeout : Nat)
    (rest : List Act) :
    resumeTask s.host.nextTicket
        (resumeTask s.host.nextTicket
          (withPending (syncing (.wr :: .pop .control timeout :: .syncAnswer :: rest) none s) { s with eng.seqTx := 0 })) =
      withPending (syncing (.syncAnswer :: rest) (some f) s) (syncPopped answers frames s) := by
  have hsent := resume_wr_pop (s := { s with eng.seqTx := 0 })
    (t := syncing (.wr :: .pop .control timeout :: .syncAnswer :: rest) none s) hf rfl rfl hopen hw
  have hpopped := resume_withPending_continues (s := sent (syncFrame s.par) answers { s with eng.seqTx := 0 })
    (u := syncPopped answers frames s) (t := syncing (.pop .control timeout :: .syncAnswer :: rest) none s) hf rfl rfl
    (runAct_pop_cons (q := .control) timeout hcq) rfl rfl
  exact (congrArg (resumeTask s.host.nextTicket) hsent).trans hpopped

/-- The canonical answer lets a sync go on to SEQCLR (R222 line 5). -/
theorem resume_sync_canonical {d : Decoded} (hf : TicketsFresh s) (hdec : decodeFrame s.par f = .ok d)
    (hcanonical : f = syncAnswerFrame s.par) :
    resumeTask s.host.nextTicket (withPending (syncing [.syncAnswer, .seqClr, .session .synced] (some f) s) s) =
      withPending (syncing [.seqClr, .session .synced] (some f) s) s :=
  resume_withPending_continues (u := s) hf rfl rfl
    (runAct_syncAnswer_canonical (s := withPending _ s) rfl hdec hcanonical) rfl rfl

/-- Any other frame that decodes ends a sync with SyncFail, and fails the transition from Unsynced (R222 line 4, R231). -/
theorem resume_sync_other {d : Decoded} (hf : TicketsFresh s) (hdec : decodeFrame s.par f = .ok d)
    (hother : f ≠ syncAnswerFrame s.par) (rest : List Act) :
    resumeTask s.host.nextTicket (withPending (syncing (.syncAnswer :: rest) (some f) s) s) =
      returned (.error .syncFail) { s with host.session.phase := failedPhase .unsynced s.host.session.phase } := by
  rw [resume_withPending_fail hf rfl rfl (runAct_syncAnswer_other (s := withPending _ s) rfl hdec hother),
    failed_transition _ _ rfl]
  exact ended_withPending (s := { s with host.session.phase := failedPhase .unsynced s.host.session.phase }) hf rfl _

/-- SEQCLR and the session's write end a sync with ok (R222 line 5, R231). -/
theorem resume_sync_synced (hf : TicketsFresh s) (got : Option Frame) :
    resumeTask s.host.nextTicket (withPending (syncing [.seqClr, .session .synced] got s) s) =
      returned .ok { s with eng.seqTx := 0, host.session := syncedSession s.host.session } := by
  rw [resume_withPending_done (t := syncing _ got s) hf rfl rfl rfl]
  exact ended_withPending (t := syncing _ got s)
    (s := { s with eng.seqTx := 0, host.session := syncedSession s.host.session }) hf rfl .ok

end WholeSync

/-- Settles O48: the whole by its pieces one after the other, each piece by how it ends. -/
theorem syncSucceedsOnTheCanonicalAnswer : Obligations.SyncSucceedsOnTheCanonicalAnswer := by
  unfold Obligations.SyncSucceedsOnTheCanonicalAnswer
  refine ⟨?whole, ?answer, ?clear⟩
  case whole =>
    intro s f rest d answers _ hf hopen hw hcq hdec
    have hpopped := resume_sync_popped hf hopen hw hcq s.par.tCtrl [.seqClr, .session .synced]
    by_cases hcanonical : f = syncAnswerFrame s.par
    · have hgoesOn := (congrArg (resumeTask s.host.nextTicket) hpopped).trans
        (resume_sync_canonical (s := syncPopped answers rest s) hf hdec hcanonical)
      have hsynced := resume_sync_synced (s := syncPopped answers rest s) hf (some f)
      have heng := congrArg State.eng hsynced
      have hch := congrArg State.ch hsynced
      exact ⟨_, _, exec_sync hf, hgoesOn.symm, rfl, rfl, rfl,
        fun _ => ⟨heng, hch, congrArg (·.host.session) hsynced, congrArg (·.host.reply) hsynced,
          congrArg (·.host.tasks) hsynced⟩,
        absurd hcanonical⟩
    · have hfails := (congrArg (resumeTask s.host.nextTicket) hpopped).trans
        (resume_sync_other (s := syncPopped answers rest s) hf hdec hcanonical [.seqClr, .session .synced])
      exact ⟨_, _, exec_sync hf, hfails.symm, rfl, rfl, rfl, fun h => absurd h hcanonical, fun _ => ⟨rfl, rfl, rfl⟩⟩
  case answer =>
    intro s t f rest _ hf ht ha hgot
    exact ⟨fun d hdec hcanonical => resumeTask_done hf ht ha (runAct_syncAnswer_canonical hgot hdec hcanonical),
      fun d hdec hother => resumeTask_fail hf ht ha (runAct_syncAnswer_other hgot hdec hother),
      fun c hdec => resumeTask_fail hf ht ha (runAct_syncAnswer_error hgot hdec)⟩
  case clear =>
    intro s t rest hf ht
    have goesOn : ∀ {rest : List Act}, t.acts = .seqClr :: rest →
        resumeTask t.ticket s = proceeds t t rest { s with eng.seqTx := 0 } :=
      fun ha => resumeTask_done hf ht ha rfl
    exact ⟨goesOn, goesOn⟩

/-! ### A positive answer (R223 to R231) -/

/-- At the end of a construct the channel's opening makes a configured session Running (R229 line 5, R231). -/
theorem updateSession_running_channelOpened (x : Session) :
    updateSession .running (updateSession .channelOpened x) =
      { x with
        channelOpen := true
        phase := if x.phase = .configured ∨ x.phase = .channelOpen then .running else x.phase } := by
  unfold updateSession stepPhase
  cases x.phase <;> rfl

/-- Settles O60: the comparison is done, and what follows it is the host software's own write of the session. -/
theorem positiveAnswersWriteTheSession : Obligations.PositiveAnswersWriteTheSession := by
  unfold Obligations.PositiveAnswersWriteTheSession
  intro s t command rest f d hf ht hgot hdec hc hpos
  have goesOn : ∀ {rest : List Act}, t.acts = .answer command :: rest →
      resumeTask t.ticket s = proceeds t { t with value := .record d } rest s :=
    fun ha => resumeTask_done hf ht ha (runAct_answer_positive hgot hdec hc hpos)
  refine ⟨goesOn, goesOn, goesOn, goesOn, fun _ => goesOn, fun _ => goesOn, fun _ => goesOn, fun _ => goesOn, goesOn,
    goesOn, fun ha => ?running, fun ha => ?channelClosed⟩
  case running =>
    rw [goesOn ha]
    simp only [proceeds, updateSession_running_channelOpened]
  case channelClosed =>
    rw [goesOn ha, proceeds, updateSession_channelClosed]

end Sys2Proof.Machine
end

section
/-!
PROOFS. send (R250): the body it builds, read back (R59, R138), and its operation from ENC to the answer of its WR.
-/

namespace Sys2Proof.Machine

open Sys2Proof Sys2Proof.Safety

/-! ### Writing the words of a body (R13, R59) -/

/-- A write never shortens a buffer, wherever it goes. -/
theorem length_le_memWrite (buf : List Byte) (off n v : Nat) : buf.length ≤ (memWrite buf off n v).length := by
  simp only [memWrite, List.length_append, List.length_take, leBytes_length, List.length_drop]
  omega

/-- A field of the first bytes of a buffer. -/
theorem memRead_take {buf : List Byte} {k off n : Nat} (hk : off + n ≤ k) (hbuf : k ≤ buf.length) :
    memRead (buf.take k) off n = memRead buf off n := by
  conv_rhs => rw [← List.take_append_drop k buf]
  exact (memRead_append_left _ _ _ _ (by rw [List.length_take]; omega)).symm

/-- A buffer whose first 16 bytes are these four words. -/
def withWords (buf : List Byte) (v0 v1 v2 v3 : BitVec 32) : List Byte :=
  memWrite (memWrite (memWrite (memWrite buf 0 4 v0.toNat) 4 4 v1.toNat) 8 4 v2.toNat) 12 4 v3.toNat

theorem length_le_withWords (buf : List Byte) (v0 v1 v2 v3 : BitVec 32) :
    buf.length ≤ (withWords buf v0 v1 v2 v3).length :=
  calc buf.length ≤ _ := length_le_memWrite buf 0 4 v0.toNat
    _ ≤ _ := length_le_memWrite _ 4 4 v1.toNat
    _ ≤ _ := length_le_memWrite _ 8 4 v2.toNat
    _ ≤ _ := length_le_memWrite _ 12 4 v3.toNat

/-- A word that was just written. -/
theorem memRead_memWrite_word {buf : List Byte} {off : Nat} (h : off ≤ buf.length) (v : BitVec 32) :
    memRead (memWrite buf off 4 v.toNat) off 4 = v.toNat :=
  (memRead_memWrite_same _ _ _ _ h).trans (Nat.mod_eq_of_lt v.isLt)

/-- Each of the four words reads back: the writes behind it leave it. -/
theorem memRead_withWords {buf : List Byte} (h : 16 ≤ buf.length) (v0 v1 v2 v3 : BitVec 32) :
    memRead (withWords buf v0 v1 v2 v3) 0 4 = v0.toNat ∧ memRead (withWords buf v0 v1 v2 v3) 4 4 = v1.toNat
      ∧ memRead (withWords buf v0 v1 v2 v3) 8 4 = v2.toNat ∧ memRead (withWords buf v0 v1 v2 v3) 12 4 = v3.toNat := by
  have h1 := length_le_memWrite buf 0 4 v0.toNat
  have h2 := length_le_memWrite (memWrite buf 0 4 v0.toNat) 4 4 v1.toNat
  have h3 := length_le_memWrite (memWrite (memWrite buf 0 4 v0.toNat) 4 4 v1.toNat) 8 4 v2.toNat
  unfold withWords
  refine ⟨?w0, ?w1, ?w2, memRead_memWrite_word (by omega) v3⟩
  case w0 =>
    rw [memRead_memWrite_before _ 12 _ _ 0 4 (by omega) (by omega),
      memRead_memWrite_before _ 8 _ _ 0 4 (by omega) (by omega),
      memRead_memWrite_before _ 4 _ _ 0 4 (by omega) (by omega), memRead_memWrite_word (by omega)]
  case w1 =>
    rw [memRead_memWrite_before _ 12 _ _ 4 4 (by omega) (by omega),
      memRead_memWrite_before _ 8 _ _ 4 4 (by omega) (by omega),
      memRead_memWrite_word (by omega)]
  case w2 =>
    rw [memRead_memWrite_before _ 12 _ _ 8 4 (by omega) (by omega), memRead_memWrite_word (by omega)]

/-! ### The body of a sent frame (R250 line 1) -/

section SentBody

variable {p : Params}

theorem blankPrefix_length (p : Params) (fresh : Nat) : (blankPrefix p fresh).length = p.bodyPrefix := by
  rw [blankPrefix, List.length_map, List.length_range]

/-- The four words of a sent body by their meanings, in a buffer that may still be longer than `BODY_PREFIX` (log 9). -/
def sentWords (p : Params) (f : CanFrame) (fresh : Nat) : List Byte :=
  withWords (blankPrefix p fresh) (sentWord p f fresh p.word0) (sentWord p f fresh p.word1) (sentWord p f fresh p.word2)
    (sentWord p f fresh p.word3)

theorem bodyPrefixOf_eq (p : Params) (f : CanFrame) (fresh : Nat) :
    bodyPrefixOf p f fresh =
      memWrite ((sentWords p f fresh).take p.bodyPrefix) p.bodyDlcOff 2 f.data.length := rfl

theorem length_take_sentWords (p : Params) (f : CanFrame) (fresh : Nat) :
    ((sentWords p f fresh).take p.bodyPrefix).length = p.bodyPrefix := by
  rw [List.length_take, Nat.min_eq_left]
  exact (blankPrefix_length p fresh).symm.le.trans (length_le_withWords _ _ _ _ _)

theorem bodyPrefixOf_length (hp : p.Facts) (f : CanFrame) (fresh : Nat) :
    (bodyPrefixOf p f fresh).length = p.bodyPrefix := by
  have hlength := length_take_sentWords p f fresh
  rw [bodyPrefixOf_eq, memWrite_length _ _ _ _ (hlength.symm ▸ hp.dlcFits), hlength]

theorem sentBody_length (hp : p.Facts) (f : CanFrame) (fresh : Nat) :
    (sentBody p f fresh).length = p.bodyPrefix + f.data.length := by
  rw [sentBody, List.length_append, bodyPrefixOf_length hp]

/-- The data stand behind the first `BODY_PREFIX` bytes (R138). -/
theorem drop_sentBody (hp : p.Facts) (f : CanFrame) (fresh : Nat) : (sentBody p f fresh).drop p.bodyPrefix = f.data :=
  List.drop_left' (bodyPrefixOf_length hp f fresh)

/-- The DLC's field holds the number of data bytes. -/
theorem memRead_sentBody_dlc (hp : p.Facts) {f : CanFrame} (hdata : f.data.length ≤ 65535) (fresh : Nat) :
    memRead (sentBody p f fresh) p.bodyDlcOff 2 = f.data.length := by
  have hfits := hp.dlcFits
  have hlength := length_take_sentWords p f fresh
  rw [sentBody, memRead_append_left _ _ _ _ (by rw [bodyPrefixOf_length hp]; omega), bodyPrefixOf_eq,
    memRead_memWrite_same _ _ _ _ (by omega)]
  omega

/-- Where the DLC stands behind the words, it leaves them, and so does the cut at `BODY_PREFIX` (log 9). -/
theorem memRead_sentBody_word (hp : p.Facts) (hdlc : 16 ≤ p.bodyDlcOff) (f : CanFrame) (fresh : Nat) {off : Nat}
    (hoff : off + 4 ≤ 16) : memRead (sentBody p f fresh) off 4 = memRead (sentWords p f fresh) off 4 := by
  have hfits := hp.dlcFits
  have hlength := length_take_sentWords p f fresh
  have hwhole := List.length_take_le' p.bodyPrefix (sentWords p f fresh)
  rw [sentBody, memRead_append_left _ _ _ _ (by rw [bodyPrefixOf_length hp]; omega), bodyPrefixOf_eq,
    memRead_memWrite_before _ _ _ _ _ _ (by omega) (by omega), memRead_take (by omega) (by omega)]

/-- The record of a body shows these data: their number as DLC, and the integrity flag off. -/
theorem decodeBody_sentBody_data (hp : p.Facts) {f : CanFrame} (hdata : f.data.length ≤ 65535) (fresh : Nat) :
    (decodeBody p (sentBody p f fresh)).data = f.data
      ∧ (decodeBody p (sentBody p f fresh)).dlc.toNat = f.data.length
      ∧ (decodeBody p (sentBody p f fresh)).isErrorFrame = false := by
  have hdlc := memRead_sentBody_dlc hp hdata fresh
  have hdrop := drop_sentBody hp f fresh
  refine ⟨hdrop, toNat_ofNat_of_field hdlc hdata, ?flag⟩
  case flag =>
    show isErrorFrame (memRead (sentBody p f fresh) p.bodyDlcOff 2) ((sentBody p f fresh).drop p.bodyPrefix) = false
    rw [hdlc, hdrop, isErrorFrame_eq, decide_eq_false (not_not.2 rfl)]

/-! ### The words by their meanings (R59, R251 line 4) -/

/-- Four different meanings are all there are. -/
theorem mem_of_nodup_bodyWords {l : List BodyWord} (h : l.Nodup) (hlength : 4 ≤ l.length) (m : BodyWord) : m ∈ l := by
  have hall : ∀ x : BodyWord, x ∈ [BodyWord.flagWord, .arbitrationId, .timestamp, .fourth] := fun x => by
    cases x <;> decide
  exact ((h.subperm fun x _ => hall x).perm_of_length_le hlength).mem_iff.2 (hall m)

/-- In a body whose words hold a value for each meaning, the word of a meaning holds that meaning's value. -/
theorem wordOf_eq (hw : p.Layout) {b : Body} {value : BodyWord → BitVec 32} (h0 : b.w0 = value p.word0)
    (h1 : b.w1 = value p.word1) (h2 : b.w2 = value p.word2) (h3 : b.w3 = value p.word3) (m : BodyWord) :
    wordOf p m b = value m := by
  have hmem := mem_of_nodup_bodyWords hw.words (Nat.le_refl 4) m
  simp only [List.mem_cons, List.not_mem_nil, or_false] at hmem
  unfold wordOf
  split_ifs with m0 m1 m2
  · rw [h0, m0]
  · rw [h1, m1]
  · rw [h2, m2]
  · obtain rfl | rfl | rfl | rfl := hmem
    · exact absurd rfl m0
    · exact absurd rfl m1
    · exact absurd rfl m2
    · exact h3

/-- Every meaning's word of a sent body reads back. -/
theorem wordOf_decodeBody_sentBody (hp : p.Facts) (hw : p.Layout) (f : CanFrame) (fresh : Nat) (m : BodyWord) :
    wordOf p m (decodeBody p (sentBody p f fresh)) = sentWord p f fresh m := by
  have hdlc := hw.dlcOff
  have hfits := hp.dlcFits
  have hblank : 16 ≤ (blankPrefix p fresh).length := by rw [blankPrefix_length]; omega
  obtain ⟨h0, h1, h2, h3⟩ := memRead_withWords hblank (sentWord p f fresh p.word0) (sentWord p f fresh p.word1)
    (sentWord p f fresh p.word2) (sentWord p f fresh p.word3)
  have hword {off : Nat} {v : BitVec 32} (hoff : off + 4 ≤ 16) (h : memRead (sentWords p f fresh) off 4 = v.toNat) :
      BitVec.ofNat 32 (memRead (sentBody p f fresh) off 4) = v := by
    rw [memRead_sentBody_word hp hdlc f fresh hoff, h, BitVec.ofNat_toNat, BitVec.setWidth_eq]
  exact wordOf_eq hw (hword (by omega) h0) (hword (by omega) h1) (hword (by omega) h2) (hword (by omega) h3) m

/-- A word put together from two masks that are apart has a bit of the first exactly when that mask was put in. -/
theorem masked_bne_zero {a b : BitVec 32} (ha : a ≠ 0) (hapart : a &&& b = 0) (x y : Bool) :
    (((if x then a else 0) ||| (if y then b else 0)) &&& a != 0) = x := by
  have hother : a &&& (if y then b else 0) = 0#32 := by
    split_ifs
    · exact hapart
    · exact BitVec.and_zero
  rw [BitVec.and_comm, BitVec.and_or_distrib_left, hother, BitVec.or_zero]
  cases x
  · exact bne_eq_false_iff_eq.2 BitVec.and_zero
  · exact bne_iff_ne.2 (BitVec.and_self.symm ▸ ha)

/-- The flag word says extended and remote as the frame does (U10). -/
theorem flagWordOf_bits (hw : p.Layout) (f : CanFrame) :
    (flagWordOf p f &&& p.extendedMask != 0) = f.extended ∧ (flagWordOf p f &&& p.remoteMask != 0) = f.remote := by
  refine ⟨masked_bne_zero hw.extendedMask hw.masksApart _ _, ?remote⟩
  case remote =>
    rw [flagWordOf, BitVec.or_comm]
    exact masked_bne_zero hw.remoteMask ((BitVec.and_comm _ _).trans hw.masksApart) _ _

/-- A sent body decodes to the CAN frame that was sent (R251 line 4). -/
theorem receivedOf_sentBody (hp : p.Facts) (hw : p.Layout) (f : CanFrame) (fresh : Nat) :
    (receivedOf p (decodeBody p (sentBody p f fresh))).frame = f := by
  obtain ⟨hextended, hremote⟩ := flagWordOf_bits hw f
  simp only [receivedOf, wordOf_decodeBody_sentBody hp hw, sentWord, hextended, hremote]
  rw [show (decodeBody p (sentBody p f fresh)).data = f.data from drop_sentBody hp f fresh]

end SentBody

/-! ### The operation (R250) -/

section Send

variable {s : State} {f : CanFrame}

/-- ENC of the body with the next tag, when it fits the 16-bit length (R113). -/
theorem encodeFrame_sentBody {p : Params} (hp : p.Facts) (seq : BitVec 8) (hflags : p.channelFlags ≤ 65535)
    (hlength : p.bodyPrefix + f.data.length ≤ 65535) (fresh : Nat) :
    encodeFrame p seq p.cmdMessage.toNat p.channelFlags (p.bodyPrefix + f.data.length) (sentBody p f fresh) =
      .ok (headerF6 p seq p.channelFlags (p.bodyPrefix + f.data.length) ++ sentBody p f fresh, seq + 1) := by
  have hlimit : fieldLimit p p.cmdMessage.toNat = 65535 := if_pos rfl
  have hfits := hp.dlcFits
  have hpos : p.bodyPrefix + f.data.length > 0 := by omega
  rw [encodeFrame_msg hp seq ((fieldError_eq_none _ _ _ _ _).2
    ⟨hlimit ▸ hflags, hlimit ▸ hlength, fun _ => sentBody_length hp f fresh⟩), withPayload, if_pos hpos]

/-- A body that is too long fails the test of the length, and no other (R115). -/
theorem encodeFrame_sentBody_tooLong {p : Params} (hp : p.Facts) (seq : BitVec 8) (hflags : p.channelFlags ≤ 65535)
    (hlength : 65535 < p.bodyPrefix + f.data.length) (fresh : Nat) :
    encodeFrame p seq p.cmdMessage.toNat p.channelFlags (p.bodyPrefix + f.data.length) (sentBody p f fresh) =
      .error (.badField false true false) := by
  have hlimit : fieldLimit p p.cmdMessage.toNat = 65535 := if_pos rfl
  have hfields := fieldError_of_failed (payload := sentBody p f fresh)
    (.inr (.inl (hlimit.symm ▸ hlength)) : p.channelFlags > fieldLimit p p.cmdMessage.toNat ∨ _ ∨ _)
  rw [encodeFrame_badField hp seq hp.messageInRange hfields, hlimit, sentBody_length hp, decide_eq_false (by omega),
    decide_eq_true hlength, decide_eq_false (by simp)]

/-- send after its ENC: only its WR is left. -/
def sending (f : CanFrame) (s : State) : Task :=
  { newTask [.wr] .surface s with
    raw :=
      headerF6 s.par s.eng.seqTx s.par.channelFlags (s.par.bodyPrefix + f.data.length) ++ sentBody s.par f s.fresh }

/-- The state `s` once send has encoded its frame: the tag has advanced, and the free values are used up (log 25). -/
def encoded (s : State) : State :=
  { s with eng.seqTx := s.eng.seqTx + 1, fresh := s.fresh + 2 }

/-- send begins with ENC, and is pending with its WR (R250 lines 1 to 3). -/
theorem exec_send (hp : s.par.Facts) (hf : TicketsFresh s) (hflags : s.par.channelFlags ≤ 65535)
    (hlength : s.par.bodyPrefix + f.data.length ≤ 65535) :
    exec (.send f) s = .next (withPending (sending f s) (encoded s)) := by
  have henc := encodeFrame_sentBody hp s.eng.seqTx hflags hlength s.fresh
  show Host.Outcome.next (beginTask (sendActs s.par f s.fresh) .surface { s with fresh := s.fresh + 2 }) = _
  rw [sendActs, beginTask_enc_ok (s := { s with fresh := s.fresh + 2 }) henc]
  exact congrArg _ (pendingWith_eq (s := encoded s) hf [.wr] .surface _ false)

/-- A send that does not fit ends at once with BadField, and nothing has been sent (R115). -/
theorem exec_send_tooLong (hp : s.par.Facts) (hf : TicketsFresh s) (hflags : s.par.channelFlags ≤ 65535)
    (hlength : 65535 < s.par.bodyPrefix + f.data.length) :
    exec (.send f) s =
      .next (returned (.error (.engine (.badField false true false))) { s with fresh := s.fresh + 2 }) := by
  have henc := encodeFrame_sentBody_tooLong hp s.eng.seqTx hflags hlength s.fresh
  have hfail := beginTask_fail (s := { s with fresh := s.fresh + 2 }) [.wr] .surface
    (runAct_enc_error (s := nextTicket { s with fresh := s.fresh + 2 }) henc)
  exact congrArg _ (hfail.trans (handleError_new_surface (s := { s with fresh := s.fresh + 2 }) hf _ _))

/-- An operation that has begun, with nothing but its WR left, ends with that when the channel accepts the bytes (R190). -/
theorem resume_last_wr {t : Task} {answers : List WrAnswer} (hf : TicketsFresh s) (ht : t.ticket = s.host.nextTicket)
    (ha : t.acts = [.wr]) (hopen : s.eng.portOpen = true) (hw : s.ch.wrAnswers = .ok :: answers) :
    resumeTask s.host.nextTicket (withPending t s) = returned t.value (sent t.raw answers s) :=
  (resume_withPending_done (rest := []) hf ht ha (runAct_wr_done (writeFlush_ok (s := withPending t s) hopen hw))).trans
    (ended_withPending (s := sent t.raw answers s) hf ht t.value)

end Send

/-- Settles O45: the body read back field by field, send's first step by whether the body fits, and its WR. -/
theorem sendBuildsTheBody : Obligations.SendBuildsTheBody := by
  unfold Obligations.SendBuildsTheBody
  intro s f hok hf hflags
  have hp := Params.facts hok
  refine ⟨fun hlength => ?fits, fun hlength => ?tooLong⟩
  case fits =>
    obtain ⟨hdata, hdlc, hflag⟩ := decodeBody_sentBody_data hp (f := f) (by omega) s.fresh
    refine ⟨_, sending f s, sentBody s.par f s.fresh, exec_send hp hf hflags hlength, rfl, rfl, rfl, rfl, rfl, rfl,
      sentBody_length hp f s.fresh, hdata, hdlc, hflag, fun hbody => receivedOf_sentBody hp (Params.layout hbody) f s.fresh,
      rfl, ⟨rfl, rfl, rfl, rfl, rfl, rfl⟩, fun answers hopen hw => ?written⟩
    case written =>
      have hend : resumeTask s.host.nextTicket (withPending (sending f s) (encoded s)) =
          returned .ok (sent (sending f s).raw answers (encoded s)) :=
        resume_last_wr (s := encoded s) hf rfl rfl hopen hw
      rw [hend]
      exact ⟨rfl, rfl, rfl, rfl, rfl, rfl⟩
  case tooLong =>
    exact ⟨_, exec_send_tooLong hp hf hflags hlength, rfl, rfl, rfl, rfl, rfl, rfl, rfl, rfl, rfl⟩

end Sys2Proof.Machine
end

section
/-!
PROOFS. When a step answers a next state (R271, R333): every instruction does, so only the parameter record of a step can stop the
machine (U17, log 9).
-/

namespace Sys2Proof.Machine

open Sys2Proof

/-- No instruction ends in a fault or a refusal: the errors of R271 are results of host operations, and a reader's row that is not
enabled answers the state as it was (log 6). -/
theorem exec_answers (i : Instr) (s : State) : ∃ t, exec i s = .next t := by
  cases i
  case wr raw =>
    cases hw : writeFlush raw s with
    | mk failure u =>
      cases failure with
      | none => exact ⟨_, exec_wr_done hw⟩
      | some c => exact ⟨_, exec_wr_fail hw⟩
  case rxArm | rxStopChk | rxIdle | rxErr | rxSkip0 | rxFirst | rxHdr | rxLen4 | rxLenSync | rxLen6 | rxPay | rxComplete | push =>
    exact ⟨if _ then _ else s, rfl⟩
  case byteZero | byteMessage | byteSyncAnswer | byteSync | byteError | byteCtrl | byteCtrlAck => exact ⟨offerByte _ s, rfl⟩
  case encSync | encCtrl | encMsg | encBadCommand | encBadField => exact ⟨hostEnc _ _ _ _ s, rfl⟩
  case decEmpty | decZeroStart | decShort | decFs | decF4 | decF6 | decBodyShort => exact ⟨hostDec _ s, rfl⟩
  case seqClr | status | rst => exact ⟨hostReturn _ _, rfl⟩
  case popc | popm | stop | xchg | sync | deviceOpen | deviceClose | setBitrate | setMode | setFilter | channelOpen | channelClose
      | setBitrateFromRegister | construct | shutdown | send | recv =>
    exact ⟨beginTask _ _ _, rfl⟩

/-- A parameter record outside R9 stops every step, whatever turn is next (U17). -/
theorem step_of_badParameters {s : State} (hbad : s.par.ok = false) : step s = .fault .badParameters := by
  rw [step_eq, if_neg (Bool.eq_false_iff.1 hbad)]

/-- Under a record of R9 the step is the action of its turn, and each of the three kinds answers. -/
theorem step_answers {s : State} (hok : s.par.ok = true) : ∃ t, step s = .next t := by
  cases hturn : fetchTurn s with
  | reader => exact ⟨readerTurn s, step_of_reader hok hturn⟩
  | resume ticket => exact ⟨resumeTask ticket (dropTurn s), step_of_resume hok hturn⟩
  | packet p =>
    obtain ⟨t, ht⟩ := exec_answers (decode s.par p) (dropTurn s)
    exact ⟨t, (step_of_packet hok hturn).trans ht⟩

/-- Settles O5: the parameter check is the only thing that can stop a step. -/
theorem onlyBadInputStops : Obligations.OnlyBadInputStops := by
  unfold Obligations.OnlyBadInputStops
  exact fun _ => ⟨step_answers, step_of_badParameters⟩

end Sys2Proof.Machine
end
